-- ==== Sys2Proof/Word.lean ====
section
/-!
DEFINITION. The two word types of the block: a byte (00_scope.md R9, 20_memory.md R36) and a 16-bit word
(the command word W of R48, the handler and context values of R21).
-/
namespace Sys2Proof

/-- A byte: one ring cell, one payload byte, one response byte (R9, R36). -/
abbrev Byte := BitVec 8

/-- A 16-bit word: a command word (R48), a handler or a context value (R21). -/
abbrev Word := BitVec 16

end Sys2Proof
end

