-- ==== Sys2Proof/Config.lean ====
section
/-!
DEFINITION. The build parameters of the block (00_scope.md R7, R8; 10_state.md R14, R15). A block is built with one
`Config` and never changes it. NEWLINE_SEQ, CLS_SEQ, FMT_INT and FMT_FLOAT are arguments of the pseudo-instructions
in Machine/Foreground.lean (assumption log 14).
-/
namespace Sys2Proof

/-- `RX_OVERFLOW` (R7, R64): what an RXC on a full RX ring does to `out`. -/
inductive RxOverflow where
  /-- OVERWRITE_OLDEST: `out` advances, the oldest byte is lost. -/
  | overwriteOldest
  /-- OVERWRITE_AT_IN: `out` stays. -/
  | overwriteAtIn
  deriving DecidableEq, Repr

/-- `TRIG_COMPACTION` (R7, R88): whether trigger bits move with entries on deregistration. -/
inductive TrigCompaction where
  | shiftWithEntries
  | stayByPosition
  deriving DecidableEq, Repr

/-- The parameters of R7 that fix the block's own behaviour. HANDLER_W and CTX_W are fixed at 16 by R7. -/
structure Config where
  /-- `RX_SIZE` = `RX.N` (R14). -/
  rxSize : Nat
  /-- `TX_SIZE` = `TX.N` (R14). -/
  txSize : Nat
  rxOverflow : RxOverflow
  matchEnabled : Bool
  maxSeqLen : Nat
  maxPatterns : Nat
  trigCompaction : TrigCompaction
  deriving DecidableEq, Repr

/-- The legal values of R7's table. -/
def Config.legal (c : Config) : Bool :=
  decide (1 ≤ c.rxSize ∧ c.rxSize ≤ 65535 ∧ 1 ≤ c.txSize ∧ c.txSize ≤ 65535 ∧
    1 ≤ c.maxSeqLen ∧ c.maxSeqLen ≤ 255 ∧ 1 ≤ c.maxPatterns ∧ c.maxPatterns ≤ 32)

/-- `IDXW_R` (R15): the width in bits of a ring's `in`, `out` and `count`, from its capacity `n`. -/
def idxWidth (n : Nat) : Nat := if n ≤ 255 then 8 else 16

/-- The test defaults of R7. -/
def Config.testDefault : Config where
  rxSize := 4
  txSize := 4
  rxOverflow := .overwriteOldest
  matchEnabled := true
  maxSeqLen := 8
  maxPatterns := 8
  trigCompaction := .shiftWithEntries

end Sys2Proof
end

