-- ==== Sys2Proof/Syntax.lean ====
section
/-!
DEFINITION. The commands and events of the block: one constructor per row of spec/opcode_table.json, with the operands
and payload fields of 30_encoding.md R52 and R53. Table positions and counts are numbers, bytes and words are bits.
-/
namespace Sys2Proof

/-- One command unit (command port) or event unit (event port), decoded (R57). -/
inductive Instr where
  /-- SENDB b (R68). -/
  | sendb (b : Byte)
  /-- SENDNB b (R69). -/
  | sendnb (b : Byte)
  /-- RECVB (R70). -/
  | recvb
  /-- RECVNB (R71). -/
  | recvnb
  /-- PEEKB (R72). -/
  | peekb
  /-- PEEKNB (R73). -/
  | peeknb
  /-- PEEKN n (R74), `n` the 12-bit count. -/
  | peekn (n : Nat)
  /-- FLUSHRX (R75). -/
  | flushrx
  /-- FLUSHTX (R76). -/
  | flushtx
  /-- SETUP r, char_size, stop_bits, parity (R94). -/
  | setup (rate : BitVec 32) (charSize stopBits parity : Byte)
  /-- MREG h, c, pattern (R85), the pattern as presented. -/
  | mreg (handler ctx : Word) (pattern : List Byte)
  /-- MDEREG pattern (R87), the pattern as presented. -/
  | mdereg (pattern : List Byte)
  /-- MTRIG i (R89). -/
  | mtrig (i : Nat)
  /-- MCLR i (R90). -/
  | mclr (i : Nat)
  /-- STAT (R95). -/
  | stat
  /-- RXC b, the RX-complete event (R81). -/
  | rxc (b : Byte)
  /-- TXR, the TX-ready event (R80). -/
  | txr
  deriving DecidableEq, Repr

end Sys2Proof
end

