-- ==== Sys2Proof/Machine/State.lean ====
section
/-!
DEFINITION. The state of the block as plain data (10_state.md R13-R32), the reasons a step can stop, and the state after
reset. Beside the spec's state stand the model's own fields: what the two agents present and what the block has put out.
-/
namespace Sys2Proof.Machine

/-- The storage of one ring (R13 `R.buf`, 20_memory.md R34): (index, byte) pairs, indices strictly rising. An index that
is not listed holds no value: R32 leaves reset contents unspecified and R33 lets a model fault on such a read
(assumption log 6). -/
abbrev Memory := List Host.Cell

/-- One ring (R13): its cells, `in`, `out` and `count`. Its capacity N stands in `Config` (R14). -/
structure Ring where
  buf : Memory
  /-- `R.in`, the index the next push writes. -/
  inIdx : Nat
  /-- `R.out`, the index the next pop reads. -/
  outIdx : Nat
  /-- `R.count`, the number of bytes held. -/
  count : Nat
  deriving DecidableEq, Repr

/-- One registered entry (R21). `len` is the length of `pat`; bytes at or beyond `len` are never read, so they are not
kept (assumption log 7). -/
structure Entry where
  pat : List Byte
  /-- `prog`, the progress counter. -/
  prog : Nat
  handler : Word
  ctx : Word
  deriving DecidableEq, Repr

/-- The statuses of R56. -/
inductive Status where
  | ok
  | noHandler
  | tableFull
  | illegal
  deriving DecidableEq, Repr

/-- A response `(status, data)` to F (R56). -/
structure Response where
  status : Status
  data : List Byte
  deriving DecidableEq, Repr

/-- A call the block makes on the Port Adapter (60_exceptions.md R107). -/
inductive PortCall where
  /-- `write_data_register(b)`, only inside TXR. -/
  | writeData (b : Byte)
  /-- `set_baud(r)`, only inside SETUP. -/
  | setBaud (rate : BitVec 32)
  /-- `set_frame(c, s, p)`, only inside SETUP. -/
  | setFrame (charSize stopBits parity : Byte)
  /-- `enable()`, only inside SETUP. -/
  | enable
  deriving DecidableEq, Repr

/-- One entry of the schedule (20_memory.md R42, R43): a move of F, or P presenting the event word `w`. -/
inductive Turn where
  | foreground
  | event (w : Word)
  deriving DecidableEq, Repr

/-- The state of the block and of what its two agents are about to present. -/
structure State where
  /-- The build parameters (00_scope.md R7); no step writes them (assumption log 5). -/
  cfg : Config
  rx : Ring
  tx : Ring
  /-- `RXIE` (R19). -/
  rxie : Bool
  /-- `TXIE` (R19). -/
  txie : Bool
  /-- The registered entries, in registration order: slots 0 .. n_ent-1 (R22). -/
  table : List Entry
  /-- `TRIG` (R23). -/
  trig : BitVec 32
  /-- `held`: the command F has presented that has not responded (R30). -/
  held : Option Instr
  /-- The model's own: the bytes F presents next on the command port (assumption log 2). -/
  cmdIn : List Byte
  /-- The model's own: who moves next (assumption log 1). -/
  turns : List Turn
  /-- The model's own: the responses given to F so far, oldest first (assumption log 11). -/
  responses : List Response
  /-- The model's own: the calls made on the Port Adapter so far, oldest first (assumption log 11). -/
  portOut : List PortCall
  deriving DecidableEq, Repr

/-- Why the machine stops. -/
inductive Fault where
  /-- A pop or a peek reached a ring cell that no push has written (R33, 92_eei_decisions.md D36): raised by RECVB,
  RECVNB, PEEKB, PEEKNB, PEEKN and TXR. Safe: no reachable state raises it. -/
  | unwrittenCell (index : Nat)
  deriving DecidableEq, Repr

/-- Why a run lies outside the spec (70_reset_and_hazards.md R123). -/
inductive Refusal where
  /-- An instruction without a meaning, by its mnemonic. No arm raises it. Safe. -/
  | notModelled (mnemonic : String)
  /-- P presented a unit that is neither RXC nor TXR (R55, R79, R97); raised by the event port. Safe. -/
  | notAnEvent (w : Word)
  /-- P presented an event whose enable is 0 (41_port_events.md R77; 93 U18); raised by the event port. Safe. -/
  | eventNotEnabled (w : Word)
  /-- F presented a word without its complete payload, or half a word (R123); raised by the command port. Safe. -/
  | incompleteUnit
  deriving DecidableEq, Repr

/-- What a turn comes to: a command or event to run in a state, or an answer of its own. -/
inductive Fetch where
  | run (i : Instr) (s : State)
  | answer (o : Host.Outcome State Fault Refusal)

/-- An empty ring at reset (R32): indices and count 0, no cell written. -/
def Ring.empty : Ring := { buf := [], inIdx := 0, outIdx := 0, count := 0 }

/-- The reset state of a block built with `cfg` (R32, R108), with nothing presented to it. -/
def State.resetWith (cfg : Config) : State where
  cfg := cfg
  rx := Ring.empty
  tx := Ring.empty
  rxie := false
  txie := false
  table := []
  trig := 0
  held := none
  cmdIn := []
  turns := []
  responses := []
  portOut := []

/-- The reset state at the spec's test defaults (R7, R32; assumption log 5). -/
def State.reset : State := State.resetWith Config.testDefault

end Sys2Proof.Machine
end

