-- ==== Sys2Proof/Machine/Flags.lean ====
section
/-!
DEFINITION. The control and trigger bits: the CTRL byte (R19), TXIE after a TX pop (R20, R80), and the operations on the
trigger bitmask TRIG (R23, R84, R85, R88, R90).
-/
namespace Sys2Proof.Machine

/-- The CTRL byte (R19): bit 0 RXIE, bit 1 TXIE, the rest 0. -/
def ctrlByte (rxie txie : Bool) : Byte := BitVec.ofNat 8 ((if rxie then 1 else 0) + (if txie then 2 else 0))

/-- TXIE after TXR, from TXIE before it and the TX count it leaves (R20, R80). -/
def txieAfterTxr (txie : Bool) (count : Nat) : Bool := if count = 0 then false else txie

/-- The `n`-bit mask whose bit k is `f k`. -/
def maskOfBits (f : Nat → Bool) : (n : Nat) → BitVec n
  | 0 => 0
  | n + 1 => BitVec.cons (f n) (maskOfBits f n)

/-- The value of TRIG whose bit k is `f k`. -/
def trigOfBits (f : Nat → Bool) : BitVec 32 := maskOfBits f 32

/-- `TRIG[k] <- 0`. -/
def clearTrig (t : BitVec 32) (k : Nat) : BitVec 32 := trigOfBits fun j => t.getLsbD j && decide (j ≠ k)

/-- `TRIG[k] <- 1` for every k with `f k`; a bit already 1 stays 1 (R84). -/
def raiseTrig (t : BitVec 32) (f : Nat → Bool) : BitVec 32 := trigOfBits fun j => t.getLsbD j || f j

/-- `compact_trig(k)` with `n` the old `n_ent` (R88). -/
def compactTrig (mode : TrigCompaction) (k n : Nat) (t : BitVec 32) : BitVec 32 :=
  match mode with
  | .stayByPosition => t
  | .shiftWithEntries => trigOfBits fun j =>
      if j < k then t.getLsbD j
      else if j + 1 < n then t.getLsbD (j + 1)
      else if j + 1 = n then false
      else t.getLsbD j

end Sys2Proof.Machine
end

