-- ==== Sys2Proof/WellFormed.lean ====
section
/-!
DEFINITION. Which instruction terms an encoding exists for: the ranges of the immediate operands of 30_encoding.md R52.
-/
namespace Sys2Proof

/-- The operand ranges of R52: `n12` of PEEKN is 0..4095, the pattern length L of MREG and MDEREG is 0..255, the table
position of MTRIG and MCLR is 0..255. Every other operand fills its field. -/
def Instr.wellFormed : Instr → Bool
  | .peekn n => decide (n ≤ 4095)
  | .mreg _ _ p => decide (p.length ≤ 255)
  | .mdereg p => decide (p.length ≤ 255)
  | .mtrig i => decide (i ≤ 255)
  | .mclr i => decide (i ≤ 255)
  | .sendb _ => true
  | .sendnb _ => true
  | .recvb => true
  | .recvnb => true
  | .peekb => true
  | .peeknb => true
  | .flushrx => true
  | .flushtx => true
  | .setup _ _ _ _ => true
  | .stat => true
  | .rxc _ => true
  | .txr => true

end Sys2Proof
end

