-- ==== Sys2Proof/Decode.lean ====
section
/-!
DEFINITION. The decoder and the encoder of 30_encoding.md: fields R50, payloads R53, opcode map R57, decode algorithm
R58, illegal words R59, assembler words R61. Units travel as bytes, low byte of W first (R49).
-/
namespace Sys2Proof

/-- The two ports of the block (00_scope.md R1, 30_encoding.md R55). -/
inductive Port where
  | command
  | event
  deriving DecidableEq, Repr

/-- The operation `k` that the decode algorithm of R58 selects, before any payload is read. -/
inductive Opcode where
  | sendb | sendnb | recvb | recvnb | peekb | peeknb | peekn | flushrx | flushtx
  | setup | mreg | mdereg | mtrig | mclr | stat | rxc | txr
  deriving DecidableEq, Repr

/-- The verdict on a word (R58): an operation, ILLEGAL, or the event port's refusal. -/
inductive Verdict where
  | legal (k : Opcode)
  | illegal
  | refuse
  deriving DecidableEq, Repr

/-- What a port finds at the head of the bytes presented to it. -/
inductive Decoded where
  /-- A whole unit, and the bytes after it. -/
  | unit (i : Instr) (rest : List Byte)
  /-- An illegal command word: two bytes taken, no payload (R59, R97). -/
  | illegal (rest : List Byte)
  /-- A unit the event port does not take (R55, R79). -/
  | refused
  /-- The word, or the payload its word announces, is not all there. -/
  | incomplete
  /-- Nothing is presented. -/
  | nothing
  deriving DecidableEq, Repr

/-! ## Fields (R50) and byte order (R49, R37) -/

/-- `op = W[15:12]`. -/
def opField (w : Word) : BitVec 4 := w.extractLsb' 12 4
/-- `sub = W[11:8]`. -/
def subField (w : Word) : BitVec 4 := w.extractLsb' 8 4
/-- `imm8 = W[7:0]`. -/
def immField (w : Word) : Byte := w.extractLsb' 0 8
/-- `n12 = W[11:0]`. -/
def n12Field (w : Word) : BitVec 12 := w.extractLsb' 0 12

/-- A word as two bytes, the least significant first (R37, R49). -/
def wordBytes (w : Word) : List Byte := [w.extractLsb' 0 8, w.extractLsb' 8 8]

/-- A 32-bit value as four bytes, the least significant first (R37). -/
def dwordBytes (w : BitVec 32) : List Byte :=
  [w.extractLsb' 0 8, w.extractLsb' 8 8, w.extractLsb' 16 8, w.extractLsb' 24 8]

/-- The byte at offset `k` of a payload. -/
def byteAt (p : List Byte) (k : Nat) : Byte := p.getD k 0

/-- The little-endian 16-bit field at offset `k` of a payload (R37, R53). -/
def wordAt (p : List Byte) (k : Nat) : Word := byteAt p (k + 1) ++ byteAt p k

/-- The little-endian 32-bit field at offset `k` of a payload (R37, R53). -/
def dwordAt (p : List Byte) (k : Nat) : BitVec 32 := wordAt p (k + 2) ++ wordAt p k

/-! ## The decode algorithm (R58) -/

/-- Whether the operation is an event: RXC or TXR (R55). -/
def Opcode.isEvent : Opcode → Bool
  | .rxc => true
  | .txr => true
  | _ => false

/-- The case analysis of R58 on `op`, `sub` and `imm8`; `none` is its ILLEGAL. -/
def decodeOpcode (matchEnabled : Bool) (w : Word) : Option Opcode :=
  match (opField w).toNat with
  | 0x1 => if subField w = 0 then some .sendb else none
  | 0x2 => if subField w = 0 then some .sendnb else none
  | 0x3 => if n12Field w = 0 then some .recvb else none
  | 0x4 => if n12Field w = 0 then some .recvnb else none
  | 0x5 => if n12Field w = 0 then some .peekb else none
  | 0x6 => if n12Field w = 0 then some .peeknb else none
  | 0x7 => some .peekn
  | 0x8 => if n12Field w = 0 then some .flushrx else none
  | 0x9 => if n12Field w = 0 then some .flushtx else none
  | 0xA => if n12Field w = 0 then some .setup else none
  | 0xB => if subField w = 0 ∧ matchEnabled then some .mreg else none
  | 0xC => if subField w = 0 ∧ matchEnabled then some .mdereg else none
  | 0xD => if subField w = 0 ∧ matchEnabled then some .mtrig else none
  | 0xE => if subField w = 0 ∧ matchEnabled then some .mclr else none
  | 0xF =>
    if subField w = 0 ∧ immField w = 0 then some .stat
    else if subField w = 1 then some .rxc
    else if subField w = 2 ∧ immField w = 0 then some .txr
    else none
  | _ => none

/-- `decode(W, p)` of R58, its last three lines: an event word on the command port is illegal, anything but an event
word on the event port is refused. -/
def decodeWord (matchEnabled : Bool) (p : Port) (w : Word) : Verdict :=
  match p, decodeOpcode matchEnabled w with
  | .command, none => .illegal
  | .command, some k => if k.isEvent then .illegal else .legal k
  | .event, none => .refuse
  | .event, some k => if k.isEvent then .legal k else .refuse

/-- How many payload bytes follow `W` (R53). -/
def payloadLength (k : Opcode) (w : Word) : Nat :=
  match k with
  | .mreg => 4 + (immField w).toNat
  | .mdereg => (immField w).toNat
  | .setup => 7
  | _ => 0

/-- The instruction that operation `k`, its word and its payload stand for (R52, R53). -/
def assemble (k : Opcode) (w : Word) (p : List Byte) : Instr :=
  match k with
  | .sendb => .sendb (immField w)
  | .sendnb => .sendnb (immField w)
  | .recvb => .recvb
  | .recvnb => .recvnb
  | .peekb => .peekb
  | .peeknb => .peeknb
  | .peekn => .peekn (n12Field w).toNat
  | .flushrx => .flushrx
  | .flushtx => .flushtx
  | .setup => .setup (dwordAt p 0) (byteAt p 4) (byteAt p 5) (byteAt p 6)
  | .mreg => .mreg (wordAt p 0) (wordAt p 2) (p.drop 4)
  | .mdereg => .mdereg p
  | .mtrig => .mtrig (immField w).toNat
  | .mclr => .mclr (immField w).toNat
  | .stat => .stat
  | .rxc => .rxc (immField w)
  | .txr => .txr

/-- Read one unit from the bytes presented at a port (R48, R49, R58): total on any bytes. -/
def decode (matchEnabled : Bool) (p : Port) : List Byte → Decoded
  | [] => .nothing
  | [_] => .incomplete
  | lo :: hi :: tail =>
    match decodeWord matchEnabled p (hi ++ lo) with
    | .illegal => .illegal tail
    | .refuse => .refused
    | .legal k =>
      if tail.length < payloadLength k (hi ++ lo) then .incomplete
      else .unit (assemble k (hi ++ lo) (tail.take (payloadLength k (hi ++ lo))))
        (tail.drop (payloadLength k (hi ++ lo)))

/-! ## Columns of the opcode table -/

/-- The port an operation is accepted on (R55, R57). -/
def Instr.port : Instr → Port
  | .sendb _ => .command
  | .sendnb _ => .command
  | .recvb => .command
  | .recvnb => .command
  | .peekb => .command
  | .peeknb => .command
  | .peekn _ => .command
  | .flushrx => .command
  | .flushtx => .command
  | .setup _ _ _ _ => .command
  | .mreg _ _ _ => .command
  | .mdereg _ => .command
  | .mtrig _ => .command
  | .mclr _ => .command
  | .stat => .command
  | .rxc _ => .event
  | .txr => .event

/-- The holding commands (R54). -/
def Instr.holding : Instr → Bool
  | .sendb _ => true
  | .sendnb _ => false
  | .recvb => true
  | .recvnb => false
  | .peekb => true
  | .peeknb => false
  | .peekn _ => true
  | .flushrx => false
  | .flushtx => true
  | .setup _ _ _ _ => false
  | .mreg _ _ _ => false
  | .mdereg _ => false
  | .mtrig _ => false
  | .mclr _ => false
  | .stat => false
  | .rxc _ => false
  | .txr => false

/-- The commands that exist only when MATCH_ENABLED is true (R8, R59). -/
def Instr.usesMatch : Instr → Bool
  | .sendb _ => false
  | .sendnb _ => false
  | .recvb => false
  | .recvnb => false
  | .peekb => false
  | .peeknb => false
  | .peekn _ => false
  | .flushrx => false
  | .flushtx => false
  | .setup _ _ _ _ => false
  | .mreg _ _ _ => true
  | .mdereg _ => true
  | .mtrig _ => true
  | .mclr _ => true
  | .stat => false
  | .rxc _ => false
  | .txr => false

/-! ## The encoder (R61, R53) -/

/-- The word of an instruction, as the assembler table of R61 adds it up. -/
def encodeWord : Instr → Word
  | .sendb b => BitVec.ofNat 16 (0x1000 + b.toNat)
  | .sendnb b => BitVec.ofNat 16 (0x2000 + b.toNat)
  | .recvb => 0x3000
  | .recvnb => 0x4000
  | .peekb => 0x5000
  | .peeknb => 0x6000
  | .peekn n => BitVec.ofNat 16 (0x7000 + n)
  | .flushrx => 0x8000
  | .flushtx => 0x9000
  | .setup _ _ _ _ => 0xA000
  | .mreg _ _ p => BitVec.ofNat 16 (0xB000 + p.length)
  | .mdereg p => BitVec.ofNat 16 (0xC000 + p.length)
  | .mtrig i => BitVec.ofNat 16 (0xD000 + i)
  | .mclr i => BitVec.ofNat 16 (0xE000 + i)
  | .stat => 0xF000
  | .rxc b => BitVec.ofNat 16 (0xF100 + b.toNat)
  | .txr => 0xF200

/-- The payload bytes of an instruction, in the order of R53. -/
def encodePayload : Instr → List Byte
  | .sendb _ => []
  | .sendnb _ => []
  | .recvb => []
  | .recvnb => []
  | .peekb => []
  | .peeknb => []
  | .peekn _ => []
  | .flushrx => []
  | .flushtx => []
  | .setup r c s p => dwordBytes r ++ [c, s, p]
  | .mreg h c p => wordBytes h ++ wordBytes c ++ p
  | .mdereg p => p
  | .mtrig _ => []
  | .mclr _ => []
  | .stat => []
  | .rxc _ => []
  | .txr => []

/-- The bytes of a unit on a byte-wide port (R49). -/
def encode (i : Instr) : List Byte := wordBytes (encodeWord i) ++ encodePayload i

/-! ## The opcode table's words -/

/-- How many payload bytes the table word `w` announces at either port, with the match engine built in. -/
def tablePayloadLength (w : Word) : Nat :=
  match decodeOpcode true w with
  | some k => payloadLength k w
  | none => 0

/-- The bytes of the unit whose bits are `w`, numbered as the opcode table numbers them (bit 0 is the least significant
bit of W, payload bits count on from W's), bits at and above `nbits` zero: the word and the payload it announces. -/
def tableBytes (nbits w : Nat) : List Byte :=
  (List.range (2 + tablePayloadLength (BitVec.ofNat 16 (w % 2 ^ nbits)))).map
    fun k => BitVec.ofNat 8 (w % 2 ^ nbits / 256 ^ k)

/-- The port whose decoder takes the table word `w`: the event port for RXC and TXR, else the command port. -/
def tablePort (nbits w : Nat) : Port :=
  match decodeWord true .event (BitVec.ofNat 16 (w % 2 ^ nbits)) with
  | .legal _ => .event
  | _ => .command

/-- The instruction the decoder reads from the table word `w` at its port. -/
def decodeTableWord (nbits w : Nat) : Option Instr :=
  match decode true (tablePort nbits w) (tableBytes nbits w) with
  | .unit i _ => some i
  | _ => none

end Sys2Proof
end

