-- ==== Sys2Proof/Machine/Operands.lean ====
section
/-!
DEFINITION. Operand forms and response fields: the clamp of PEEKN (R74), the truncation of patterns (R85, R87), the
little-endian response fields (R37, R95) and the status codes (R56).
-/
namespace Sys2Proof.Machine

/-- `n' = min(n, RX.N)` of PEEKN (R74). -/
def peekCount (cfg : Config) (n : Nat) : Nat := min n cfg.rxSize

/-- The pattern as it is stored and compared: `take(MAX_SEQ_LEN, p)` (R85, R87). -/
def storedPattern (cfg : Config) (p : List Byte) : List Byte := p.take cfg.maxSeqLen

/-- `le16(v) = [v[7:0], v[15:8]]` of `zext_16(v)` (R95). -/
def le16 (v : Nat) : List Byte := wordBytes (BitVec.ofNat 16 v)

/-- `le32(v)` (R95). -/
def le32 (v : BitVec 32) : List Byte := dwordBytes v

/-- One bit as a response byte. -/
def bitByte (b : Bool) : Byte := if b then 1 else 0

/-- The status byte of a status (R56). -/
def Status.code : Status → Byte
  | .ok => 0x00
  | .noHandler => 0x01
  | .tableFull => 0x02
  | .illegal => 0xFF

end Sys2Proof.Machine
end

