-- ==== Sys2Proof/Machine/Ops.lean ====
section
/-!
DEFINITION. The named operations the meanings are written with: ring storage, the ring primitives of 40_ringbuffer.md
R63-R67, the match steps of 42_match.md R82-R86, the ways a command ends or waits (R54, R56, R97), and the gate of the event
port (R77). The block takes no exception (R96): event entry changes nothing beside the event's own transition (R101), and an
error is a response.
-/
namespace Sys2Proof.Machine

/-- What a command or an event answers. -/
abbrev Result := Host.Outcome State Fault Refusal

/-! ## Ring storage (R11, R36) -/

/-- The canonical form of a storage list: indices strictly rising. Every listed entry differs from what an unlisted index
reads as, since that is no value. -/
def Memory.wf : Memory → Bool
  | [] => true
  | [_] => true
  | c :: d :: m => decide (c.1 < d.1) && Memory.wf (d :: m)

/-- The byte at index `i`, or none where nothing has been written. -/
def Memory.read : Memory → Nat → Option Byte
  | [], _ => none
  | c :: m, i => if c.1 = i then some c.2 else Memory.read m i

/-- `MemWrite(R, i, 1, v)` (R11), keeping the canonical form. -/
def Memory.write : Memory → Nat → Byte → Memory
  | [], i, v => [(i, v)]
  | c :: m, i, v =>
    if i < c.1 then (i, v) :: c :: m
    else if c.1 = i then (i, v) :: m
    else c :: Memory.write m i v

/-- `MemRead(R, i, 1)` (R11): a cell nothing has written faults (R33). -/
def memRead (m : Memory) (i : Nat) : Except Fault Byte :=
  match m.read i with
  | some b => .ok b
  | none => .error (.unwrittenCell i)

/-! ## Ring primitives (R63-R67), with `N` the ring's capacity -/

/-- `adv(i, N)` (R39). -/
def advIdx (i N : Nat) : Nat := (i + 1) % N

/-- `push_try(R, b)` (R63): the ring after it, and whether it pushed. -/
def Ring.pushTry (r : Ring) (N : Nat) (b : Byte) : Ring × Bool :=
  if r.count = N then (r, false)
  else ({ r with buf := r.buf.write r.inIdx b, inIdx := advIdx r.inIdx N, count := r.count + 1 }, true)

/-- `push_overwrite(RX, b)` (R64). -/
def Ring.pushOverwrite (r : Ring) (N : Nat) (policy : RxOverflow) (b : Byte) : Ring :=
  if r.count < N then (r.pushTry N b).1
  else
    match policy with
    | .overwriteOldest =>
      { r with buf := r.buf.write r.inIdx b, inIdx := advIdx r.inIdx N, outIdx := advIdx r.outIdx N }
    | .overwriteAtIn => { r with buf := r.buf.write r.inIdx b, inIdx := advIdx r.inIdx N }

/-- `pop(R)` (R65): the ring after it, the byte, and whether it popped; `(0, false)` on an empty ring. -/
def Ring.pop (r : Ring) (N : Nat) : Except Fault (Ring × Byte × Bool) :=
  if r.count = 0 then .ok (r, 0, false)
  else
    match memRead r.buf r.outIdx with
    | .ok b => .ok ({ r with outIdx := advIdx r.outIdx N, count := r.count - 1 }, b, true)
    | .error f => .error f

/-- `peek_at(R, k)` (R66). -/
def Ring.peekAt (r : Ring) (N k : Nat) : Except Fault Byte := memRead r.buf ((r.outIdx + k) % N)

/-- `[peek_at(R, k), ..., peek_at(R, k + n - 1)]` (R74), one cell at a time (R36). -/
def Ring.peekRun (r : Ring) (N : Nat) : Nat → Nat → Except Fault (List Byte)
  | _, 0 => .ok []
  | k, n + 1 =>
    match r.peekAt N k with
    | .error f => .error f
    | .ok b =>
      match r.peekRun N (k + 1) n with
      | .error f => .error f
      | .ok bs => .ok (b :: bs)

/-- `reset(R)` (R67): the cells stay. -/
def Ring.reset (r : Ring) : Ring := { r with inIdx := 0, outIdx := 0, count := 0 }

/-! ## Match steps (R82-R86) -/

/-- `n_ent` (R22): the number of registered entries. -/
def State.nEnt (s : State) : Nat := s.table.length

/-- `advance_entry(e, b)` (R82): the new progress, and whether the entry fired. -/
def advanceEntry (e : Entry) (b : Byte) : Nat × Bool :=
  if e.pat[e.prog]? = some b then
    if e.prog + 1 = e.pat.length then (0, true) else (e.prog + 1, false)
  else if 0 < e.prog ∧ e.pat[0]? = some b then (1, false)
  else (0, false)

/-- One entry's step in `advance_all` (R84): a zero-length entry fires and keeps its progress (R83). -/
def entryStep (e : Entry) (b : Byte) : Nat × Bool :=
  if e.pat.length = 0 then (e.prog, true) else advanceEntry e b

/-- Whether the entry at position `k` fires on byte `b` (R84). -/
def firesAt (t : List Entry) (b : Byte) (k : Nat) : Bool :=
  match t[k]? with
  | some e => (entryStep e b).2
  | none => false

/-- Every entry after byte `b` (R84). -/
def advanceTable (t : List Entry) (b : Byte) : List Entry :=
  t.map fun e => { e with prog := (entryStep e b).1 }

/-- `advance_all(b)` (R84): all entries in parallel, in one transition. -/
def State.advanceAll (s : State) (b : Byte) : State :=
  { s with table := advanceTable s.table b, trig := raiseTrig s.trig (firesAt s.table b) }

/-- `find_entry(q)` (R86): the first position whose pattern has the length and the bytes of `q`. -/
def findEntry (t : List Entry) (q : List Byte) : Option Nat := t.findIdx? fun e => decide (e.pat = q)

/-! ## Writing one part of the state -/

/-- Write the RX ring. -/
def State.setRx (s : State) (r : Ring) : State := { s with rx := r }
/-- Write the TX ring. -/
def State.setTx (s : State) (r : Ring) : State := { s with tx := r }
/-- Write RXIE. -/
def State.setRxie (s : State) (v : Bool) : State := { s with rxie := v }
/-- Write TXIE. -/
def State.setTxie (s : State) (v : Bool) : State := { s with txie := v }
/-- Write the match table and TRIG. -/
def State.setMatch (s : State) (t : List Entry) (m : BitVec 32) : State := { s with table := t, trig := m }
/-- Call the Port Adapter (R107). -/
def State.callPort (s : State) (cs : List PortCall) : State := { s with portOut := s.portOut ++ cs }

/-! ## How a command ends -/

/-- `respond(status, data)` (R11, R56): the command is over, F gets one response. -/
def State.respond (s : State) (st : Status) (data : List Byte) : State :=
  { s with held := none, responses := s.responses ++ [{ status := st, data := data }] }

/-- `raise Illegal()` (R11, R97): the response ILLEGAL with no data, nothing else. -/
def State.respondIllegal (s : State) : State := s.respond .illegal []

/-- `hold until C` with C false (R54): the command stays held. -/
def State.hold (s : State) (i : Instr) : State := { s with held := some i }

/-- The condition `C` of a holding command (R68, R70, R72, R74, R76); true of every other instruction, which never waits. -/
def State.ready (s : State) : Instr → Bool
  | .sendb _ => decide (s.tx.count < s.cfg.txSize)
  | .recvb => decide (0 < s.rx.count)
  | .peekb => decide (0 < s.rx.count)
  | .peekn n => decide (peekCount s.cfg n ≤ s.rx.count)
  | .flushtx => decide (s.tx.count = 0)
  | _ => true

/-- `hold until C` before `effect` (R11, R54). -/
def State.holdUntil (s : State) (i : Instr) (effect : Result) : Result :=
  if s.ready i then effect else .next (s.hold i)

/-- The held command in a state in which its condition is true: it takes its effect now (R54). -/
def State.due (s : State) : Option Instr :=
  match s.held with
  | some i => if s.ready i then some i else none
  | none => none

/-! ## The event port's gate (R77) -/

/-- Whether the enable of an event is 1 (R77, R99). -/
def eventEnabled (s : State) : Instr → Bool
  | .rxc _ => s.rxie
  | .txr => s.txie
  | _ => false

end Sys2Proof.Machine
end

