-- ==== Sys2Proof/Machine/Control.lean ====
section
/-!
DEFINITION. Configuration and status: SETUP, STAT (43_config_status.md R94, R95).
-/
namespace Sys2Proof.Machine

/-- SETUP (R94): forward the configuration unchecked, RXIE <- 1. -/
def execSetup (rate : BitVec 32) (charSize stopBits parity : Byte) (s : State) : Result :=
  .next (((s.callPort [.setBaud rate, .setFrame charSize stopBits parity, .enable]).setRxie true).respond .ok [])

/-- The bytes STAT reports of one ring (R95). -/
def Ring.statBytes (r : Ring) : List Byte := le16 r.inIdx ++ le16 r.outIdx ++ le16 r.count

/-- The bytes STAT reports of the match engine: n_ent and TRIG, which read 0 with MATCH_ENABLED false (R95). -/
def State.matchStatBytes (s : State) : List Byte :=
  if s.cfg.matchEnabled then BitVec.ofNat 8 s.nEnt :: le32 s.trig else [0, 0, 0, 0, 0]

/-- The 18 bytes of STAT (R95). -/
def State.statBytes (s : State) : List Byte :=
  s.rx.statBytes ++ s.tx.statBytes ++ [ctrlByte s.rxie s.txie] ++ s.matchStatBytes

/-- STAT (R95): no state changes. -/
def execStat (s : State) : Result := .next (s.respond .ok s.statBytes)

end Sys2Proof.Machine
end

