-- ==== Sys2Proof/Machine/Events.lean ====
section
/-!
DEFINITION. The two events of P: TXR and RXC (41_port_events.md R80, R81). They never hold and give F no response. Their
gate (R77) is the event port's, in Machine/Fetch.lean.
-/
namespace Sys2Proof.Machine

/-- TXR (R80): write the oldest TX byte to the port; TXIE <- 0 when TX is empty. On an empty ring only TXIE <- 0. -/
def execTxr (s : State) : Result :=
  if s.tx.count = 0 then .next (s.setTxie false)
  else
    match s.tx.pop s.cfg.txSize with
    | .ok (r, b, _) => .next (((s.setTx r).callPort [.writeData b]).setTxie (txieAfterTxr s.txie r.count))
    | .error f => .fault f

/-- RXC (R81): the match engine sees the byte if it is built in, then the byte is pushed, overwriting on a full ring. -/
def execRxc (b : Byte) (s : State) : Result :=
  .next ((if s.cfg.matchEnabled then s.advanceAll b else s).setRx
    (s.rx.pushOverwrite s.cfg.rxSize s.cfg.rxOverflow b))

end Sys2Proof.Machine
end

