-- ==== Sys2Proof/Machine/Match.lean ====
section
/-!
DEFINITION. The match commands: MREG, MDEREG, MTRIG, MCLR (42_match.md R85, R87, R89, R90). With MATCH_ENABLED false
each is ILLEGAL (00_scope.md R8, 30_encoding.md R59); the decoder says so before a meaning is reached, and the meanings
answer the same (assumption log 13).
-/
namespace Sys2Proof.Machine

/-- MREG (R85): NOHANDLER before TABLEFULL (R98), else append the entry at position n_ent with progress 0. -/
def execMreg (handler ctx : Word) (pattern : List Byte) (s : State) : Result :=
  if s.cfg.matchEnabled = false then .next s.respondIllegal
  else if handler = 0 then .next (s.respond .noHandler [])
  else if s.nEnt = s.cfg.maxPatterns then .next (s.respond .tableFull [])
  else
    .next ((s.setMatch
      (s.table ++ [{ pat := storedPattern s.cfg pattern, prog := 0, handler := handler, ctx := ctx }])
      (clearTrig s.trig s.nEnt)).respond .ok [])

/-- MDEREG (R87): remove the first entry whose pattern is the truncated argument; an absent one is a no-op. -/
def execMdereg (pattern : List Byte) (s : State) : Result :=
  if s.cfg.matchEnabled = false then .next s.respondIllegal
  else
    match findEntry s.table (storedPattern s.cfg pattern) with
    | none => .next (s.respond .ok [])
    | some k =>
      .next ((s.setMatch (s.table.eraseIdx k)
        (compactTrig s.cfg.trigCompaction k s.nEnt s.trig)).respond .ok [])

/-- MTRIG (R89): validity, trigger bit, handler and context of position `i`; zeros at or above n_ent. -/
def execMtrig (i : Nat) (s : State) : Result :=
  if s.cfg.matchEnabled = false then .next s.respondIllegal
  else
    match s.table[i]? with
    | some e => .next (s.respond .ok ([1, bitByte (s.trig.getLsbD i)] ++ wordBytes e.handler ++ wordBytes e.ctx))
    | none => .next (s.respond .ok [0, 0, 0, 0, 0, 0])

/-- MCLR (R90): `TRIG[i] <- 0` for a position below MAX_PATTERNS. -/
def execMclr (i : Nat) (s : State) : Result :=
  if s.cfg.matchEnabled = false then .next s.respondIllegal
  else if i < s.cfg.maxPatterns then .next ((s.setMatch s.table (clearTrig s.trig i)).respond .ok [])
  else .next (s.respond .ok [])

end Sys2Proof.Machine
end

