-- ==== Sys2Proof/Machine/Receive.lean ====
section
/-!
DEFINITION. The commands on the RX ring: RECVB, RECVNB, PEEKB, PEEKNB, PEEKN, FLUSHRX (40_ringbuffer.md R70-R75).
-/
namespace Sys2Proof.Machine

/-- Pop RX and answer with the byte; on an empty ring the byte is the sentinel 0 and nothing moves (R65, R70, R71). -/
def State.receive (s : State) : Result :=
  match s.rx.pop s.cfg.rxSize with
  | .ok (r, b, _) => .next ((s.setRx r).respond .ok [b])
  | .error f => .fault f

/-- Answer with `n` peeked bytes (R66, R74). -/
def State.peek (s : State) (n : Nat) : Result :=
  match s.rx.peekRun s.cfg.rxSize 0 n with
  | .ok bs => .next (s.respond .ok bs)
  | .error f => .fault f

/-- RECVB (R70): hold until RX has a byte, then pop it. -/
def execRecvb (s : State) : Result := s.holdUntil .recvb s.receive

/-- RECVNB (R71): one pop attempt; the sentinel 0 on an empty ring. -/
def execRecvnb (s : State) : Result := s.receive

/-- PEEKB (R72): hold until RX has a byte, then read it without consuming it. -/
def execPeekb (s : State) : Result := s.holdUntil .peekb (s.peek 1)

/-- PEEKNB (R73): the byte at `out`, or the sentinel 0 on an empty ring. -/
def execPeeknb (s : State) : Result :=
  if s.rx.count = 0 then .next (s.respond .ok [0]) else s.peek 1

/-- PEEKN (R74): hold until RX has n' = min(n, RX.N) bytes, then read them all in one transition. -/
def execPeekn (n : Nat) (s : State) : Result := s.holdUntil (.peekn n) (s.peek (peekCount s.cfg n))

/-- FLUSHRX (R75): reset RX's indices; nothing else. -/
def execFlushrx (s : State) : Result := .next ((s.setRx s.rx.reset).respond .ok [])

end Sys2Proof.Machine
end

