-- ==== Sys2Proof/Machine/Transmit.lean ====
section
/-!
DEFINITION. The commands on the TX ring: SENDB, SENDNB, FLUSHTX (40_ringbuffer.md R68, R69, R76).
-/
namespace Sys2Proof.Machine

/-- SENDB (R68): hold until TX has a free cell, push, TXIE <- 1. -/
def execSendb (b : Byte) (s : State) : Result :=
  s.holdUntil (.sendb b) (.next (((s.setTx (s.tx.pushTry s.cfg.txSize b).1).setTxie true).respond .ok []))

/-- SENDNB (R69): one push attempt, its success in the data byte. -/
def execSendnb (b : Byte) (s : State) : Result :=
  if (s.tx.pushTry s.cfg.txSize b).2 then
    .next (((s.setTx (s.tx.pushTry s.cfg.txSize b).1).setTxie true).respond .ok [1])
  else .next (s.respond .ok [0])

/-- FLUSHTX (R76): hold until TX is drained, then reset its indices. -/
def execFlushtx (s : State) : Result :=
  s.holdUntil .flushtx (.next ((s.setTx s.tx.reset).respond .ok []))

end Sys2Proof.Machine
end

