-- ==== Sys2Proof/Machine/Dispatch.lean ====
section
/-!
DEFINITION. The meaning of every command and event: one arm per constructor of Instr.
-/
namespace Sys2Proof.Machine

/-- One atomic transition (00_scope.md R3): a command on the command port, or an event on the event port. -/
def exec (i : Instr) (s : State) : Host.Outcome State Fault Refusal :=
  match i with
  | .sendb b => Sys2Proof.Machine.execSendb b s
  | .sendnb b => Sys2Proof.Machine.execSendnb b s
  | .recvb => Sys2Proof.Machine.execRecvb s
  | .recvnb => Sys2Proof.Machine.execRecvnb s
  | .peekb => Sys2Proof.Machine.execPeekb s
  | .peeknb => Sys2Proof.Machine.execPeeknb s
  | .peekn n => Sys2Proof.Machine.execPeekn n s
  | .flushrx => Sys2Proof.Machine.execFlushrx s
  | .flushtx => Sys2Proof.Machine.execFlushtx s
  | .setup rate charSize stopBits parity => Sys2Proof.Machine.execSetup rate charSize stopBits parity s
  | .mreg handler ctx pattern => Sys2Proof.Machine.execMreg handler ctx pattern s
  | .mdereg pattern => Sys2Proof.Machine.execMdereg pattern s
  | .mtrig k => Sys2Proof.Machine.execMtrig k s
  | .mclr k => Sys2Proof.Machine.execMclr k s
  | .stat => Sys2Proof.Machine.execStat s
  | .rxc b => Sys2Proof.Machine.execRxc b s
  | .txr => Sys2Proof.Machine.execTxr s

end Sys2Proof.Machine
end

