-- ==== Sys2Proof/Machine/Fetch.lean ====
section
/-!
DEFINITION. What comes next on the block: the held command once its condition is true (30_encoding.md R54), else what the
next turn presents: F's next command unit (10_state.md R29, R30; R48, R97) or P's next event under its gate
(41_port_events.md R77, R79). And the placing of one unit where the next step takes it (assumption log 12).
-/
namespace Sys2Proof.Machine

/-- F's move. While a command is held F has no transition (R54). Otherwise F presents the unit at the head of `cmdIn`; an
illegal word is answered at once (R97), and with nothing presented the block idles (assumption log 3). -/
def fetchCommand (s : State) : Fetch :=
  match s.held with
  | some _ => .answer (.next s)
  | none =>
    match decode s.cfg.matchEnabled .command s.cmdIn with
    | .unit i rest => .run i { s with cmdIn := rest }
    | .illegal rest => .answer (.next { s with cmdIn := rest }.respondIllegal)
    | .incomplete => .answer (.refused .incompleteUnit)
    | .nothing => .answer (.next s)
    | .refused => .answer (.refused .incompleteUnit)

/-- P's move (R77, R79): an RXC or a TXR whose enable is 1 is delivered, anything else is refused. -/
def fetchEvent (w : Word) (s : State) : Fetch :=
  match decode s.cfg.matchEnabled .event (wordBytes w) with
  | .unit i _ => if eventEnabled s i then .run i s else .answer (.refused (.eventNotEnabled w))
  | .illegal _ => .answer (.refused (.notAnEvent w))
  | .incomplete => .answer (.refused (.notAnEvent w))
  | .nothing => .answer (.refused (.notAnEvent w))
  | .refused => .answer (.refused (.notAnEvent w))

/-- The next transition (20_memory.md R42, R43): in a state in which the held command's condition is true, that command,
before any turn (R54; assumption log 4); else the next turn of the schedule; with none left the block idles (assumption
log 3). -/
def fetch (s : State) : Fetch :=
  match s.due with
  | some i => .run i s
  | none =>
    match s.turns with
    | [] => .answer (.next s)
    | .foreground :: ts => fetchCommand { s with turns := ts }
    | .event w :: ts => fetchEvent w { s with turns := ts }

/-- `s` with no held command about to take its effect. -/
def State.withoutDue (s : State) : State := { s with held := if s.due.isSome then none else s.held }

/-- Present the table word `w` so that the next step runs it: an event word as P's next turn with its enable raised (its
delivery is gated, R77) and no held command due before it, any other word with the payload it announces as F's next unit, on
F's next turn, with no command held (assumption log 12). -/
def State.present (s : State) (nbits w : Nat) : State :=
  match tablePort nbits w, decodeOpcode true (BitVec.ofNat 16 (w % 2 ^ nbits)) with
  | .event, some .rxc =>
    { s.withoutDue with turns := .event (BitVec.ofNat 16 (w % 2 ^ nbits)) :: s.turns, rxie := true }
  | .event, _ =>
    { s.withoutDue with turns := .event (BitVec.ofNat 16 (w % 2 ^ nbits)) :: s.turns, txie := true }
  | .command, _ => { s with turns := .foreground :: s.turns, held := none, cmdIn := tableBytes nbits w ++ s.cmdIn }

end Sys2Proof.Machine
end

