-- ==== Sys2Proof/Machine/Step.lean ====
section
/-!
DEFINITION. One step of the block: its next transition.
-/
namespace Sys2Proof.Machine

/-- One transition (20_memory.md R42): the held command that is due, or what the next turn presents, is run, or answered by
the port itself. -/
def step (s : State) : Host.Outcome State Fault Refusal :=
  match fetch s with
  | .run i s' => exec i s'
  | .answer o => o

/-- `s` with the unit whose bits are `w` presented as its next turn (assumption log 12). -/
def State.withFetchWord (s : State) (nbits w : Nat) : State := s.present nbits w

end Sys2Proof.Machine
end

