-- ==== Sys2Proof/Machine/Foreground.lean ====
section
/-!
DEFINITION. F's pseudo-instructions: sequences of commands (30_encoding.md R62), and the dispatch sweep SWEEP, a loop of
F's own program over MTRIG and MCLR (42_match.md R91, R93). NEWLINE_SEQ, CLS_SEQ, FMT_INT and FMT_FLOAT are parameters
without a default (00_scope.md R7): arguments here (assumption log 14). F's place in the loop is F's variable, not state
of the block (R93), so it stands beside State, not in it (assumption log 15).
-/
namespace Sys2Proof.Machine

/-! ## Expansions (R62) -/

/-- `SENDN l`. -/
def sendN (l : List Byte) : List Instr := l.map .sendb

/-- `SENDN_P l`: as SENDN, `l` from F's read-only storage. -/
def sendNP (l : List Byte) : List Instr := sendN l

/-- `RECVN n`: no clamp. -/
def recvN (n : Nat) : List Instr := List.replicate n .recvb

/-- `SEND_NEWLINE`. -/
def sendNewline (newlineSeq : List Byte) : List Instr := sendN newlineSeq

/-- `SEND_CLS`. -/
def sendCls (clsSeq : List Byte) : List Instr := sendN clsSeq

/-- `SEND_INT v`. -/
def sendInt {α : Type} (fmtInt : α → List Byte) (v : α) : List Instr := sendN (fmtInt v)

/-- `SEND_FLOAT v, d`: the digit count is capped at 4. -/
def sendFloat {α : Type} (fmtFloat : α → Nat → List Byte) (v : α) (d : Nat) : List Instr := sendN (fmtFloat v (min d 4))

/-- F issues commands one after another with no event between them; it stops at a fault or a refusal. A command that
holds leaves the block held (R54), and F issues no later one (R29). -/
def issueAll : List Instr → State → Result
  | [], s => .next s
  | i :: is, s =>
    match s.held with
    | some _ => .next s
    | none =>
      match exec i s with
      | .next t => issueAll is t
      | .fault f => .fault f
      | .refused r => .refused r

/-! ## One transition at a time -/

/-- The held command takes its effect if its condition is true (R54); nothing happens otherwise. -/
def State.settle (s : State) : Result :=
  match s.due with
  | some i => exec i s
  | none => .next s

/-- One step of the block on the turn `t`, F presenting the first unit of `bytes` if the turn is its own: the block, and the
bytes it has not taken. What F and P have yet to present otherwise stays as it was. -/
def State.takeTurn (s : State) (t : Turn) (bytes : List Byte) : Host.Outcome (State × List Byte) Fault Refusal :=
  match step { s with turns := [t], cmdIn := bytes } with
  | .next u => .next ({ u with turns := s.turns, cmdIn := s.cmdIn }, u.cmdIn)
  | .fault f => .fault f
  | .refused r => .refused r

/-! ## Handlers (R104; 93_implementation_defined.md U16) -/

/-- What the code of a match handler does next. -/
inductive HandlerMove where
  /-- It presents the command units in `bytes`, of any commands, holding ones included: one unit a move, the next after the
  response to the one before (R123). It does not go on before all of them have been taken. -/
  | present (bytes : List Byte)
  /-- It goes on without a command. A handler that answers so for ever never returns. -/
  | think
  /-- It returns. -/
  | ret
  deriving DecidableEq, Repr

/-- The handlers' code, opaque to the block: what handler `handler` called with context `ctx` does next, from the responses F
got before the call and those since. -/
abbrev Handlers := (handler ctx : Word) → (before since : List Response) → HandlerMove

/-- Handlers that issue no command and return. -/
def quietHandlers : Handlers := fun _ _ _ _ => .ret

/-! ## SWEEP (R93) -/

/-- Where F stands in SWEEP's loop; `i` is the loop's variable. -/
inductive SweepPoint where
  /-- F is about to issue `MTRIG i`. -/
  | test (i : Nat)
  /-- F is running the handler of the entry at `i`, called after `start` responses. -/
  | call (i : Nat) (handler ctx : Word) (start : Nat)
  /-- The handler has returned; F is about to issue `MCLR i`. -/
  | clear (i : Nat)
  /-- The loop has ended. -/
  | done
  deriving DecidableEq, Repr

/-- F in a sweep: the block, the place in the loop, the bytes a handler has yet to present, next byte first, and the calls
made so far, oldest first. -/
structure Sweep where
  block : State
  point : SweepPoint
  pending : List Byte
  calls : List (Word × Word)
  deriving DecidableEq, Repr

/-- The data of the last response. -/
def State.lastData (s : State) : List Byte :=
  match s.responses.getLast? with
  | some r => r.data
  | none => []

/-- What F does with the answer `[v, t, h0, h1, c0, c1]` of `MTRIG i` (R93), `start` responses given so far. An answer that
is not six bytes comes only from a block with MATCH_ENABLED false: ILLEGAL with no data. The spec does not say what the loop
then does. DESIGN CHOICE: it ends (assumption log 17). -/
def SweepPoint.afterTest (i start : Nat) : List Byte → SweepPoint
  | [v, t, h0, h1, c0, c1] =>
    if v = 0 then .done
    else if t = 1 then .call i (h1 ++ h0) (c1 ++ c0) start
    else .test (i + 1)
  | _ => .done

/-- The calls that arriving at a point makes. -/
def SweepPoint.calling : SweepPoint → List (Word × Word)
  | .call _ h c _ => [(h, c)]
  | .test _ => []
  | .clear _ => []
  | .done => []

/-- The sweep with F at `p`. -/
def Sweep.goTo (x : Sweep) (p : SweepPoint) : Sweep := { x with point := p, calls := x.calls ++ p.calling }

/-- Carry on from a next state. -/
def Sweep.andThen {α : Type} (r : Host.Outcome α Fault Refusal) (k : α → Host.Outcome Sweep Fault Refusal) :
    Host.Outcome Sweep Fault Refusal :=
  match r with
  | .next a => k a
  | .fault f => .fault f
  | .refused e => .refused e

/-- The turn `t` in a sweep, F presenting the first unit of `bytes` if the turn is its own: the bytes not taken are next. -/
def Sweep.takeTurn (x : Sweep) (t : Turn) (bytes : List Byte) : Host.Outcome Sweep Fault Refusal :=
  Sweep.andThen (x.block.takeTurn t bytes) fun r => .next { x with block := r.1, pending := r.2 }

/-- One move of F inside SWEEP (R93). While a command is held F has no transition, so a handler that holds holds the sweep
(R54, R115). A handler runs until it returns, one command unit a move (R104, R123, 92_eei_decisions.md D44). -/
def Sweep.advance (handlers : Handlers) (x : Sweep) : Host.Outcome Sweep Fault Refusal :=
  match x.block.held, x.pending with
  | some _, _ => .next x
  | none, b :: bs => x.takeTurn .foreground (b :: bs)
  | none, [] =>
    match x.point with
    | .test i =>
      Sweep.andThen (x.takeTurn .foreground (encode (.mtrig i))) fun y =>
        .next (y.goTo (SweepPoint.afterTest i y.block.responses.length y.block.lastData))
    | .call i h c start =>
      match handlers h c (x.block.responses.take start) (x.block.responses.drop start) with
      | .present bytes => x.takeTurn .foreground bytes
      | .think => .next x
      | .ret => .next (x.goTo (.clear i))
    | .clear i => Sweep.andThen (x.takeTurn .foreground (encode (.mclr i))) fun y => .next (y.goTo (.test (i + 1)))
    | .done => .next x

/-- One turn of a sweep: the held command first if its condition is true (R54), then F's move or P's event (20_memory.md
R43). -/
def Sweep.turn (handlers : Handlers) (t : Turn) (x : Sweep) : Host.Outcome Sweep Fault Refusal :=
  Sweep.andThen x.block.settle fun b =>
    match t with
    | .foreground => Sweep.advance handlers { x with block := b }
    | .event w => Sweep.takeTurn { x with block := b } (.event w) x.pending

/-- SWEEP under a schedule: F's moves and P's events in the order given. -/
def Sweep.run (handlers : Handlers) : List Turn → Sweep → Host.Outcome Sweep Fault Refusal
  | [], x => .next x
  | t :: ts, x =>
    match x.turn handlers t with
    | .next y => Sweep.run handlers ts y
    | .fault f => .fault f
    | .refused r => .refused r

/-- A sweep about to begin on a block. -/
def Sweep.start (s : State) : Sweep := { block := s, point := .test 0, pending := [], calls := [] }

end Sys2Proof.Machine
end

