-- ==== Sys2Proof/Safety.lean ====
section
/-!
DEFINITION. The terms claims use: what a ring holds, the invariant of the block (10_state.md R16, R18, R22-R27, R33), the
reachable states, executions under a schedule, and the optional fairness of 70_reset_and_hazards.md R112.
-/
namespace Sys2Proof.Machine

/-! ## What a ring holds -/

/-- The bytes of a ring, oldest first: `count` cells from `out` on, modulo N (R16, R66). -/
def Ring.contents (r : Ring) (N : Nat) : List (Option Byte) :=
  (List.range r.count).map fun k => r.buf.read ((r.outIdx + k) % N)

/-- Index coherence (R18): `in = (out + count) mod N`. -/
def Ring.Coherent (r : Ring) (N : Nat) : Prop := r.inIdx = (r.outIdx + r.count) % N

/-- Every cell of the ring has been written (R33). -/
def Ring.AllWritten (r : Ring) (N : Nat) : Prop := ∀ k, k < N → (r.buf.read k).isSome = true

/-- `r'` is `r` after `b` was pushed at `in` (R63): `in` and `count` advance, `out` stays, one cell is written. -/
structure Ring.Pushed (r : Ring) (N : Nat) (b : Byte) (r' : Ring) : Prop where
  inIdx : r'.inIdx = (r.inIdx + 1) % N
  outIdx : r'.outIdx = r.outIdx
  count : r'.count = r.count + 1
  cell : r'.buf.read r.inIdx = some b
  others : ∀ k, k ≠ r.inIdx → r'.buf.read k = r.buf.read k

/-- `r'` is `r` after one byte was popped (R65): `out` and `count` move, `in` and the cells stay. -/
structure Ring.Popped (r : Ring) (N : Nat) (r' : Ring) : Prop where
  inIdx : r'.inIdx = r.inIdx
  outIdx : r'.outIdx = (r.outIdx + 1) % N
  count : r'.count + 1 = r.count
  cells : ∀ k, r'.buf.read k = r.buf.read k

/-- What holds of one ring of capacity N in every reachable state (R13, R16, R33). -/
structure Ring.Inv (r : Ring) (N : Nat) : Prop where
  /-- The storage list keeps its canonical form. -/
  wf : r.buf.wf = true
  /-- Only cells 0 .. N-1 exist (R13). -/
  inRange : ∀ k, (r.buf.read k).isSome = true → k < N
  inLt : r.inIdx < N
  outLt : r.outIdx < N
  /-- `count ≤ N` (R16). -/
  countLe : r.count ≤ N
  /-- The cells from `out` on, `count` of them, have been written (R33). -/
  written : ∀ k, k < r.count → (r.buf.read ((r.outIdx + k) % N)).isSome = true

/-- What holds of a registered entry (R21, R24, R85). -/
structure Entry.Inv (e : Entry) (maxSeqLen : Nat) : Prop where
  lenLe : e.pat.length ≤ maxSeqLen
  progLt : 0 < e.pat.length → e.prog < e.pat.length
  progZero : e.pat.length = 0 → e.prog = 0
  /-- An absent handler is never registered (R85). -/
  handlerPresent : e.handler ≠ 0

/-- The invariant of the block. -/
structure State.Inv (s : State) : Prop where
  cfgLegal : s.cfg.legal = true
  rxInv : s.rx.Inv s.cfg.rxSize
  txInv : s.tx.Inv s.cfg.txSize
  /-- R18 for TX. -/
  txCoherent : s.tx.Coherent s.cfg.txSize
  /-- R18 for RX: coherent, or, under OVERWRITE_AT_IN only, a ring whose every cell has been written (R33). -/
  rxCoherent : s.rx.Coherent s.cfg.rxSize ∨
    (s.cfg.rxOverflow = .overwriteAtIn ∧ s.rx.AllWritten s.cfg.rxSize)
  /-- R27. -/
  txieIff : s.txie = true ↔ 0 < s.tx.count
  /-- R22. -/
  tableLe : s.nEnt ≤ s.cfg.maxPatterns
  entries : ∀ e ∈ s.table, e.Inv s.cfg.maxSeqLen
  /-- R23. -/
  trigHigh : ∀ k, s.cfg.maxPatterns ≤ k → s.trig.getLsbD k = false
  /-- R25. -/
  trigShift : s.cfg.trigCompaction = .shiftWithEntries → ∀ k, s.nEnt ≤ k → s.trig.getLsbD k = false
  /-- R8: without the match engine there is no table. -/
  matchOff : s.cfg.matchEnabled = false → s.table = [] ∧ s.trig = 0
  /-- R30, R54: only a holding command is ever held. -/
  heldHolds : ∀ i, s.held = some i → i.holding = true ∧ i.wellFormed = true
  /-- R111. -/
  rxQuiet : s.rxie = false → s.rx.count = 0

/-! ## Runs -/

/-- F and P present more: command bytes and turns after those already there. -/
def State.supply (s : State) (bytes : List Byte) (ts : List Turn) : State :=
  { s with cmdIn := s.cmdIn ++ bytes, turns := s.turns ++ ts }

/-- The states a block of any legal configuration can come to from reset, whatever its agents present and in whatever
order. -/
inductive Reachable : State → Prop where
  | reset (cfg : Config) (legal : cfg.legal = true) : Reachable (State.resetWith cfg)
  | supply (s : State) (bytes : List Byte) (ts : List Turn) (h : Reachable s) : Reachable (s.supply bytes ts)
  | step (s t : State) (h : Reachable s) (next : Sys2Proof.Machine.step s = .next t) : Reachable t

/-- The duty of the agent whose turn is next (70_reset_and_hazards.md R123): P presents an RXC while RXIE = 1 or a TXR while
TXIE = 1, F presents whole units. In a state in which a held command takes its effect no agent moves. -/
def State.dutiful (s : State) : Prop :=
  s.due = none →
    match s.turns with
    | [] => True
    | .foreground :: _ => s.held = none → decode s.cfg.matchEnabled .command s.cmdIn ≠ .incomplete
    | .event w :: _ => (w.toNat / 256 = 0xF1 ∧ s.rxie = true) ∨ (w.toNat = 0xF200 ∧ s.txie = true)

/-- An infinite execution: with turn `σ n` offered, one step takes state `run n` to `run (n + 1)`. -/
def Execution (σ : Nat → Turn) (run : Nat → State) : Prop :=
  ∀ n, step { run n with turns := [σ n] } = .next (run (n + 1))

/-- The event word of TXR (R57). -/
def txrTurn : Turn := .event 0xF200

/-- TXR is delivered in step `n`: its turn is offered and no held command takes the step. -/
def TxrDelivered (σ : Nat → Turn) (run : Nat → State) (n : Nat) : Prop := σ n = txrTurn ∧ (run n).due = none

/-- The optional weak fairness of TXR (R112): if TXIE stays 1 from some point on, TXR is delivered infinitely often. -/
def FairTxr (σ : Nat → Turn) (run : Nat → State) : Prop :=
  (∃ m, ∀ n, m ≤ n → (run n).txie = true) → ∀ m, ∃ n, m ≤ n ∧ TxrDelivered σ run n

/-! ## Outputs -/

/-- The bytes written to the data register so far, in order (60_exceptions.md R107). -/
def State.sentBytes (s : State) : List (Option Byte) :=
  s.portOut.filterMap fun c =>
    match c with
    | .writeData b => some (some b)
    | _ => none

/-- The bytes an entry sees one after another: the entry after them, and whether it fired on the last one (R82). -/
def feedEntry : List Byte → Entry → Entry × Bool
  | [], e => (e, false)
  | [b], e => ({ e with prog := (entryStep e b).1 }, (entryStep e b).2)
  | b :: bs, e => feedEntry bs { e with prog := (entryStep e b).1 }

end Sys2Proof.Machine
end

