-- ==== Sys2Proof/Certificates/Slice0/Obligations.lean ====
section
/-!
DEFINITION. The statements about the block, each from the numbered rules of spec/. `exec` runs one command or event, `step`
runs the next turn; both are functions of a state, so a statement over every state covers every schedule of F and P.
A record update such as `{ s with tx := r, txie := true }` states the frame: every other field of the state is unchanged.
-/
open Sys2Proof Sys2Proof.Machine

/-! ## Encoding -/

/-- R61, R53, R58: the decoder reads back every well-formed instruction from its own encoding, operands whole, at its own
port, and leaves the bytes after it; the match commands need the match engine built in (R59). -/
def Obligations.DecodeOfEncodeIsIdentity : Prop :=
  ∀ (matchEnabled : Bool) (i : Instr) (rest : List Byte), i.wellFormed = true →
    (i.usesMatch = true → matchEnabled = true) →
    decode matchEnabled i.port (encode i ++ rest) = .unit i rest

/-- R57, R59: an encoding means one thing. What the decoder takes is well-formed, belongs to the port, and the bytes it took
are that instruction's encoding. -/
def Obligations.EncodeOfDecodeIsIdentity : Prop :=
  ∀ (matchEnabled : Bool) (p : Port) (bytes : List Byte) (i : Instr) (rest : List Byte),
    decode matchEnabled p bytes = .unit i rest →
    i.wellFormed = true ∧ i.port = p ∧ (i.usesMatch = true → matchEnabled = true) ∧ encode i ++ rest = bytes

/-- R59: a command word is illegal exactly when one of the six conditions holds, and then its two bytes are all that is
taken. -/
def Obligations.IllegalCommandWordsAreTheListedOnes : Prop :=
  ∀ (matchEnabled : Bool) (w : Word) (rest : List Byte),
    decode matchEnabled .command (wordBytes w ++ rest) = .illegal rest ↔
      w.toNat / 4096 = 0x0 ∨
      (w.toNat / 4096 ∈ [0x1, 0x2, 0xB, 0xC, 0xD, 0xE] ∧ w.toNat / 256 % 16 ≠ 0) ∨
      (w.toNat / 4096 ∈ [0x3, 0x4, 0x5, 0x6, 0x8, 0x9, 0xA] ∧ w.toNat % 4096 ≠ 0) ∨
      (w.toNat / 4096 = 0xF ∧ 3 ≤ w.toNat / 256 % 16) ∨
      (w.toNat / 4096 = 0xF ∧ w.toNat / 256 % 16 ∈ [0, 2] ∧ w.toNat % 256 ≠ 0) ∨
      (w.toNat / 256 = 0xF1 ∨ w.toNat = 0xF200) ∨
      (w.toNat / 4096 ∈ [0xB, 0xC, 0xD, 0xE] ∧ matchEnabled = false)

/-- R57 on words written out bit by bit from the opcode map, one of each family and format. -/
def Obligations.SampleWordsDecode : Prop :=
  decode true .command (wordBytes 0b0001000001000001 ++ [0xAA]) = .unit (.sendb 0x41) [0xAA] ∧
  decode true .command (wordBytes 0b0111111111111111) = .unit (.peekn 4095) [] ∧
  decode true .command (wordBytes 0b1001000000000000) = .unit .flushtx [] ∧
  decode true .command (wordBytes 0b1010000000000000 ++ [0x80, 0x25, 0x00, 0x00, 0x08, 0x01, 0x00]) =
    .unit (.setup 9600 8 1 0) [] ∧
  decode true .command (wordBytes 0b1011000000000010 ++ [0x34, 0x12, 0x42, 0x00, 0x6F, 0x6B]) =
    .unit (.mreg 0x1234 0x0042 [0x6F, 0x6B]) [] ∧
  decode true .event (wordBytes 0b1111000101000001) = .unit (.rxc 0x41) [] ∧
  decode true .event (wordBytes 0b1111001000000000) = .unit .txr []

/-! ## The step -/

/-- 10_state.md R29, R48: on F's turn, with no command held, the unit at the head of the presented bytes is run, in the
state in which the turn and the unit's bytes are taken. -/
def Obligations.StepRunsTheDecodedCommand : Prop :=
  ∀ (s : State) (ts : List Turn) (i : Instr) (rest : List Byte),
    s.turns = .foreground :: ts → s.held = none →
    decode s.cfg.matchEnabled .command s.cmdIn = .unit i rest →
    step s = exec i { s with turns := ts, cmdIn := rest }

/-- R77: P's RXC runs in a state with RXIE = 1 and its TXR in a state with TXIE = 1; with the enable at 0 the model refuses
the delivery (93_implementation_defined.md U18), so the block sees nothing. A held command whose condition is true comes
before any event (R54). -/
def Obligations.EventsAreGatedByTheirEnables : Prop :=
  ∀ (s : State) (ts : List Turn), (∀ i, s.held = some i → s.ready i = false) →
    (∀ b : Byte, s.turns = .event (0xF1#8 ++ b) :: ts →
      (s.rxie = true → step s = exec (.rxc b) { s with turns := ts }) ∧
      (s.rxie = false → step s = .refused (.eventNotEnabled (0xF1#8 ++ b)))) ∧
    (s.turns = .event 0xF200 :: ts →
      (s.txie = true → step s = exec .txr { s with turns := ts }) ∧
      (s.txie = false → step s = .refused (.eventNotEnabled 0xF200)))

/-- R97: an illegal command word is answered ILLEGAL (0xFF) with no data, it does not hold, nothing else changes and no
payload byte is taken. R79: on the event port exactly the units that are not RXC or TXR are refused as such. -/
def Obligations.IllegalWordIsAnsweredAndChangesNothing : Prop :=
  ∀ (s : State) (ts : List Turn) (w : Word) (rest : List Byte),
    (s.turns = .foreground :: ts → s.held = none → s.cmdIn = wordBytes w ++ rest →
      decodeWord s.cfg.matchEnabled .command w = .illegal →
      step s = .next { s with
        turns := ts, cmdIn := rest, responses := s.responses ++ [{ status := .illegal, data := [] }] } ∧
      Status.illegal.code = 0xFF) ∧
    (s.turns = .event w :: ts → (∀ i, s.held = some i → s.ready i = false) →
      (step s = .refused (.notAnEvent w) ↔ ¬ (w.toNat / 256 = 0xF1 ∨ w.toNat = 0xF200)))

/-- R54. Five commands are holding. While its condition is false a holding command is held with nothing else changed, F has
no transition (its turns pass, and a sweep F is in stays where it is, R115), and P's events go on
(EventsAreGatedByTheirEnables). In the first state in which the condition is true the next step is the command's effect,
whatever turn is next, and the command is over. The other commands never wait. TXR only lowers TX.count and RXC never
lowers RX.count, so events only make a waiting command's condition more true. -/
def Obligations.HoldingCommandsWaitForTheirCondition : Prop :=
  (∀ i : Instr, i.holding = true ↔
    (∃ b, i = .sendb b) ∨ i = .recvb ∨ i = .peekb ∨ (∃ n, i = .peekn n) ∨ i = .flushtx) ∧
  (∀ (i : Instr) (s : State), s.ready i = false →
    i.holding = true ∧ exec i s = .next { s with held := some i }) ∧
  (∀ (i : Instr) (s : State) (ts : List Turn), s.held = some i → s.ready i = false → s.turns = .foreground :: ts →
    step s = .next { s with turns := ts }) ∧
  (∀ (i : Instr) (x : Sweep) (handlers : Handlers), x.block.held = some i → x.block.ready i = false →
    Sweep.run handlers [.foreground] x = .next x) ∧
  (∀ (i : Instr) (s : State), s.held = some i → s.ready i = true → step s = exec i s) ∧
  (∀ (i : Instr) (s t : State), i.port = .command → s.ready i = true → exec i s = .next t → t.held = none) ∧
  (∀ (i : Instr) (s : State), i.holding = false → s.ready i = true) ∧
  (∀ (i e : Instr) (s t : State), s.Inv → i.holding = true → e.port = .event → exec e s = .next t →
    t.held = s.held ∧ t.tx.count ≤ s.tx.count ∧ s.rx.count ≤ t.rx.count ∧ (s.ready i = true → t.ready i = true))

/-! ## TX commands -/

/-- R68: SENDB; a word of op 1 with a nonzero `sub` is illegal. -/
def Obligations.SendbPushesOrHolds : Prop :=
  ∀ (matchEnabled : Bool) (rest : List Byte) (b : Byte) (s : State),
    decode matchEnabled .command (b :: 0x10 :: rest) = .unit (.sendb b) rest ∧
    (∀ w : Word, w.toNat / 4096 = 0x1 → w.toNat / 256 % 16 ≠ 0 → decodeWord matchEnabled .command w = .illegal) ∧
    (s.tx.count < s.cfg.txSize → ∃ r, s.tx.Pushed s.cfg.txSize b r ∧
      exec (.sendb b) s = .next { s with
        tx := r, txie := true, held := none, responses := s.responses ++ [{ status := .ok, data := [] }] }) ∧
    (s.cfg.txSize ≤ s.tx.count → exec (.sendb b) s = .next { s with held := some (.sendb b) })

/-- R69: SENDNB. -/
def Obligations.SendnbPushesOrReportsFull : Prop :=
  ∀ (matchEnabled : Bool) (rest : List Byte) (b : Byte) (s : State),
    decode matchEnabled .command (b :: 0x20 :: rest) = .unit (.sendnb b) rest ∧
    (s.tx.count ≠ s.cfg.txSize → ∃ r, s.tx.Pushed s.cfg.txSize b r ∧
      exec (.sendnb b) s = .next { s with
        tx := r, txie := true, held := none, responses := s.responses ++ [{ status := .ok, data := [1] }] }) ∧
    (s.tx.count = s.cfg.txSize →
      exec (.sendnb b) s = .next { s with
        held := none, responses := s.responses ++ [{ status := .ok, data := [0] }] })

/-- R76: FLUSHTX. -/
def Obligations.FlushtxWaitsForDrainThenResets : Prop :=
  ∀ (matchEnabled : Bool) (rest : List Byte) (s : State),
    decode matchEnabled .command (0x00 :: 0x90 :: rest) = .unit .flushtx rest ∧
    (s.tx.count = 0 → exec .flushtx s = .next { s with
      tx := { s.tx with inIdx := 0, outIdx := 0, count := 0 }, held := none,
      responses := s.responses ++ [{ status := .ok, data := [] }] }) ∧
    (s.tx.count ≠ 0 → exec .flushtx s = .next { s with held := some .flushtx })

/-! ## RX commands -/

/-- R70: RECVB. A held RECVB pops as soon as RX holds a byte, before any further event, so no RXC finds RX full meanwhile. -/
def Obligations.RecvbPopsOrHolds : Prop :=
  ∀ (matchEnabled : Bool) (rest : List Byte) (b : Byte) (s : State),
    decode matchEnabled .command (0x00 :: 0x30 :: rest) = .unit .recvb rest ∧
    (0 < s.rx.count → s.rx.buf.read s.rx.outIdx = some b → ∃ r, s.rx.Popped s.cfg.rxSize r ∧
      exec .recvb s = .next { s with
        rx := r, held := none, responses := s.responses ++ [{ status := .ok, data := [b] }] }) ∧
    (s.rx.count = 0 → exec .recvb s = .next { s with held := some .recvb }) ∧
    (s.held = some .recvb → 0 < s.rx.count → step s = exec .recvb s)

/-- R71: RECVNB. -/
def Obligations.RecvnbPopsOrAnswersSentinel : Prop :=
  ∀ (matchEnabled : Bool) (rest : List Byte) (b : Byte) (s : State),
    decode matchEnabled .command (0x00 :: 0x40 :: rest) = .unit .recvnb rest ∧
    (0 < s.rx.count → s.rx.buf.read s.rx.outIdx = some b → ∃ r, s.rx.Popped s.cfg.rxSize r ∧
      exec .recvnb s = .next { s with
        rx := r, held := none, responses := s.responses ++ [{ status := .ok, data := [b] }] }) ∧
    (s.rx.count = 0 → exec .recvnb s = .next { s with
      held := none, responses := s.responses ++ [{ status := .ok, data := [0] }] })

/-- R72: PEEKB. The cell at `out` is cell `(out + 0) mod N` (R66). -/
def Obligations.PeekbReadsWithoutConsuming : Prop :=
  ∀ (matchEnabled : Bool) (rest : List Byte) (b : Byte) (s : State),
    decode matchEnabled .command (0x00 :: 0x50 :: rest) = .unit .peekb rest ∧
    (0 < s.rx.count → s.rx.buf.read (s.rx.outIdx % s.cfg.rxSize) = some b →
      exec .peekb s = .next { s with
        held := none, responses := s.responses ++ [{ status := .ok, data := [b] }] }) ∧
    (s.rx.count = 0 → exec .peekb s = .next { s with held := some .peekb })

/-- R73: PEEKNB. -/
def Obligations.PeeknbReadsOrAnswersSentinel : Prop :=
  ∀ (matchEnabled : Bool) (rest : List Byte) (b : Byte) (s : State),
    decode matchEnabled .command (0x00 :: 0x60 :: rest) = .unit .peeknb rest ∧
    (0 < s.rx.count → s.rx.buf.read (s.rx.outIdx % s.cfg.rxSize) = some b →
      exec .peeknb s = .next { s with
        held := none, responses := s.responses ++ [{ status := .ok, data := [b] }] }) ∧
    (s.rx.count = 0 → exec .peeknb s = .next { s with
      held := none, responses := s.responses ++ [{ status := .ok, data := [0] }] })

/-- R74: PEEKN, with n clamped to RX_SIZE before the hold. -/
def Obligations.PeeknReadsTheOldestBytesOrHolds : Prop :=
  ∀ (matchEnabled : Bool) (rest : List Byte) (n : Nat) (bs : List Byte) (s : State),
    (n ≤ 4095 → decode matchEnabled .command (wordBytes (BitVec.ofNat 16 (0x7000 + n)) ++ rest) =
      .unit (.peekn n) rest) ∧
    (bs.length = min n s.cfg.rxSize → min n s.cfg.rxSize ≤ s.rx.count →
      (∀ k, k < bs.length → s.rx.buf.read ((s.rx.outIdx + k) % s.cfg.rxSize) = bs[k]?) →
      exec (.peekn n) s = .next { s with
        held := none, responses := s.responses ++ [{ status := .ok, data := bs }] }) ∧
    (s.rx.count < min n s.cfg.rxSize → exec (.peekn n) s = .next { s with held := some (.peekn n) })

/-- R75: FLUSHRX. -/
def Obligations.FlushrxResetsOnlyTheRxIndices : Prop :=
  ∀ (matchEnabled : Bool) (rest : List Byte) (s : State),
    decode matchEnabled .command (0x00 :: 0x80 :: rest) = .unit .flushrx rest ∧
    exec .flushrx s = .next { s with
      rx := { s.rx with inIdx := 0, outIdx := 0, count := 0 }, held := none,
      responses := s.responses ++ [{ status := .ok, data := [] }] }

/-! ## Events -/

/-- R80: TXR. -/
def Obligations.TxrSendsTheOldestByte : Prop :=
  ∀ (matchEnabled : Bool) (b : Byte) (s : State),
    decode matchEnabled .event (wordBytes 0xF200) = .unit .txr [] ∧
    (s.tx.count = 0 → exec .txr s = .next { s with txie := false }) ∧
    (0 < s.tx.count → s.tx.buf.read s.tx.outIdx = some b → ∃ r, s.tx.Popped s.cfg.txSize r ∧
      exec .txr s = .next { s with
        tx := r, portOut := s.portOut ++ [.writeData b],
        txie := if s.tx.count = 1 then false else s.txie })

/-- R81, R84: RXC answers a next state from every state. With the match engine built in, every registered entry takes one
automaton step on the byte and no other field of it changes; the trigger bits of the entries that fire are raised, and no
other bit changes. Without it neither changes. The byte goes through `push_overwrite` in both cases. -/
def Obligations.RxcAdvancesEveryEntryAndPushes : Prop :=
  ∀ (matchEnabled : Bool) (b : Byte) (s : State),
    decode matchEnabled .event [b, 0xF1] = .unit (.rxc b) [] ∧
    ∃ (table : List Entry) (trig : BitVec 32),
      exec (.rxc b) s = .next { s with
        rx := s.rx.pushOverwrite s.cfg.rxSize s.cfg.rxOverflow b, table := table, trig := trig } ∧
      (s.cfg.matchEnabled = false → table = s.table ∧ trig = s.trig) ∧
      (s.cfg.matchEnabled = true → table.length = s.table.length ∧
        (∀ (k : Nat) (e : Entry), s.table[k]? = some e → e.pat.length = 0 → table[k]? = some e) ∧
        (∀ (k : Nat) (e : Entry), s.table[k]? = some e → 0 < e.pat.length →
          table[k]? = some { e with prog := (advanceEntry e b).1 }) ∧
        (∀ k, k < 32 → (trig.getLsbD k = true ↔ s.trig.getLsbD k = true ∨
          ∃ e, s.table[k]? = some e ∧ (e.pat.length = 0 ∨ (advanceEntry e b).2 = true))))

/-- R64: `push_overwrite`. On a non-full ring it is a push; on a full ring the byte goes to the cell at `in`, `in` advances,
`count` stays N, and `out` moves as RX_OVERFLOW says. On a ring that meets its invariant and is coherent, OVERWRITE_OLDEST
then keeps the newest N bytes in arrival order, and OVERWRITE_AT_IN replaces the oldest byte by the newest. -/
def Obligations.OverflowingPushKeepsCount : Prop :=
  ∀ (r : Ring) (N : Nat) (b : Byte),
    (r.count < N → ∀ policy, r.Pushed N b (r.pushOverwrite N policy b)) ∧
    (r.count = N → ∀ policy,
      (r.pushOverwrite N policy b).inIdx = (r.inIdx + 1) % N ∧
      (r.pushOverwrite N policy b).count = N ∧
      (r.pushOverwrite N policy b).buf.read r.inIdx = some b ∧
      (∀ k, k ≠ r.inIdx → (r.pushOverwrite N policy b).buf.read k = r.buf.read k) ∧
      (r.pushOverwrite N policy b).outIdx =
        match policy with
        | .overwriteOldest => (r.outIdx + 1) % N
        | .overwriteAtIn => r.outIdx) ∧
    (r.count = N → r.Inv N → r.Coherent N →
      (r.pushOverwrite N .overwriteOldest b).contents N = (r.contents N).tail ++ [some b] ∧
      (r.pushOverwrite N .overwriteAtIn b).contents N = some b :: (r.contents N).tail)

/-! ## Match engine -/

/-- R82: the automaton's step on an entry with a pattern of at least one byte. -/
def Obligations.AutomatonStepIsTheDocumentedOne : Prop :=
  ∀ (e : Entry) (b : Byte), 1 ≤ e.pat.length → e.prog < e.pat.length →
    (e.pat[e.prog]? = some b → e.prog + 1 = e.pat.length → advanceEntry e b = (0, true)) ∧
    (e.pat[e.prog]? = some b → e.prog + 1 < e.pat.length → advanceEntry e b = (e.prog + 1, false)) ∧
    (e.pat[e.prog]? ≠ some b → 0 < e.prog → e.pat[0]? = some b → advanceEntry e b = (1, false)) ∧
    (e.pat[e.prog]? ≠ some b → (e.prog = 0 ∨ e.pat[0]? ≠ some b) → advanceEntry e b = (0, false))

/-- R92, property 1: an entry just registered that has seen the bytes `bs` and stands at progress `p` has seen its first
`p` pattern bytes last, and it fires only at the end of a real occurrence of its pattern. -/
def Obligations.TriggersMarkRealOccurrences : Prop :=
  ∀ (e : Entry) (bs : List Byte), 1 ≤ e.pat.length → e.prog = 0 →
    (feedEntry bs e).1.prog < e.pat.length ∧
    (∃ before, bs = before ++ e.pat.take (feedEntry bs e).1.prog) ∧
    ((feedEntry bs e).2 = true → ∃ before, bs = before ++ e.pat)

/-- R85: MREG. -/
def Obligations.MregAppendsAnEntryOrReports : Prop :=
  ∀ (rest : List Byte) (h0 h1 c0 c1 : Byte) (p : List Byte) (h c : Word) (s : State),
    (p.length ≤ 255 → decode true .command
        (BitVec.ofNat 8 p.length :: 0xB0 :: h0 :: h1 :: c0 :: c1 :: (p ++ rest)) =
      .unit (.mreg (h1 ++ h0) (c1 ++ c0) p) rest) ∧
    (s.cfg.matchEnabled = true → h ≠ 0 → s.nEnt ≠ s.cfg.maxPatterns → ∃ trig : BitVec 32,
      (∀ k, trig.getLsbD k = (s.trig.getLsbD k && decide (k ≠ s.nEnt))) ∧
      exec (.mreg h c p) s = .next { s with
        table := s.table ++ [{ pat := p.take s.cfg.maxSeqLen, prog := 0, handler := h, ctx := c }],
        trig := trig, held := none, responses := s.responses ++ [{ status := .ok, data := [] }] }) ∧
    (s.cfg.matchEnabled = true → h ≠ 0 → s.nEnt = s.cfg.maxPatterns →
      exec (.mreg h c p) s = .next { s with
        held := none, responses := s.responses ++ [{ status := .tableFull, data := [] }] }) ∧
    (s.cfg.matchEnabled = true →
      exec (.mreg 0 c p) s = .next { s with
        held := none, responses := s.responses ++ [{ status := .noHandler, data := [] }] }) ∧
    (s.cfg.matchEnabled = false →
      exec (.mreg h c p) s = .next { s with
        held := none, responses := s.responses ++ [{ status := .illegal, data := [] }] })

/-- R98: what MREG reports first: the decoder's ILLEGAL, then NOHANDLER, then TABLEFULL. -/
def Obligations.MregErrorPrecedence : Prop :=
  ∀ (w c : Word) (h : Word) (p : List Byte) (s : State),
    (w.toNat / 256 = 0xB0 → decodeWord false .command w = .illegal) ∧
    (s.cfg.matchEnabled = true → s.nEnt = s.cfg.maxPatterns →
      ∃ t r, exec (.mreg h c p) s = .next t ∧ t.responses = s.responses ++ [r] ∧
        (h = 0 → r.status = .noHandler) ∧ (h ≠ 0 → r.status = .tableFull))

/-- R86: `find_entry(q)` is the least position whose pattern has the length and the bytes of `q`. -/
def Obligations.FindEntryIsTheFirstExactMatch : Prop :=
  ∀ (t : List Entry) (q : List Byte) (k : Nat),
    (findEntry t q = some k ↔
      (∃ e, t[k]? = some e ∧ e.pat.length = q.length ∧ ∀ j, j < q.length → e.pat[j]? = q[j]?) ∧
      ∀ (j : Nat) (e : Entry), j < k → t[j]? = some e → ¬ (e.pat.length = q.length ∧ ∀ n, n < q.length → e.pat[n]? = q[n]?)) ∧
    (findEntry t q = none ↔ ∀ e ∈ t, e.pat ≠ q)

/-- R87, R88: MDEREG. -/
def Obligations.MderegRemovesTheFirstMatch : Prop :=
  ∀ (rest p : List Byte) (s : State) (k : Nat),
    (p.length ≤ 255 →
      decode true .command (BitVec.ofNat 8 p.length :: 0xC0 :: (p ++ rest)) = .unit (.mdereg p) rest) ∧
    (s.cfg.matchEnabled = true → findEntry s.table (p.take s.cfg.maxSeqLen) = some k →
      ∃ (table : List Entry) (trig : BitVec 32),
        exec (.mdereg p) s = .next { s with
          table := table, trig := trig, held := none,
          responses := s.responses ++ [{ status := .ok, data := [] }] } ∧
        table.length + 1 = s.table.length ∧
        (∀ j, table[j]? = if j < k then s.table[j]? else s.table[j + 1]?) ∧
        (s.cfg.trigCompaction = .stayByPosition → trig = s.trig) ∧
        (s.cfg.trigCompaction = .shiftWithEntries → ∀ j, trig.getLsbD j =
          if j < k then s.trig.getLsbD j
          else if j + 1 < s.nEnt then s.trig.getLsbD (j + 1)
          else if j + 1 = s.nEnt then false
          else s.trig.getLsbD j)) ∧
    (s.cfg.matchEnabled = true → findEntry s.table (p.take s.cfg.maxSeqLen) = none →
      exec (.mdereg p) s = .next { s with
        held := none, responses := s.responses ++ [{ status := .ok, data := [] }] }) ∧
    (s.cfg.matchEnabled = false →
      exec (.mdereg p) s = .next { s with
        held := none, responses := s.responses ++ [{ status := .illegal, data := [] }] })

/-- R89: MTRIG. -/
def Obligations.MtrigReportsTheDispatchTarget : Prop :=
  ∀ (rest : List Byte) (imm : Byte) (i : Nat) (s : State),
    decode true .command (imm :: 0xD0 :: rest) = .unit (.mtrig imm.toNat) rest ∧
    (s.cfg.matchEnabled = true → ∀ e, s.table[i]? = some e →
      exec (.mtrig i) s = .next { s with held := none, responses := s.responses ++ [{ status := .ok, data :=
        [1, if s.trig.getLsbD i then 1 else 0, e.handler.extractLsb' 0 8, e.handler.extractLsb' 8 8,
          e.ctx.extractLsb' 0 8, e.ctx.extractLsb' 8 8] }] }) ∧
    (s.cfg.matchEnabled = true → s.nEnt ≤ i →
      exec (.mtrig i) s = .next { s with
        held := none, responses := s.responses ++ [{ status := .ok, data := [0, 0, 0, 0, 0, 0] }] }) ∧
    (s.cfg.matchEnabled = false →
      exec (.mtrig i) s = .next { s with
        held := none, responses := s.responses ++ [{ status := .illegal, data := [] }] })

/-- R90: MCLR. -/
def Obligations.MclrClearsOneTriggerBit : Prop :=
  ∀ (rest : List Byte) (imm : Byte) (i : Nat) (s : State),
    decode true .command (imm :: 0xE0 :: rest) = .unit (.mclr imm.toNat) rest ∧
    (s.cfg.matchEnabled = true → ∃ trig : BitVec 32,
      exec (.mclr i) s = .next { s with
        trig := trig, held := none, responses := s.responses ++ [{ status := .ok, data := [] }] } ∧
      (i < s.cfg.maxPatterns → ∀ k, trig.getLsbD k = (s.trig.getLsbD k && decide (k ≠ i))) ∧
      (s.cfg.maxPatterns ≤ i → trig = s.trig)) ∧
    (s.cfg.matchEnabled = false →
      exec (.mclr i) s = .next { s with
        held := none, responses := s.responses ++ [{ status := .illegal, data := [] }] })

/-- R8: without the match engine the words of MREG, MDEREG, MTRIG and MCLR are illegal, RXC does no match advance, and no
reachable state has an entry or a trigger bit. -/
def Obligations.NoMatchEngineNoMatchCommands : Prop :=
  ∀ (w : Word) (rest : List Byte) (b : Byte) (s : State),
    (w.toNat / 4096 ∈ [0xB, 0xC, 0xD, 0xE] → decode false .command (wordBytes w ++ rest) = .illegal rest) ∧
    (s.cfg.matchEnabled = false →
      ∃ t, exec (.rxc b) s = .next t ∧ t.table = s.table ∧ t.trig = s.trig) ∧
    (Reachable s → s.cfg.matchEnabled = false → s.table = [] ∧ s.trig = 0)

/-! ## Configuration and status -/

/-- R94: SETUP. -/
def Obligations.SetupForwardsAndEnablesReception : Prop :=
  ∀ (matchEnabled : Bool) (rest : List Byte) (r0 r1 r2 r3 cs sb par : Byte) (r : BitVec 32) (s : State),
    decode matchEnabled .command (0x00 :: 0xA0 :: r0 :: r1 :: r2 :: r3 :: cs :: sb :: par :: rest) =
      .unit (.setup ((r3 ++ r2 : Word) ++ (r1 ++ r0 : Word)) cs sb par) rest ∧
    exec (.setup r cs sb par) s = .next { s with
      portOut := s.portOut ++ [.setBaud r, .setFrame cs sb par, .enable], rxie := true, held := none,
      responses := s.responses ++ [{ status := .ok, data := [] }] }

/-- R95: STAT's 18 bytes; a word 0xF0xx with xx ≠ 0 is illegal. -/
def Obligations.StatReportsTheBlock : Prop :=
  ∀ (matchEnabled : Bool) (rest : List Byte) (s : State),
    decode matchEnabled .command (0x00 :: 0xF0 :: rest) = .unit .stat rest ∧
    (∀ imm : Byte, imm ≠ 0 → decode matchEnabled .command (imm :: 0xF0 :: rest) = .illegal rest) ∧
    exec .stat s = .next { s with held := none, responses := s.responses ++ [{ status := .ok, data :=
      [BitVec.ofNat 8 s.rx.inIdx, BitVec.ofNat 8 (s.rx.inIdx / 256),
        BitVec.ofNat 8 s.rx.outIdx, BitVec.ofNat 8 (s.rx.outIdx / 256),
        BitVec.ofNat 8 s.rx.count, BitVec.ofNat 8 (s.rx.count / 256),
        BitVec.ofNat 8 s.tx.inIdx, BitVec.ofNat 8 (s.tx.inIdx / 256),
        BitVec.ofNat 8 s.tx.outIdx, BitVec.ofNat 8 (s.tx.outIdx / 256),
        BitVec.ofNat 8 s.tx.count, BitVec.ofNat 8 (s.tx.count / 256),
        BitVec.ofNat 8 ((if s.rxie then 1 else 0) + (if s.txie then 2 else 0)),
        if s.cfg.matchEnabled then BitVec.ofNat 8 s.table.length else 0] ++
      (if s.cfg.matchEnabled then
        [BitVec.ofNat 8 s.trig.toNat, BitVec.ofNat 8 (s.trig.toNat / 256),
          BitVec.ofNat 8 (s.trig.toNat / 65536), BitVec.ofNat 8 (s.trig.toNat / 16777216)]
      else [0, 0, 0, 0]) }] }

/-! ## Whole-machine rules -/

/-- R26: SETUP sets RXIE, nothing else writes it. -/
def Obligations.OnlySetupWritesRxie : Prop :=
  ∀ (i : Instr) (s t : State), exec i s = .next t →
    ((∃ r cs sb par, i = .setup r cs sb par) → t.rxie = true) ∧
    ((∀ r cs sb par, i ≠ .setup r cs sb par) → t.rxie = s.rxie)

/-- R20: who writes TXIE, and what. -/
def Obligations.TxieIsSetByPushesAndClearedByTxr : Prop :=
  ∀ (i : Instr) (s t : State), exec i s = .next t →
    (∀ b, i = .sendb b → t.held = none → t.txie = true) ∧
    (∀ b, i = .sendb b → t.held = some (.sendb b) → t.txie = s.txie) ∧
    (∀ b, i = .sendnb b → t.txie = if s.tx.count = s.cfg.txSize then s.txie else true) ∧
    (i = .txr → t.txie = if s.tx.count ≤ 1 then false else s.txie) ∧
    ((∀ b, i ≠ .sendb b) → (∀ b, i ≠ .sendnb b) → i ≠ .txr → t.txie = s.txie)

/-- R17: only RXC, RECVB, RECVNB and FLUSHRX write the RX ring, only SENDB, SENDNB, FLUSHTX and TXR the TX ring. -/
def Obligations.RingWritersAreTheListedOnes : Prop :=
  ∀ (i : Instr) (s t : State), exec i s = .next t →
    (t.rx ≠ s.rx → (∃ b, i = .rxc b) ∨ i = .recvb ∨ i = .recvnb ∨ i = .flushrx) ∧
    (t.tx ≠ s.tx → (∃ b, i = .sendb b) ∨ (∃ b, i = .sendnb b) ∨ i = .flushtx ∨ i = .txr)

/-- R28, R109: who writes the match state. The table changes only by RXC, MREG and MDEREG; entries are added only by MREG
and leave only by MDEREG; apart from MDEREG's shift an entry keeps its position, pattern, handler and context, and its
progress changes only by RXC. A trigger bit goes to 0 only by MCLR, MREG or MDEREG and to 1 only by RXC or a compaction of
MDEREG. -/
def Obligations.MatchStateWritersAreTheListedOnes : Prop :=
  ∀ (i : Instr) (s t : State), exec i s = .next t →
    (t.table ≠ s.table → (∃ b, i = .rxc b) ∨ (∃ h c p, i = .mreg h c p) ∨ ∃ p, i = .mdereg p) ∧
    (s.nEnt < t.nEnt → ∃ h c p, i = .mreg h c p) ∧
    (t.nEnt < s.nEnt → ∃ p, i = .mdereg p) ∧
    ((∀ p, i ≠ .mdereg p) → ∀ (k : Nat) (e : Entry), s.table[k]? = some e → ∃ e', t.table[k]? = some e' ∧
      e'.pat = e.pat ∧ e'.handler = e.handler ∧ e'.ctx = e.ctx ∧ (e'.prog ≠ e.prog → ∃ b, i = .rxc b)) ∧
    (∀ k, s.trig.getLsbD k = true → t.trig.getLsbD k = false →
      i = .mclr k ∨ (∃ h c p, i = .mreg h c p ∧ k = s.nEnt) ∨ ∃ p, i = .mdereg p) ∧
    (∀ k, s.trig.getLsbD k = false → t.trig.getLsbD k = true → (∃ b, i = .rxc b) ∨ ∃ p, i = .mdereg p)

/-- R17 and R36 for the cells: an instruction writes at most one ring cell, the one at `in` of the ring it pushes to, and
every other cell of both rings reads as before. -/
def Obligations.EveryOtherCellReadsAsBefore : Prop :=
  ∀ (i : Instr) (s t : State), exec i s = .next t →
    (∀ k, k ≠ s.rx.inIdx → t.rx.buf.read k = s.rx.buf.read k) ∧
    (∀ k, k ≠ s.tx.inIdx → t.tx.buf.read k = s.tx.buf.read k) ∧
    (t.rx.buf.read s.rx.inIdx ≠ s.rx.buf.read s.rx.inIdx →
      ∃ b, i = .rxc b ∧ t.rx.buf.read s.rx.inIdx = some b) ∧
    (t.tx.buf.read s.tx.inIdx ≠ s.tx.buf.read s.tx.inIdx →
      ∃ b, (i = .sendb b ∨ i = .sendnb b) ∧ t.tx.buf.read s.tx.inIdx = some b)

/-- R14: the capacities, and every other build parameter, never change. -/
def Obligations.ParametersNeverChange : Prop :=
  (∀ (i : Instr) (s t : State), exec i s = .next t → t.cfg = s.cfg) ∧
  (∀ s t : State, step s = .next t → t.cfg = s.cfg)

/-- R56: a command that is not left holding ends with exactly one response, of a status and a data length the tables give
it; an event gives none. -/
def Obligations.EveryCommandEndsWithOneResponse : Prop :=
  ∀ (i : Instr) (s t : State), exec i s = .next t →
    (i.port = .event → t.responses = s.responses) ∧
    (i.port = .command → t = { s with held := some i } ∨
      ∃ r, t.held = none ∧ t.responses = s.responses ++ [r] ∧
        (r.status ≠ .ok → r.data = [] ∧
          ((r.status = .illegal ∧ i.usesMatch = true ∧ s.cfg.matchEnabled = false) ∨
            ∃ h c p, i = .mreg h c p ∧ (r.status = .noHandler ∨ r.status = .tableFull))) ∧
        (r.status = .ok → r.data.length =
          match i with
          | .sendnb _ => 1
          | .recvb => 1
          | .recvnb => 1
          | .peekb => 1
          | .peeknb => 1
          | .peekn n => min n s.cfg.rxSize
          | .mtrig _ => 6
          | .stat => 18
          | _ => 0)) ∧
    Status.ok.code = 0x00 ∧ Status.noHandler.code = 0x01 ∧ Status.tableFull.code = 0x02 ∧ Status.illegal.code = 0xFF

/-- R107: the block calls `write_data_register` only inside TXR, the configuration calls only inside SETUP. -/
def Obligations.PortCallsComeFromTxrAndSetup : Prop :=
  ∀ (i : Instr) (s t : State), exec i s = .next t →
    t.portOut = s.portOut ∨
    (∃ b, i = .txr ∧ t.portOut = s.portOut ++ [.writeData b]) ∨
    (∃ r cs sb par, i = .setup r cs sb par ∧
      t.portOut = s.portOut ++ [.setBaud r, .setFrame cs sb par, .enable])

/-- R40: RECVB, RECVNB and TXR consume what they read; PEEKB, PEEKNB, PEEKN, MTRIG and STAT have no side effect, and
repeating one gives the same response. -/
def Obligations.PeeksRepeatAndReceivesConsume : Prop :=
  (∀ (s t : State) (i : Instr), i = .recvb ∨ i = .recvnb → 0 < s.rx.count → exec i s = .next t →
    t.rx.outIdx = (s.rx.outIdx + 1) % s.cfg.rxSize ∧ t.rx.count + 1 = s.rx.count) ∧
  (∀ s t : State, 0 < s.tx.count → exec .txr s = .next t →
    t.tx.outIdx = (s.tx.outIdx + 1) % s.cfg.txSize ∧ t.tx.count + 1 = s.tx.count) ∧
  (∀ (s t : State) (i : Instr),
    (i = .peekb ∨ i = .peeknb ∨ (∃ n, i = .peekn n) ∨ (∃ k, i = .mtrig k) ∨ i = .stat) →
    s.ready i = true → exec i s = .next t →
    ∃ r, t = { s with held := none, responses := s.responses ++ [r] } ∧
      exec i t = .next { s with held := none, responses := s.responses ++ [r, r] })

/-! ## Reset and invariants -/

/-- R32: the values after reset, for every configuration; `State.reset` is the one at the test defaults. -/
def Obligations.ResetValues : Prop :=
  (∀ cfg : Config,
    let s := State.resetWith cfg
    s.cfg = cfg ∧ s.rx.inIdx = 0 ∧ s.rx.outIdx = 0 ∧ s.rx.count = 0 ∧ s.tx.inIdx = 0 ∧ s.tx.outIdx = 0 ∧
    s.tx.count = 0 ∧ s.rxie = false ∧ s.txie = false ∧ s.nEnt = 0 ∧ s.trig = 0 ∧ s.held = none) ∧
  State.reset = State.resetWith Config.testDefault

/-- R108: the reset state of every legal configuration meets the invariant of the block. -/
def Obligations.ResetMeetsTheInvariant : Prop :=
  ∀ cfg : Config, cfg.legal = true → (State.resetWith cfg).Inv

/-- R16, R18, R22 to R27, R33: every step from a state that meets the invariant gives a state that meets it. -/
def Obligations.StepKeepsTheInvariant : Prop :=
  ∀ s t : State, s.Inv → step s = .next t → t.Inv

/-- R96, R33: no reachable state faults, and where the agent whose turn is next keeps its duty (R123: an enabled RXC or TXR
from P, whole units from F) the step answers a next state. That it does so too when no turn is left, or on F's turn with
nothing presented, is the model's choice (assumption log 3), not one of these rules. -/
def Obligations.NoReachableStateFaults : Prop :=
  ∀ s : State, Reachable s →
    (∀ f, step s ≠ .fault f) ∧ (s.dutiful → ∃ t, step s = .next t)

/-- R27: in every reachable state, TXIE = 1 exactly when TX.count > 0. -/
def Obligations.TxieTracksTxOccupancy : Prop :=
  ∀ s : State, Reachable s → (s.txie = true ↔ 0 < s.tx.count)

/-- R16: in every reachable state and for both rings, `count` is at most N, `in` and `out` are indices modulo N, and the ring
is empty exactly at `count = 0` and full exactly at `count = N`. -/
def Obligations.RingCountsStayInBounds : Prop :=
  ∀ (s : State) (b : Byte), Reachable s →
    s.rx.count ≤ s.cfg.rxSize ∧ s.tx.count ≤ s.cfg.txSize ∧
    (s.rx.inIdx < s.cfg.rxSize ∧ s.rx.outIdx < s.cfg.rxSize) ∧ (s.tx.inIdx < s.cfg.txSize ∧ s.tx.outIdx < s.cfg.txSize) ∧
    (s.rx.contents s.cfg.rxSize = [] ↔ s.rx.count = 0) ∧ (s.tx.contents s.cfg.txSize = [] ↔ s.tx.count = 0) ∧
    ((s.rx.pushTry s.cfg.rxSize b).2 = false ↔ s.rx.count = s.cfg.rxSize) ∧
    ((s.tx.pushTry s.cfg.txSize b).2 = false ↔ s.tx.count = s.cfg.txSize)

/-- R15: no index or count ever exceeds its register: 8 bits when N ≤ 255, else 16. -/
def Obligations.IndicesFitTheirWidth : Prop :=
  ∀ s : State, Reachable s →
    (s.rx.inIdx < 2 ^ idxWidth s.cfg.rxSize ∧ s.rx.outIdx < 2 ^ idxWidth s.cfg.rxSize ∧
      s.rx.count < 2 ^ idxWidth s.cfg.rxSize) ∧
    (s.tx.inIdx < 2 ^ idxWidth s.cfg.txSize ∧ s.tx.outIdx < 2 ^ idxWidth s.cfg.txSize ∧
      s.tx.count < 2 ^ idxWidth s.cfg.txSize) ∧
    (∀ n, n ≤ 255 → idxWidth n = 8) ∧ (∀ n, 256 ≤ n → n ≤ 65535 → idxWidth n = 16)

/-- R18: TX stays coherent, and RX does under OVERWRITE_OLDEST. -/
def Obligations.IndicesStayCoherent : Prop :=
  ∀ s : State, Reachable s →
    s.tx.inIdx = (s.tx.outIdx + s.tx.count) % s.cfg.txSize ∧
    (s.cfg.rxOverflow = .overwriteOldest → s.rx.inIdx = (s.rx.outIdx + s.rx.count) % s.cfg.rxSize)

/-- R24: no entry rests at full progress. -/
def Obligations.EntryProgressStaysBelowLength : Prop :=
  ∀ (s : State) (k : Nat) (e : Entry), Reachable s → s.table[k]? = some e →
    (0 < e.pat.length → e.prog < e.pat.length) ∧ (e.pat.length = 0 → e.prog = 0)

/-- R23, R25: trigger bits at and above MAX_PATTERNS are 0; under SHIFT_WITH_ENTRIES so are those at and above n_ent; a
bit at or above n_ent is never dispatched, and a registration at n_ent clears it. -/
def Obligations.StaleTriggersAreNeverDispatched : Prop :=
  ∀ (s : State) (k : Nat), Reachable s →
    (s.cfg.maxPatterns ≤ k → s.trig.getLsbD k = false) ∧
    (s.cfg.trigCompaction = .shiftWithEntries → s.nEnt ≤ k → s.trig.getLsbD k = false) ∧
    (s.cfg.matchEnabled = true → s.nEnt ≤ k →
      ∃ t, exec (.mtrig k) s = .next t ∧ t.lastData = [0, 0, 0, 0, 0, 0]) ∧
    (∀ h c p t, exec (.mreg h c p) s = .next t → t.nEnt = s.nEnt + 1 → t.trig.getLsbD s.nEnt = false)

/-- R111: before the first SETUP no RXC is delivered, the RX ring is empty, and a RECVB holds. -/
def Obligations.NothingIsReceivedBeforeSetup : Prop :=
  ∀ s : State, Reachable s → s.rxie = false →
    s.rx.count = 0 ∧
    exec .recvb s = .next { s with held := some .recvb } ∧
    ∀ (b : Byte) (ts : List Turn), (∀ i, s.held = some i → s.ready i = false) → s.turns = .event (0xF1#8 ++ b) :: ts →
      step s = .refused (.eventNotEnabled (0xF1#8 ++ b))

/-- R33: the one fault of the model. A pop or a peek of a cell nothing has written stops so, by name (the model's choice,
assumption log 6); NoReachableStateFaults says that no run comes to it. -/
def Obligations.OnlyUnwrittenCellsFault : Prop :=
  (∀ (i : Instr) (s : State) (f : Fault), exec i s = .fault f →
    ∃ k, f = .unwrittenCell k ∧ (s.rx.buf.read k = none ∨ s.tx.buf.read k = none)) ∧
  (∀ s : State, 0 < s.rx.count → s.rx.buf.read s.rx.outIdx = none →
    exec .recvb s = .fault (.unwrittenCell s.rx.outIdx) ∧ exec .recvnb s = .fault (.unwrittenCell s.rx.outIdx)) ∧
  (∀ s : State, 0 < s.tx.count → s.tx.buf.read s.tx.outIdx = none →
    exec .txr s = .fault (.unwrittenCell s.tx.outIdx)) ∧
  (∀ s : State, 0 < s.rx.count → s.rx.buf.read (s.rx.outIdx % s.cfg.rxSize) = none →
    exec .peekb s = .fault (.unwrittenCell (s.rx.outIdx % s.cfg.rxSize)) ∧
    exec .peeknb s = .fault (.unwrittenCell (s.rx.outIdx % s.cfg.rxSize))) ∧
  (∀ (s : State) (n k : Nat), min n s.cfg.rxSize ≤ s.rx.count → k < min n s.cfg.rxSize →
    s.rx.buf.read ((s.rx.outIdx + k) % s.cfg.rxSize) = none → ∃ j, exec (.peekn n) s = .fault (.unwrittenCell j))

/-! ## Streams -/

/-- 10_state.md R17, 40_ringbuffer.md R68, R76, 60_exceptions.md R107: TX is a FIFO from F's sends to the port. In every
state that meets the invariant, one transition extends the stream "bytes already at the port, then bytes queued" by the
byte it accepts and changes nothing else of it: no byte is lost, repeated or overtaken. -/
def Obligations.TxBytesReachThePortInOrder : Prop :=
  ∀ (i : Instr) (s t : State), s.Inv → exec i s = .next t →
    t.sentBytes ++ t.tx.contents s.cfg.txSize =
      s.sentBytes ++ s.tx.contents s.cfg.txSize ++
        match i with
        | .sendb b => if s.tx.count < s.cfg.txSize then [some b] else []
        | .sendnb b => if s.tx.count = s.cfg.txSize then [] else [some b]
        | _ => []

/-- 95_test_vectors.md S5, rules R65, R81: bytes received into a coherent RX ring with room for them come out of RECVN in
arrival order behind the bytes it held, one response each, and leave it empty. -/
def Obligations.ReceivedBytesComeOutInOrder : Prop :=
  ∀ (bs : List Byte) (s t : State), s.Inv → s.held = none → s.rx.Coherent s.cfg.rxSize →
    s.rx.count + bs.length ≤ s.cfg.rxSize → issueAll (bs.map .rxc) s = .next t →
    ∃ (old : List Byte) (u : State), s.rx.contents s.cfg.rxSize = old.map some ∧
      issueAll (recvN (old.length + bs.length)) t = .next u ∧ u.rx.count = 0 ∧ u.held = none ∧
      u.responses = s.responses ++ (old ++ bs).map fun b => { status := .ok, data := [b] }

/-- R119 with no event between them: PEEKN n, then as many RECVB as it gave bytes, give the same bytes. -/
def Obligations.PeekThenReceiveGivesTheSameBytes : Prop :=
  ∀ (n : Nat) (s : State), s.Inv → s.held = none → min n s.cfg.rxSize ≤ s.rx.count →
    ∃ (bs : List Byte) (t u : State), bs.length = min n s.cfg.rxSize ∧
      exec (.peekn n) s = .next t ∧ t.responses = s.responses ++ [{ status := .ok, data := bs }] ∧
      issueAll (recvN bs.length) t = .next u ∧ u.rx.count + bs.length = s.rx.count ∧
      u.responses = t.responses ++ bs.map fun b => { status := .ok, data := [b] }

/-- R62: SENDN of a list that fits queues its bytes in order behind those already there. -/
def Obligations.SendnQueuesItsBytesInOrder : Prop :=
  ∀ (l : List Byte) (s : State), s.Inv → s.held = none → s.tx.count + l.length ≤ s.cfg.txSize →
    ∃ t, issueAll (sendN l) s = .next t ∧ t.held = none ∧
      t.tx.contents s.cfg.txSize = s.tx.contents s.cfg.txSize ++ l.map some ∧
      t.responses = s.responses ++ l.map fun _ => { status := .ok, data := [] }

/-- R100 (vector EV-4): RXC and TXR are independent. From a state in which both can be delivered, either order gives the
same state. -/
def Obligations.RxcAndTxrCommute : Prop :=
  ∀ (b : Byte) (s : State), s.Inv → ∃ t u v,
    exec (.rxc b) s = .next t ∧ exec .txr t = .next v ∧ exec .txr s = .next u ∧ exec (.rxc b) u = .next v

/-! ## The sweep -/

/-- R93: a sweep that F begins with no command held, whose handlers issue no command, with no event between its moves, calls
the handlers of exactly the triggered entries, each once with its own context, in ascending position; it ends after
n_ent + 1 tests; the bits of the entries are then 0, and every other trigger bit and the table are as before. -/
def Obligations.QuietSweepCallsTriggeredEntriesInOrder : Prop :=
  ∀ s : State, s.Inv → s.cfg.matchEnabled = true → s.held = none → ∃ (n : Nat) (x : Sweep),
    n ≤ 3 * s.nEnt + 1 ∧
    Sweep.run quietHandlers (List.replicate n .foreground) (Sweep.start s) = .next x ∧
    x.point = .done ∧
    x.calls = (s.table.zipIdx.filter fun p => s.trig.getLsbD p.2).map (fun p => (p.1.handler, p.1.ctx)) ∧
    x.block.table = s.table ∧
    ∀ k, x.block.trig.getLsbD k = (s.trig.getLsbD k && decide (s.nEnt ≤ k))

/-- R116: a match of entry i between MTRIG i and MCLR i is lost: whatever RXC did, the bit is 0 after MCLR i, and the answer
of a following MTRIG i says so. -/
def Obligations.MatchBetweenTestAndClearIsLost : Prop :=
  ∀ (b : Byte) (i : Nat) (e : Entry) (s t u : State), s.cfg.matchEnabled = true → i < s.cfg.maxPatterns →
    s.table[i]? = some e → exec (.mtrig i) s = .next t → exec (.rxc b) t = .next u →
    ∃ v w e', exec (.mclr i) u = .next v ∧ v.trig.getLsbD i = false ∧ v.table[i]? = some e' ∧
      e'.pat = e.pat ∧ e'.handler = e.handler ∧ exec (.mtrig i) v = .next w ∧ w.lastData[1]? = some 0

/-! ## Progress -/

/-- R112, R115: under weak fairness of TXR a held FLUSHTX ends with TX drained and a held SENDB ends. (The fairness is an
assumption of R112, not a behaviour of the block.) -/
def Obligations.HeldTxCommandsEndUnderFairness : Prop :=
  ∀ (σ : Nat → Turn) (run : Nat → State), (run 0).Inv → Execution σ run → FairTxr σ run →
    ((run 0).held = some .flushtx → ∃ n, (run n).held = none ∧ (run n).tx.count = 0) ∧
    (∀ b, (run 0).held = some (.sendb b) → ∃ n, (run n).held = none)
end

