-- ==== Sys2Proof/Laws/Decode.lean ====
section
/-!
SUPPORT. The fields of a command word as numbers, the words each operation is selected by (30_encoding.md R57), and what the
decoder answers on a word followed by its payload.
-/
namespace Sys2Proof

/-! ## Fields and bytes -/

theorem opField_toNat (w : Word) : (opField w).toNat = w.toNat / 4096 := by
  have := w.isLt
  simp only [opField, BitVec.extractLsb'_toNat, Nat.shiftRight_eq_div_pow]
  omega

theorem subField_toNat (w : Word) : (subField w).toNat = w.toNat / 256 % 16 := by
  simp only [subField, BitVec.extractLsb'_toNat, Nat.shiftRight_eq_div_pow]

theorem immField_toNat (w : Word) : (immField w).toNat = w.toNat % 256 := by
  simp [immField, BitVec.extractLsb'_toNat]

theorem n12Field_toNat (w : Word) : (n12Field w).toNat = w.toNat % 4096 := by
  simp [n12Field, BitVec.extractLsb'_toNat]

theorem subField_eq (w : Word) (n : Nat) (hn : n < 16) : subField w = BitVec.ofNat 4 n ↔ w.toNat / 256 % 16 = n := by
  rw [← BitVec.toNat_inj, subField_toNat, BitVec.toNat_ofNat, Nat.mod_eq_of_lt (by omega : n < 2 ^ 4)]

theorem immField_eq_zero (w : Word) : immField w = 0 ↔ w.toNat % 256 = 0 := by
  rw [← BitVec.toNat_inj, immField_toNat]
  simp

theorem n12Field_eq_zero (w : Word) : n12Field w = 0 ↔ w.toNat % 4096 = 0 := by
  rw [← BitVec.toNat_inj, n12Field_toNat]
  simp

/-- A word from its two bytes. -/
theorem append_toNat (hi lo : Byte) : (hi ++ lo : Word).toNat = hi.toNat * 256 + lo.toNat := by
  have := lo.isLt
  rw [BitVec.toNat_append, ← Nat.shiftLeft_add_eq_or_of_lt this, Nat.shiftLeft_eq]

@[simp] theorem bytes_append (w : Word) : (w.extractLsb' 8 8 ++ w.extractLsb' 0 8 : Word) = w := by
  apply BitVec.eq_of_toNat_eq
  have := w.isLt
  rw [append_toNat]
  simp only [BitVec.extractLsb'_toNat, Nat.shiftRight_eq_div_pow]
  omega

@[simp] theorem low_append (hi lo : Byte) : (hi ++ lo : Word).extractLsb' 0 8 = lo := by
  apply BitVec.eq_of_toNat_eq
  have := lo.isLt
  rw [BitVec.extractLsb'_toNat, append_toNat]
  simp only [Nat.shiftRight_eq_div_pow]
  omega

@[simp] theorem high_append (hi lo : Byte) : (hi ++ lo : Word).extractLsb' 8 8 = hi := by
  apply BitVec.eq_of_toNat_eq
  have := lo.isLt
  have := hi.isLt
  rw [BitVec.extractLsb'_toNat, append_toNat]
  simp only [Nat.shiftRight_eq_div_pow]
  omega

@[simp] theorem immField_append (hi lo : Byte) : immField (hi ++ lo) = lo := low_append hi lo

@[simp] theorem wordBytes_append (hi lo : Byte) : wordBytes (hi ++ lo) = [lo, hi] := by
  simp [wordBytes]

/-- A 32-bit value from its two words. -/
theorem append_toNat_32 (hi lo : Word) : (hi ++ lo : BitVec 32).toNat = hi.toNat * 65536 + lo.toNat := by
  have := lo.isLt
  rw [BitVec.toNat_append, ← Nat.shiftLeft_add_eq_or_of_lt this, Nat.shiftLeft_eq]

theorem dwordBytes_append (hi lo : Word) : dwordBytes (hi ++ lo : BitVec 32) = wordBytes lo ++ wordBytes hi := by
  have := hi.isLt
  have := lo.isLt
  simp only [dwordBytes, wordBytes, List.cons_append, List.nil_append, List.cons.injEq, and_true,
    ← BitVec.toNat_inj, BitVec.extractLsb'_toNat, append_toNat_32, Nat.shiftRight_eq_div_pow]
  omega

theorem wordAt_toNat (p : List Byte) (k : Nat) :
    (wordAt p k).toNat = (byteAt p (k + 1)).toNat * 256 + (byteAt p k).toNat := append_toNat _ _

theorem dwordAt_dwordBytes (r : BitVec 32) (p : List Byte) : dwordAt (dwordBytes r ++ p) 0 = r := by
  have := r.isLt
  apply BitVec.eq_of_toNat_eq
  rw [dwordAt, append_toNat_32, wordAt_toNat, wordAt_toNat]
  simp only [byteAt, dwordBytes, List.cons_append, List.nil_append, List.getD_cons_succ,
    List.getD_cons_zero, BitVec.extractLsb'_toNat, Nat.shiftRight_eq_div_pow]
  omega

@[simp] theorem wordBytes_length (w : Word) : (wordBytes w).length = 2 := rfl
@[simp] theorem dwordBytes_length (w : BitVec 32) : (dwordBytes w).length = 4 := rfl

theorem take_append_of_length {α : Type} {l m : List α} {n : Nat} (h : n = l.length) :
    (l ++ m).take n = l ∧ (l ++ m).drop n = m := by
  subst h
  simp

/-! ## The opcode map (R57) -/

/-- The words that select operation `k` (R57, R59), as numbers. -/
def Opcode.selectedBy (k : Opcode) (matchEnabled : Bool) (n : Nat) : Prop :=
  match k with
  | .sendb => n / 256 = 0x10
  | .sendnb => n / 256 = 0x20
  | .recvb => n = 0x3000
  | .recvnb => n = 0x4000
  | .peekb => n = 0x5000
  | .peeknb => n = 0x6000
  | .peekn => n / 4096 = 0x7
  | .flushrx => n = 0x8000
  | .flushtx => n = 0x9000
  | .setup => n = 0xA000
  | .mreg => n / 256 = 0xB0 ∧ matchEnabled = true
  | .mdereg => n / 256 = 0xC0 ∧ matchEnabled = true
  | .mtrig => n / 256 = 0xD0 ∧ matchEnabled = true
  | .mclr => n / 256 = 0xE0 ∧ matchEnabled = true
  | .stat => n = 0xF000
  | .rxc => n / 256 = 0xF1
  | .txr => n = 0xF200

/-- The fields that select operation `k`: `op`, `sub`, `n12` and `imm8` (R57). -/
def Opcode.fields (k : Opcode) (matchEnabled : Bool) (op sub n12 imm8 : Nat) : Prop :=
  match k with
  | .sendb => op = 1 ∧ sub = 0
  | .sendnb => op = 2 ∧ sub = 0
  | .recvb => op = 3 ∧ n12 = 0
  | .recvnb => op = 4 ∧ n12 = 0
  | .peekb => op = 5 ∧ n12 = 0
  | .peeknb => op = 6 ∧ n12 = 0
  | .peekn => op = 7
  | .flushrx => op = 8 ∧ n12 = 0
  | .flushtx => op = 9 ∧ n12 = 0
  | .setup => op = 10 ∧ n12 = 0
  | .mreg => op = 11 ∧ sub = 0 ∧ matchEnabled = true
  | .mdereg => op = 12 ∧ sub = 0 ∧ matchEnabled = true
  | .mtrig => op = 13 ∧ sub = 0 ∧ matchEnabled = true
  | .mclr => op = 14 ∧ sub = 0 ∧ matchEnabled = true
  | .stat => op = 15 ∧ sub = 0 ∧ imm8 = 0
  | .rxc => op = 15 ∧ sub = 1
  | .txr => op = 15 ∧ sub = 2 ∧ imm8 = 0

theorem decodeOpcode_fields (matchEnabled : Bool) (w : Word) (k : Opcode) :
    decodeOpcode matchEnabled w = some k ↔
      k.fields matchEnabled (w.toNat / 4096) (w.toNat / 256 % 16) (w.toNat % 4096) (w.toNat % 256) := by
  have s0 : (subField w = 0) ↔ w.toNat / 256 % 16 = 0 := subField_eq w 0 (by omega)
  have s1 : (subField w = 1) ↔ w.toNat / 256 % 16 = 1 := subField_eq w 1 (by omega)
  have s2 : (subField w = 2) ↔ w.toNat / 256 % 16 = 2 := subField_eq w 2 (by omega)
  unfold decodeOpcode
  simp only [opField_toNat, s0, s1, s2, immField_eq_zero, n12Field_eq_zero]
  generalize w.toNat / 4096 = op, w.toNat / 256 % 16 = sub, w.toNat % 4096 = n12, w.toNat % 256 = imm8
  clear s0 s1 s2
  split <;> (repeat' split) <;> cases k <;> simp_all [Opcode.fields]

/-- The decode algorithm of R58 selects an operation exactly on the words of the opcode map of R57. -/
theorem decodeOpcode_eq_some (matchEnabled : Bool) (w : Word) (k : Opcode) :
    decodeOpcode matchEnabled w = some k ↔ k.selectedBy matchEnabled w.toNat := by
  have hw := w.isLt
  rw [decodeOpcode_fields]
  cases matchEnabled <;> cases k <;>
    simp only [Opcode.fields, Opcode.selectedBy, Bool.false_eq_true, and_false, and_true] <;> omega

/-- Reading a word and what follows it. -/
theorem decode_wordBytes (matchEnabled : Bool) (p : Port) (w : Word) (tail : List Byte) :
    decode matchEnabled p (wordBytes w ++ tail) =
      match decodeWord matchEnabled p w with
      | .illegal => .illegal tail
      | .refuse => .refused
      | .legal k =>
        if tail.length < payloadLength k w then .incomplete
        else .unit (assemble k w (tail.take (payloadLength k w))) (tail.drop (payloadLength k w)) := by
  simp only [wordBytes, List.cons_append, List.nil_append, decode, bytes_append] <;> rfl

/-- A word that selects a command operation is legal on the command port. -/
theorem decodeWord_command {matchEnabled : Bool} {w : Word} {k : Opcode} (h : k.selectedBy matchEnabled w.toNat)
    (hk : k.isEvent = false) : decodeWord matchEnabled .command w = .legal k := by
  simp [decodeWord, (decodeOpcode_eq_some matchEnabled w k).mpr h, hk]

/-- A word that selects an event operation is legal on the event port. -/
theorem decodeWord_event {matchEnabled : Bool} {w : Word} {k : Opcode} (h : k.selectedBy matchEnabled w.toNat)
    (hk : k.isEvent = true) : decodeWord matchEnabled .event w = .legal k := by
  simp [decodeWord, (decodeOpcode_eq_some matchEnabled w k).mpr h, hk]

/-- Everything a legal verdict says of the word. -/
theorem decodeWord_legal {matchEnabled : Bool} {p : Port} {w : Word} {k : Opcode}
    (h : decodeWord matchEnabled p w = .legal k) :
    k.selectedBy matchEnabled w.toNat ∧ (p = .command ∧ k.isEvent = false ∨ p = .event ∧ k.isEvent = true) := by
  rw [← decodeOpcode_eq_some]
  unfold decodeWord at h
  split at h <;> (try split at h) <;> simp_all

/-- A legal word followed by exactly its payload and more is a whole unit. -/
theorem decode_unit {matchEnabled : Bool} {p : Port} {w : Word} {k : Opcode} {payload rest : List Byte}
    (h : decodeWord matchEnabled p w = .legal k) (hl : payloadLength k w = payload.length) :
    decode matchEnabled p (wordBytes w ++ (payload ++ rest)) = .unit (assemble k w payload) rest := by
  rw [decode_wordBytes, h]
  simp [hl]

/-- The command port takes or answers every word; only the event port refuses (R58). -/
theorem decode_command_not_refused (matchEnabled : Bool) (bytes : List Byte) :
    decode matchEnabled .command bytes ≠ .refused := by
  match bytes with
  | [] => nofun
  | [_] => nofun
  | lo :: hi :: tail =>
    simp only [decode, decodeWord]
    cases decodeOpcode matchEnabled (hi ++ lo) with
    | none => simp
    | some k =>
      cases hk : k.isEvent with
      | true => simp [hk]
      | false => simp only [hk, Bool.false_eq_true, if_false]; split <;> simp

/-- Everything a decoded unit says of the bytes it came from. -/
theorem decode_eq_unit {matchEnabled : Bool} {p : Port} {bytes rest : List Byte} {i : Instr}
    (h : decode matchEnabled p bytes = .unit i rest) :
    ∃ w k payload, bytes = wordBytes w ++ (payload ++ rest) ∧ decodeWord matchEnabled p w = .legal k ∧
      payload.length = payloadLength k w ∧ i = assemble k w payload := by
  match bytes with
  | [] => cases h
  | [_] => cases h
  | lo :: hi :: tail =>
    have e : lo :: hi :: tail = wordBytes (hi ++ lo) ++ tail := by simp
    rw [e, decode_wordBytes] at h
    cases hk : decodeWord matchEnabled p (hi ++ lo) with
    | illegal => rw [hk] at h; cases h
    | refuse => rw [hk] at h; cases h
    | legal k =>
      rw [hk] at h
      dsimp only at h
      split at h
      · cases h
      · next hlen =>
        cases h
        refine ⟨hi ++ lo, k, tail.take (payloadLength k (hi ++ lo)), ?_, hk, ?_, rfl⟩
        · simp
        · rw [List.length_take]
          omega

end Sys2Proof
end

