-- ==== Sys2Proof/Laws/State.lean ====
section
/-!
SUPPORT. One lemma per field per update of State, each true by rfl, so that no later proof unfolds a record update.
-/
namespace Sys2Proof.Machine

/-! ## setRx -/

@[simp] theorem State.setRx_cfg (s : State) (r : Ring) : (s.setRx r).cfg = s.cfg := rfl
@[simp] theorem State.setRx_rx (s : State) (r : Ring) : (s.setRx r).rx = r := rfl
@[simp] theorem State.setRx_tx (s : State) (r : Ring) : (s.setRx r).tx = s.tx := rfl
@[simp] theorem State.setRx_rxie (s : State) (r : Ring) : (s.setRx r).rxie = s.rxie := rfl
@[simp] theorem State.setRx_txie (s : State) (r : Ring) : (s.setRx r).txie = s.txie := rfl
@[simp] theorem State.setRx_table (s : State) (r : Ring) : (s.setRx r).table = s.table := rfl
@[simp] theorem State.setRx_trig (s : State) (r : Ring) : (s.setRx r).trig = s.trig := rfl
@[simp] theorem State.setRx_held (s : State) (r : Ring) : (s.setRx r).held = s.held := rfl
@[simp] theorem State.setRx_cmdIn (s : State) (r : Ring) : (s.setRx r).cmdIn = s.cmdIn := rfl
@[simp] theorem State.setRx_turns (s : State) (r : Ring) : (s.setRx r).turns = s.turns := rfl
@[simp] theorem State.setRx_responses (s : State) (r : Ring) : (s.setRx r).responses = s.responses := rfl
@[simp] theorem State.setRx_portOut (s : State) (r : Ring) : (s.setRx r).portOut = s.portOut := rfl

/-! ## setTx -/

@[simp] theorem State.setTx_cfg (s : State) (r : Ring) : (s.setTx r).cfg = s.cfg := rfl
@[simp] theorem State.setTx_rx (s : State) (r : Ring) : (s.setTx r).rx = s.rx := rfl
@[simp] theorem State.setTx_tx (s : State) (r : Ring) : (s.setTx r).tx = r := rfl
@[simp] theorem State.setTx_rxie (s : State) (r : Ring) : (s.setTx r).rxie = s.rxie := rfl
@[simp] theorem State.setTx_txie (s : State) (r : Ring) : (s.setTx r).txie = s.txie := rfl
@[simp] theorem State.setTx_table (s : State) (r : Ring) : (s.setTx r).table = s.table := rfl
@[simp] theorem State.setTx_trig (s : State) (r : Ring) : (s.setTx r).trig = s.trig := rfl
@[simp] theorem State.setTx_held (s : State) (r : Ring) : (s.setTx r).held = s.held := rfl
@[simp] theorem State.setTx_cmdIn (s : State) (r : Ring) : (s.setTx r).cmdIn = s.cmdIn := rfl
@[simp] theorem State.setTx_turns (s : State) (r : Ring) : (s.setTx r).turns = s.turns := rfl
@[simp] theorem State.setTx_responses (s : State) (r : Ring) : (s.setTx r).responses = s.responses := rfl
@[simp] theorem State.setTx_portOut (s : State) (r : Ring) : (s.setTx r).portOut = s.portOut := rfl

/-! ## setRxie -/

@[simp] theorem State.setRxie_cfg (s : State) (v : Bool) : (s.setRxie v).cfg = s.cfg := rfl
@[simp] theorem State.setRxie_rx (s : State) (v : Bool) : (s.setRxie v).rx = s.rx := rfl
@[simp] theorem State.setRxie_tx (s : State) (v : Bool) : (s.setRxie v).tx = s.tx := rfl
@[simp] theorem State.setRxie_rxie (s : State) (v : Bool) : (s.setRxie v).rxie = v := rfl
@[simp] theorem State.setRxie_txie (s : State) (v : Bool) : (s.setRxie v).txie = s.txie := rfl
@[simp] theorem State.setRxie_table (s : State) (v : Bool) : (s.setRxie v).table = s.table := rfl
@[simp] theorem State.setRxie_trig (s : State) (v : Bool) : (s.setRxie v).trig = s.trig := rfl
@[simp] theorem State.setRxie_held (s : State) (v : Bool) : (s.setRxie v).held = s.held := rfl
@[simp] theorem State.setRxie_cmdIn (s : State) (v : Bool) : (s.setRxie v).cmdIn = s.cmdIn := rfl
@[simp] theorem State.setRxie_turns (s : State) (v : Bool) : (s.setRxie v).turns = s.turns := rfl
@[simp] theorem State.setRxie_responses (s : State) (v : Bool) : (s.setRxie v).responses = s.responses := rfl
@[simp] theorem State.setRxie_portOut (s : State) (v : Bool) : (s.setRxie v).portOut = s.portOut := rfl

/-! ## setTxie -/

@[simp] theorem State.setTxie_cfg (s : State) (v : Bool) : (s.setTxie v).cfg = s.cfg := rfl
@[simp] theorem State.setTxie_rx (s : State) (v : Bool) : (s.setTxie v).rx = s.rx := rfl
@[simp] theorem State.setTxie_tx (s : State) (v : Bool) : (s.setTxie v).tx = s.tx := rfl
@[simp] theorem State.setTxie_rxie (s : State) (v : Bool) : (s.setTxie v).rxie = s.rxie := rfl
@[simp] theorem State.setTxie_txie (s : State) (v : Bool) : (s.setTxie v).txie = v := rfl
@[simp] theorem State.setTxie_table (s : State) (v : Bool) : (s.setTxie v).table = s.table := rfl
@[simp] theorem State.setTxie_trig (s : State) (v : Bool) : (s.setTxie v).trig = s.trig := rfl
@[simp] theorem State.setTxie_held (s : State) (v : Bool) : (s.setTxie v).held = s.held := rfl
@[simp] theorem State.setTxie_cmdIn (s : State) (v : Bool) : (s.setTxie v).cmdIn = s.cmdIn := rfl
@[simp] theorem State.setTxie_turns (s : State) (v : Bool) : (s.setTxie v).turns = s.turns := rfl
@[simp] theorem State.setTxie_responses (s : State) (v : Bool) : (s.setTxie v).responses = s.responses := rfl
@[simp] theorem State.setTxie_portOut (s : State) (v : Bool) : (s.setTxie v).portOut = s.portOut := rfl

/-! ## setMatch -/

@[simp] theorem State.setMatch_cfg (s : State) (t : List Entry) (m : BitVec 32) : (s.setMatch t m).cfg = s.cfg := rfl
@[simp] theorem State.setMatch_rx (s : State) (t : List Entry) (m : BitVec 32) : (s.setMatch t m).rx = s.rx := rfl
@[simp] theorem State.setMatch_tx (s : State) (t : List Entry) (m : BitVec 32) : (s.setMatch t m).tx = s.tx := rfl
@[simp] theorem State.setMatch_rxie (s : State) (t : List Entry) (m : BitVec 32) : (s.setMatch t m).rxie = s.rxie := rfl
@[simp] theorem State.setMatch_txie (s : State) (t : List Entry) (m : BitVec 32) : (s.setMatch t m).txie = s.txie := rfl
@[simp] theorem State.setMatch_table (s : State) (t : List Entry) (m : BitVec 32) : (s.setMatch t m).table = t := rfl
@[simp] theorem State.setMatch_trig (s : State) (t : List Entry) (m : BitVec 32) : (s.setMatch t m).trig = m := rfl
@[simp] theorem State.setMatch_held (s : State) (t : List Entry) (m : BitVec 32) : (s.setMatch t m).held = s.held := rfl
@[simp] theorem State.setMatch_cmdIn (s : State) (t : List Entry) (m : BitVec 32) : (s.setMatch t m).cmdIn = s.cmdIn := rfl
@[simp] theorem State.setMatch_turns (s : State) (t : List Entry) (m : BitVec 32) : (s.setMatch t m).turns = s.turns := rfl
@[simp] theorem State.setMatch_responses (s : State) (t : List Entry) (m : BitVec 32) : (s.setMatch t m).responses = s.responses := rfl
@[simp] theorem State.setMatch_portOut (s : State) (t : List Entry) (m : BitVec 32) : (s.setMatch t m).portOut = s.portOut := rfl

/-! ## callPort -/

@[simp] theorem State.callPort_cfg (s : State) (cs : List PortCall) : (s.callPort cs).cfg = s.cfg := rfl
@[simp] theorem State.callPort_rx (s : State) (cs : List PortCall) : (s.callPort cs).rx = s.rx := rfl
@[simp] theorem State.callPort_tx (s : State) (cs : List PortCall) : (s.callPort cs).tx = s.tx := rfl
@[simp] theorem State.callPort_rxie (s : State) (cs : List PortCall) : (s.callPort cs).rxie = s.rxie := rfl
@[simp] theorem State.callPort_txie (s : State) (cs : List PortCall) : (s.callPort cs).txie = s.txie := rfl
@[simp] theorem State.callPort_table (s : State) (cs : List PortCall) : (s.callPort cs).table = s.table := rfl
@[simp] theorem State.callPort_trig (s : State) (cs : List PortCall) : (s.callPort cs).trig = s.trig := rfl
@[simp] theorem State.callPort_held (s : State) (cs : List PortCall) : (s.callPort cs).held = s.held := rfl
@[simp] theorem State.callPort_cmdIn (s : State) (cs : List PortCall) : (s.callPort cs).cmdIn = s.cmdIn := rfl
@[simp] theorem State.callPort_turns (s : State) (cs : List PortCall) : (s.callPort cs).turns = s.turns := rfl
@[simp] theorem State.callPort_responses (s : State) (cs : List PortCall) : (s.callPort cs).responses = s.responses := rfl
@[simp] theorem State.callPort_portOut (s : State) (cs : List PortCall) : (s.callPort cs).portOut = s.portOut ++ cs := rfl

/-! ## respond -/

@[simp] theorem State.respond_cfg (s : State) (st : Status) (d : List Byte) : (s.respond st d).cfg = s.cfg := rfl
@[simp] theorem State.respond_rx (s : State) (st : Status) (d : List Byte) : (s.respond st d).rx = s.rx := rfl
@[simp] theorem State.respond_tx (s : State) (st : Status) (d : List Byte) : (s.respond st d).tx = s.tx := rfl
@[simp] theorem State.respond_rxie (s : State) (st : Status) (d : List Byte) : (s.respond st d).rxie = s.rxie := rfl
@[simp] theorem State.respond_txie (s : State) (st : Status) (d : List Byte) : (s.respond st d).txie = s.txie := rfl
@[simp] theorem State.respond_table (s : State) (st : Status) (d : List Byte) : (s.respond st d).table = s.table := rfl
@[simp] theorem State.respond_trig (s : State) (st : Status) (d : List Byte) : (s.respond st d).trig = s.trig := rfl
@[simp] theorem State.respond_held (s : State) (st : Status) (d : List Byte) : (s.respond st d).held = none := rfl
@[simp] theorem State.respond_cmdIn (s : State) (st : Status) (d : List Byte) : (s.respond st d).cmdIn = s.cmdIn := rfl
@[simp] theorem State.respond_turns (s : State) (st : Status) (d : List Byte) : (s.respond st d).turns = s.turns := rfl
@[simp] theorem State.respond_responses (s : State) (st : Status) (d : List Byte) : (s.respond st d).responses = s.responses ++ [{ status := st, data := d }] := rfl
@[simp] theorem State.respond_portOut (s : State) (st : Status) (d : List Byte) : (s.respond st d).portOut = s.portOut := rfl

/-! ## hold -/

@[simp] theorem State.hold_cfg (s : State) (i : Instr) : (s.hold i).cfg = s.cfg := rfl
@[simp] theorem State.hold_rx (s : State) (i : Instr) : (s.hold i).rx = s.rx := rfl
@[simp] theorem State.hold_tx (s : State) (i : Instr) : (s.hold i).tx = s.tx := rfl
@[simp] theorem State.hold_rxie (s : State) (i : Instr) : (s.hold i).rxie = s.rxie := rfl
@[simp] theorem State.hold_txie (s : State) (i : Instr) : (s.hold i).txie = s.txie := rfl
@[simp] theorem State.hold_table (s : State) (i : Instr) : (s.hold i).table = s.table := rfl
@[simp] theorem State.hold_trig (s : State) (i : Instr) : (s.hold i).trig = s.trig := rfl
@[simp] theorem State.hold_held (s : State) (i : Instr) : (s.hold i).held = some i := rfl
@[simp] theorem State.hold_cmdIn (s : State) (i : Instr) : (s.hold i).cmdIn = s.cmdIn := rfl
@[simp] theorem State.hold_turns (s : State) (i : Instr) : (s.hold i).turns = s.turns := rfl
@[simp] theorem State.hold_responses (s : State) (i : Instr) : (s.hold i).responses = s.responses := rfl
@[simp] theorem State.hold_portOut (s : State) (i : Instr) : (s.hold i).portOut = s.portOut := rfl

/-! ## advanceAll -/

@[simp] theorem State.advanceAll_cfg (s : State) (b : Byte) : (s.advanceAll b).cfg = s.cfg := rfl
@[simp] theorem State.advanceAll_rx (s : State) (b : Byte) : (s.advanceAll b).rx = s.rx := rfl
@[simp] theorem State.advanceAll_tx (s : State) (b : Byte) : (s.advanceAll b).tx = s.tx := rfl
@[simp] theorem State.advanceAll_rxie (s : State) (b : Byte) : (s.advanceAll b).rxie = s.rxie := rfl
@[simp] theorem State.advanceAll_txie (s : State) (b : Byte) : (s.advanceAll b).txie = s.txie := rfl
@[simp] theorem State.advanceAll_table (s : State) (b : Byte) : (s.advanceAll b).table = advanceTable s.table b := rfl
@[simp] theorem State.advanceAll_trig (s : State) (b : Byte) : (s.advanceAll b).trig = raiseTrig s.trig (firesAt s.table b) := rfl
@[simp] theorem State.advanceAll_held (s : State) (b : Byte) : (s.advanceAll b).held = s.held := rfl
@[simp] theorem State.advanceAll_cmdIn (s : State) (b : Byte) : (s.advanceAll b).cmdIn = s.cmdIn := rfl
@[simp] theorem State.advanceAll_turns (s : State) (b : Byte) : (s.advanceAll b).turns = s.turns := rfl
@[simp] theorem State.advanceAll_responses (s : State) (b : Byte) : (s.advanceAll b).responses = s.responses := rfl
@[simp] theorem State.advanceAll_portOut (s : State) (b : Byte) : (s.advanceAll b).portOut = s.portOut := rfl

/-! ## supply -/

@[simp] theorem State.supply_cfg (s : State) (bs : List Byte) (ts : List Turn) : (s.supply bs ts).cfg = s.cfg := rfl
@[simp] theorem State.supply_rx (s : State) (bs : List Byte) (ts : List Turn) : (s.supply bs ts).rx = s.rx := rfl
@[simp] theorem State.supply_tx (s : State) (bs : List Byte) (ts : List Turn) : (s.supply bs ts).tx = s.tx := rfl
@[simp] theorem State.supply_rxie (s : State) (bs : List Byte) (ts : List Turn) : (s.supply bs ts).rxie = s.rxie := rfl
@[simp] theorem State.supply_txie (s : State) (bs : List Byte) (ts : List Turn) : (s.supply bs ts).txie = s.txie := rfl
@[simp] theorem State.supply_table (s : State) (bs : List Byte) (ts : List Turn) : (s.supply bs ts).table = s.table := rfl
@[simp] theorem State.supply_trig (s : State) (bs : List Byte) (ts : List Turn) : (s.supply bs ts).trig = s.trig := rfl
@[simp] theorem State.supply_held (s : State) (bs : List Byte) (ts : List Turn) : (s.supply bs ts).held = s.held := rfl
@[simp] theorem State.supply_cmdIn (s : State) (bs : List Byte) (ts : List Turn) : (s.supply bs ts).cmdIn = s.cmdIn ++ bs := rfl
@[simp] theorem State.supply_turns (s : State) (bs : List Byte) (ts : List Turn) : (s.supply bs ts).turns = s.turns ++ ts := rfl
@[simp] theorem State.supply_responses (s : State) (bs : List Byte) (ts : List Turn) : (s.supply bs ts).responses = s.responses := rfl
@[simp] theorem State.supply_portOut (s : State) (bs : List Byte) (ts : List Turn) : (s.supply bs ts).portOut = s.portOut := rfl

/-! ## n_ent and the reset state -/

theorem State.nEnt_eq (s : State) : s.nEnt = s.table.length := rfl

@[simp] theorem State.setRx_nEnt (s : State) (r : Ring) : (s.setRx r).nEnt = s.nEnt := rfl
@[simp] theorem State.setTx_nEnt (s : State) (r : Ring) : (s.setTx r).nEnt = s.nEnt := rfl
@[simp] theorem State.setRxie_nEnt (s : State) (v : Bool) : (s.setRxie v).nEnt = s.nEnt := rfl
@[simp] theorem State.setTxie_nEnt (s : State) (v : Bool) : (s.setTxie v).nEnt = s.nEnt := rfl
@[simp] theorem State.setMatch_nEnt (s : State) (t : List Entry) (m : BitVec 32) : (s.setMatch t m).nEnt = t.length := rfl
@[simp] theorem State.callPort_nEnt (s : State) (cs : List PortCall) : (s.callPort cs).nEnt = s.nEnt := rfl
@[simp] theorem State.respond_nEnt (s : State) (st : Status) (d : List Byte) : (s.respond st d).nEnt = s.nEnt := rfl
@[simp] theorem State.hold_nEnt (s : State) (i : Instr) : (s.hold i).nEnt = s.nEnt := rfl
@[simp] theorem State.advanceAll_nEnt (s : State) (b : Byte) : (s.advanceAll b).nEnt = s.nEnt := by
  simp [State.nEnt, advanceTable]

theorem State.respondIllegal_eq (s : State) : s.respondIllegal = s.respond .illegal [] := rfl

@[simp] theorem State.resetWith_cfg (c : Config) : (State.resetWith c).cfg = c := rfl
@[simp] theorem State.resetWith_rx (c : Config) : (State.resetWith c).rx = Ring.empty := rfl
@[simp] theorem State.resetWith_tx (c : Config) : (State.resetWith c).tx = Ring.empty := rfl
@[simp] theorem State.resetWith_rxie (c : Config) : (State.resetWith c).rxie = false := rfl
@[simp] theorem State.resetWith_txie (c : Config) : (State.resetWith c).txie = false := rfl
@[simp] theorem State.resetWith_table (c : Config) : (State.resetWith c).table = [] := rfl
@[simp] theorem State.resetWith_trig (c : Config) : (State.resetWith c).trig = 0 := rfl
@[simp] theorem State.resetWith_held (c : Config) : (State.resetWith c).held = none := rfl

end Sys2Proof.Machine
end

