-- ==== Sys2Proof/Laws/Hold.lean ====
section
/-!
SUPPORT. Holding commands (30_encoding.md R54): the condition of each, what `hold until C` can answer, and when a held command
is due.
-/
namespace Sys2Proof.Machine

/-! ## The conditions -/

@[simp] theorem State.ready_sendb (s : State) (b : Byte) : s.ready (.sendb b) = decide (s.tx.count < s.cfg.txSize) := rfl
@[simp] theorem State.ready_recvb (s : State) : s.ready .recvb = decide (0 < s.rx.count) := rfl
@[simp] theorem State.ready_peekb (s : State) : s.ready .peekb = decide (0 < s.rx.count) := rfl
@[simp] theorem State.ready_peekn (s : State) (n : Nat) :
    s.ready (.peekn n) = decide (min n s.cfg.rxSize ≤ s.rx.count) := rfl
@[simp] theorem State.ready_flushtx (s : State) : s.ready .flushtx = decide (s.tx.count = 0) := rfl

/-! ## hold until C -/

theorem State.holdUntil_ready {s : State} {i : Instr} (e : Result) (h : s.ready i = true) : s.holdUntil i e = e := by
  simp [State.holdUntil, h]

theorem State.holdUntil_waiting {s : State} {i : Instr} (e : Result) (h : s.ready i = false) :
    s.holdUntil i e = .next (s.hold i) := by
  simp [State.holdUntil, h]

/-- Everything `hold until C` can answer. -/
theorem State.holdUntil_cases (s : State) (i : Instr) (e : Result) :
    (s.ready i = true ∧ s.holdUntil i e = e) ∨ (s.ready i = false ∧ s.holdUntil i e = .next (s.hold i)) := by
  cases h : s.ready i with
  | true => exact .inl ⟨rfl, State.holdUntil_ready e h⟩
  | false => exact .inr ⟨rfl, State.holdUntil_waiting e h⟩

/-- Whatever `hold until C` answers beside a next state, its effect answers. -/
theorem State.holdUntil_not_next {s : State} {i : Instr} {e : Result} :
    (∀ f, s.holdUntil i e = .fault f → s.ready i = true ∧ e = .fault f) ∧
    (∀ r, s.holdUntil i e = .refused r → e = .refused r) := by
  obtain ⟨h, eq⟩ | ⟨h, eq⟩ := s.holdUntil_cases i e <;> rw [eq]
  · exact ⟨fun _ he => ⟨h, he⟩, fun _ he => he⟩
  · exact ⟨nofun, nofun⟩

/-! ## The held command that is due -/

theorem State.due_eq_some {s : State} {i : Instr} : s.due = some i ↔ s.held = some i ∧ s.ready i = true := by
  unfold State.due
  cases s.held with
  | none => simp
  | some j =>
    by_cases h : s.ready j = true
    · simp only [h, if_true, Option.some.injEq]
      exact ⟨fun e => ⟨e, e ▸ h⟩, fun e => e.1⟩
    · simp only [h, Option.some.injEq]
      exact ⟨nofun, fun e => absurd (e.1 ▸ e.2) h⟩

theorem State.due_of_idle {s : State} (h : s.held = none) : s.due = none := by
  simp [State.due, h]

theorem State.due_of_waiting {s : State} {i : Instr} (h : s.held = some i) (w : s.ready i = false) : s.due = none := by
  simp [State.due, h, w]

end Sys2Proof.Machine
end

