-- ==== Sys2Proof/Laws/Flags.lean ====
section
/-!
SUPPORT. The trigger bitmask bit by bit, and the CTRL byte.
-/
namespace Sys2Proof.Machine

@[simp] theorem getLsbD_maskOfBits (f : Nat → Bool) (n j : Nat) :
    (maskOfBits f n).getLsbD j = (decide (j < n) && f j) := by
  induction n with
  | zero => simp [maskOfBits]
  | succ n ih =>
    rw [maskOfBits, BitVec.getLsbD_cons, ih]
    by_cases h : j = n
    · simp [h]
    · have : (j < n + 1) ↔ (j < n) := by omega
      simp [h, this]

@[simp] theorem getLsbD_trigOfBits (f : Nat → Bool) (j : Nat) :
    (trigOfBits f).getLsbD j = (decide (j < 32) && f j) := getLsbD_maskOfBits f 32 j

theorem trig_bit_lt {t : BitVec 32} {j : Nat} (h : t.getLsbD j = true) : j < 32 := BitVec.lt_of_getLsbD h

theorem getLsbD_clearTrig (t : BitVec 32) (k j : Nat) :
    (clearTrig t k).getLsbD j = (t.getLsbD j && decide (j ≠ k)) := by
  rw [clearTrig, getLsbD_trigOfBits]
  cases h : t.getLsbD j
  · simp
  · simp [trig_bit_lt h]

theorem getLsbD_raiseTrig (t : BitVec 32) (f : Nat → Bool) (j : Nat) :
    (raiseTrig t f).getLsbD j = (decide (j < 32) && (t.getLsbD j || f j)) := by
  rw [raiseTrig, getLsbD_trigOfBits]

theorem getLsbD_compactTrig_shift (k n j : Nat) (t : BitVec 32) :
    (compactTrig .shiftWithEntries k n t).getLsbD j =
      if j < k then t.getLsbD j else if j + 1 < n then decide (j < 32) && t.getLsbD (j + 1)
      else if j + 1 = n then false else t.getLsbD j := by
  rw [compactTrig, getLsbD_trigOfBits]
  by_cases h : j < 32
  · simp [h]
  · have : t.getLsbD j = false := by
      cases ht : t.getLsbD j
      · rfl
      · exact absurd (trig_bit_lt ht) h
    simp [h, this]

theorem compactTrig_stay (k n : Nat) (t : BitVec 32) : compactTrig .stayByPosition k n t = t := rfl

end Sys2Proof.Machine
end

