-- ==== Sys2Proof/Laws/Match.lean ====
section
/-!
SUPPORT. The match steps (42_match.md R82-R88): what a step does to one entry, to the table and to its invariant.
-/
namespace Sys2Proof.Machine

/-- The automaton never rests at full progress (R24). -/
theorem advanceEntry_lt {e : Entry} (b : Byte) (h : 1 ≤ e.pat.length) (hp : e.prog < e.pat.length) :
    (advanceEntry e b).1 < e.pat.length := by
  unfold advanceEntry
  split
  · split <;> dsimp only <;> omega
  · split
    · next _ c => dsimp only; omega
    · dsimp only; omega

/-- One step of `advance_all` keeps an entry's invariant (R24). -/
theorem Entry.Inv.step {e : Entry} {n : Nat} (h : e.Inv n) (b : Byte) :
    Entry.Inv { e with prog := (entryStep e b).1 } n := by
  refine ⟨h.lenLe, ?_, ?_, h.handlerPresent⟩
  · intro pos
    dsimp only at pos ⊢
    rw [entryStep, if_neg (by omega)]
    exact advanceEntry_lt b pos (h.progLt pos)
  · intro zero
    dsimp only at zero ⊢
    rw [entryStep, if_pos zero]
    exact h.progZero zero

@[simp] theorem length_advanceTable (t : List Entry) (b : Byte) : (advanceTable t b).length = t.length := by
  simp [advanceTable]

theorem getElem?_advanceTable (t : List Entry) (b : Byte) (k : Nat) :
    (advanceTable t b)[k]? = (t[k]?).map fun e => { e with prog := (entryStep e b).1 } := by
  simp [advanceTable]

theorem firesAt_lt {t : List Entry} {b : Byte} {k : Nat} (h : firesAt t b k = true) : k < t.length := by
  unfold firesAt at h
  split at h
  · next e he => exact (List.getElem?_eq_some_iff.mp he).1
  · cases h

/-- What `find_entry` finds is a position of the table. -/
theorem findEntry_lt {t : List Entry} {q : List Byte} {k : Nat} (h : findEntry t q = some k) : k < t.length := by
  rw [findEntry, List.findIdx?_eq_some_iff_getElem] at h
  exact h.1

/-- The trigger bits a deregistration leaves (R88), when none is set above the table before it. -/
theorem compactTrig_above {mode : TrigCompaction} {k n j : Nat} {t : BitVec 32}
    (above : t.getLsbD j = false) (next : t.getLsbD (j + 1) = false) :
    (compactTrig mode k n t).getLsbD j = false := by
  cases mode
  · rw [getLsbD_compactTrig_shift, above, next]
    simp
  · exact above

end Sys2Proof.Machine
end

