-- ==== Sys2Proof/Laws/Memory.lean ====
section
/-!
SUPPORT. Ring storage: a read after a write, and that a write keeps the canonical form.
-/
namespace Sys2Proof.Machine

@[simp] theorem Memory.read_nil (i : Nat) : Memory.read [] i = none := rfl

theorem Memory.read_write_same (m : Memory) (i : Nat) (v : Byte) : (m.write i v).read i = some v := by
  induction m with
  | nil => simp [Memory.write, Memory.read]
  | cons c m ih =>
    unfold Memory.write
    split
    · simp [Memory.read]
    · split
      · simp [Memory.read]
      · rename_i h1 h2
        simp [Memory.read, h2, ih]

theorem Memory.read_write_other (m : Memory) (i k : Nat) (v : Byte) (h : k ≠ i) :
    (m.write i v).read k = m.read k := by
  induction m with
  | nil => simp [Memory.write, Memory.read, Ne.symm h]
  | cons c m ih =>
    unfold Memory.write
    split
    · simp [Memory.read, Ne.symm h]
    · split
      · rename_i h1 h2
        simp [Memory.read, Ne.symm h, h2]
      · simp [Memory.read, ih]

theorem Memory.read_write (m : Memory) (i k : Nat) (v : Byte) :
    (m.write i v).read k = if k = i then some v else m.read k := by
  split
  · next h => rw [h]; exact m.read_write_same i v
  · next h => exact m.read_write_other i k v h

/-- A cell once written stays written. -/
theorem Memory.isSome_write (m : Memory) (i k : Nat) (v : Byte) :
    ((m.write i v).read k).isSome = true ↔ k = i ∨ (m.read k).isSome = true := by
  rw [Memory.read_write]
  split <;> simp_all

theorem Memory.wf_cons (c : Host.Cell) (m : Memory) :
    Memory.wf (c :: m) = true ↔ (∀ d ∈ m.head?, c.1 < d.1) ∧ Memory.wf m = true := by
  cases m with
  | nil => simp [Memory.wf]
  | cons d m => simp [Memory.wf]

theorem Memory.head_write (m : Memory) (i : Nat) (v : Byte) (j : Nat) (hj : j < i)
    (h : ∀ d ∈ m.head?, j < d.1) : ∀ d ∈ (m.write i v).head?, j < d.1 := by
  cases m with
  | nil => simp [Memory.write, hj]
  | cons c m =>
    unfold Memory.write
    split
    · simp [hj]
    · split
      · simp [hj]
      · simpa using h

theorem Memory.wf_write (m : Memory) (i : Nat) (v : Byte) (h : m.wf = true) : (m.write i v).wf = true := by
  induction m with
  | nil => simp [Memory.write, Memory.wf]
  | cons c m ih =>
    rw [Memory.wf_cons] at h
    unfold Memory.write
    split
    · next h1 => rw [Memory.wf_cons, Memory.wf_cons]; simp [h1]; exact ⟨by simpa using h.1, h.2⟩
    · split
      · next h1 h2 => rw [Memory.wf_cons]; exact ⟨by simpa [← h2] using h.1, h.2⟩
      · next h1 h2 =>
        rw [Memory.wf_cons]
        exact ⟨Memory.head_write m i v c.1 (by omega) h.1, ih h.2⟩

theorem memRead_ok (m : Memory) (i : Nat) (b : Byte) : memRead m i = .ok b ↔ m.read i = some b := by
  unfold memRead
  split <;> simp_all

theorem memRead_of_some {m : Memory} {i : Nat} {b : Byte} (h : m.read i = some b) : memRead m i = .ok b :=
  (memRead_ok m i b).mpr h

theorem memRead_of_none {m : Memory} {i : Nat} (h : m.read i = none) : memRead m i = .error (.unwrittenCell i) := by
  simp [memRead, h]

end Sys2Proof.Machine
end

