-- ==== Sys2Proof/Laws/Ring.lean ====
section
/-!
SUPPORT. One spec lemma per ring primitive (40_ringbuffer.md R63-R67), and that each keeps the ring's invariant.
-/
namespace Sys2Proof.Machine

/-! ## push_try -/

theorem Ring.pushTry_full {r : Ring} {N : Nat} (b : Byte) (h : r.count = N) : r.pushTry N b = (r, false) := by
  simp [Ring.pushTry, h]

theorem Ring.pushTry_room {r : Ring} {N : Nat} (b : Byte) (h : r.count ≠ N) :
    r.pushTry N b =
      ({ r with buf := r.buf.write r.inIdx b, inIdx := (r.inIdx + 1) % N, count := r.count + 1 }, true) := by
  simp [Ring.pushTry, h, advIdx]

theorem Ring.pushTry_pushed {r : Ring} {N : Nat} (b : Byte) : (r.pushTry N b).2 = true ↔ r.count ≠ N := by
  by_cases h : r.count = N
  · simp [Ring.pushTry_full b h, h]
  · simp [Ring.pushTry_room b h, h]

/-! ## pop and peek -/

theorem Ring.pop_empty {r : Ring} (N : Nat) (h : r.count = 0) : r.pop N = .ok (r, 0, false) := by
  simp [Ring.pop, h]

theorem Ring.pop_some {r : Ring} {b : Byte} (N : Nat) (h : r.count ≠ 0) (hb : r.buf.read r.outIdx = some b) :
    r.pop N = .ok ({ r with outIdx := (r.outIdx + 1) % N, count := r.count - 1 }, b, true) := by
  simp [Ring.pop, h, memRead_of_some hb, advIdx]

theorem Ring.pop_none {r : Ring} (N : Nat) (h : r.count ≠ 0) (hb : r.buf.read r.outIdx = none) :
    r.pop N = .error (.unwrittenCell r.outIdx) := by
  simp [Ring.pop, h, memRead_of_none hb]

/-- Everything `pop` can answer. -/
theorem Ring.pop_cases (r : Ring) (N : Nat) :
    (r.count = 0 ∧ r.pop N = .ok (r, 0, false)) ∨
    (∃ b, r.count ≠ 0 ∧ r.buf.read r.outIdx = some b ∧
      r.pop N = .ok ({ r with outIdx := (r.outIdx + 1) % N, count := r.count - 1 }, b, true)) ∨
    (r.count ≠ 0 ∧ r.buf.read r.outIdx = none ∧ r.pop N = .error (.unwrittenCell r.outIdx)) := by
  by_cases h : r.count = 0
  · exact .inl ⟨h, Ring.pop_empty N h⟩
  · cases hb : r.buf.read r.outIdx with
    | none => exact .inr (.inr ⟨h, rfl, Ring.pop_none N h hb⟩)
    | some b => exact .inr (.inl ⟨b, h, rfl, Ring.pop_some N h hb⟩)

/-- `peekRun` answers bytes exactly when every cell it reads holds one, and those bytes are the cells'. -/
theorem Ring.peekRun_ok (r : Ring) (N k n : Nat) (bs : List Byte) :
    r.peekRun N k n = .ok bs ↔
      bs.map some = (List.range n).map fun j => r.buf.read ((r.outIdx + (k + j)) % N) := by
  induction n generalizing k bs with
  | zero =>
    rw [Ring.peekRun]
    cases bs <;> simp
  | succ n ih =>
    have shift : ((fun j => r.buf.read ((r.outIdx + (k + j)) % N)) ∘ Nat.succ) =
        fun j => r.buf.read ((r.outIdx + (k + 1 + j)) % N) := by
      funext j
      simp only [Function.comp, Nat.succ_eq_add_one]
      congr 2
      omega
    rw [List.range_succ_eq_map, List.map_cons, List.map_map, shift, Ring.peekRun, Ring.peekAt]
    simp only [Nat.add_zero]
    cases hb : r.buf.read ((r.outIdx + k) % N) with
    | none => rw [memRead_of_none hb]; cases bs <;> simp
    | some b =>
      rw [memRead_of_some hb]
      cases hp : r.peekRun N (k + 1) n with
      | error f =>
        simp only [reduceCtorEq, false_iff]
        intro h
        cases bs with
        | nil => simp at h
        | cons c cs =>
          simp only [List.map_cons, List.cons.injEq] at h
          rw [(ih (k + 1) cs).mpr h.2] at hp
          cases hp
      | ok cs =>
        have hc := (ih (k + 1) cs).mp hp
        rw [← hc]
        cases bs with
        | nil => simp
        | cons d ds =>
          have inj : List.map some cs = List.map some ds ↔ cs = ds :=
            List.map_inj_right fun x y h => Option.some.inj h
          simp only [Except.ok.injEq, List.cons.injEq, List.map_cons, Option.some.injEq]
          rw [eq_comm (a := d), eq_comm (a := ds.map some), inj]

/-- Everything `peekRun` can answer. -/
theorem Ring.peekRun_cases (r : Ring) (N k n : Nat) :
    (∃ bs, r.peekRun N k n = .ok bs) ∨
    ∃ j, j < n ∧ r.buf.read ((r.outIdx + (k + j)) % N) = none ∧
      r.peekRun N k n = .error (.unwrittenCell ((r.outIdx + (k + j)) % N)) := by
  induction n generalizing k with
  | zero => exact .inl ⟨[], rfl⟩
  | succ n ih =>
    unfold Ring.peekRun Ring.peekAt
    cases hb : r.buf.read ((r.outIdx + k) % N) with
    | none =>
      refine .inr ⟨0, by omega, by simpa using hb, ?_⟩
      simp [memRead_of_none hb]
    | some b =>
      rw [memRead_of_some hb]
      obtain ⟨bs, h⟩ | ⟨j, hj, hn, h⟩ := ih (k + 1)
      · exact .inl ⟨b :: bs, by simp [h]⟩
      · have e : k + 1 + j = k + (j + 1) := by omega
        rw [e] at hn h
        exact .inr ⟨j + 1, by omega, hn, by simp [h]⟩

theorem Ring.peekRun_contents {r : Ring} {N n : Nat} {bs : List Byte} (hn : n ≤ r.count) :
    r.peekRun N 0 n = .ok bs ↔ bs.map some = (r.contents N).take n := by
  rw [Ring.peekRun_ok, Ring.contents, ← List.map_take, List.take_range, Nat.min_eq_left hn]
  simp

/-! ## reset -/

@[simp] theorem Ring.reset_buf (r : Ring) : r.reset.buf = r.buf := rfl
@[simp] theorem Ring.reset_inIdx (r : Ring) : r.reset.inIdx = 0 := rfl
@[simp] theorem Ring.reset_outIdx (r : Ring) : r.reset.outIdx = 0 := rfl
@[simp] theorem Ring.reset_count (r : Ring) : r.reset.count = 0 := rfl

/-! ## What a ring holds -/

@[simp] theorem Ring.length_contents (r : Ring) (N : Nat) : (r.contents N).length = r.count := by
  simp [Ring.contents]

theorem Ring.getElem?_contents (r : Ring) (N k : Nat) :
    (r.contents N)[k]? = if k < r.count then some (r.buf.read ((r.outIdx + k) % N)) else none := by
  simp only [Ring.contents, List.getElem?_map]
  split
  · next h => simp [List.getElem?_range h]
  · next h => simp [Nat.le_of_not_lt h]

theorem Ring.contents_of_count_zero {r : Ring} (N : Nat) (h : r.count = 0) : r.contents N = [] := by
  simp [Ring.contents, h]

/-- Two offsets below N name one cell only if they are equal. -/
theorem offset_inj {out N j k : Nat} (hj : j < N) (hk : k < N) (h : (out + j) % N = (out + k) % N) : j = k := by
  have a := Nat.sub_mod_eq_zero_of_mod_eq h
  have b := Nat.sub_mod_eq_zero_of_mod_eq h.symm
  rw [Nat.add_sub_add_left] at a b
  rw [Nat.mod_eq_of_lt (by omega)] at a b
  omega

end Sys2Proof.Machine
end

