-- ==== Sys2Proof/Laws/RingInv.lean ====
section
/-!
SUPPORT. The ring invariant and index coherence under the ring primitives (10_state.md R16, R18, R33), and what a push and a
pop do to the bytes a ring holds.
-/
namespace Sys2Proof.Machine

theorem mod_succ_mod (a b N : Nat) : (a % N + b) % N = (a + b) % N := by simp

/-- A full ring's cells are all its cells. -/
theorem Ring.Inv.allWritten {r : Ring} {N : Nat} (h : r.Inv N) (full : r.count = N) : r.AllWritten N := by
  intro k hk
  have out := h.outLt
  by_cases hle : r.outIdx ≤ k
  · have := h.written (k - r.outIdx) (by omega)
    rwa [Nat.add_sub_cancel' hle, Nat.mod_eq_of_lt hk] at this
  · have := h.written (N + k - r.outIdx) (by omega)
    rwa [show r.outIdx + (N + k - r.outIdx) = k + N by omega, Nat.add_mod_right, Nat.mod_eq_of_lt hk] at this

/-- A coherent full ring has `in = out` (R64). -/
theorem Ring.Coherent.full {r : Ring} {N : Nat} (c : r.Coherent N) (out : r.outIdx < N) (full : r.count = N) :
    r.inIdx = r.outIdx := by
  rw [c, full, Nat.add_mod_right, Nat.mod_eq_of_lt out]

/-- A write at `in` keeps what the invariant says of the cells. -/
theorem Ring.AllWritten.write {r : Ring} {N : Nat} (h : r.AllWritten N) (i : Nat) (b : Byte) :
    ∀ k, k < N → ((r.buf.write i b).read k).isSome = true :=
  fun k hk => (Memory.isSome_write _ _ _ _).mpr (.inr (h k hk))

/-- A push on a ring that is coherent or wholly written keeps the ring invariant. -/
theorem Ring.Inv.pushTry {r : Ring} {N : Nat} (h : r.Inv N) (c : r.Coherent N ∨ r.AllWritten N) (b : Byte) :
    (r.pushTry N b).1.Inv N := by
  by_cases full : r.count = N
  · rw [Ring.pushTry_full b full]; exact h
  · rw [Ring.pushTry_room b full]
    have le := h.countLe
    have inLt := h.inLt
    refine ⟨Memory.wf_write _ _ _ h.wf, ?_, Nat.mod_lt _ (by omega), h.outLt, by dsimp only; omega, ?_⟩
    · intro k hk
      obtain rfl | hk := (Memory.isSome_write _ _ _ _).mp hk
      · exact inLt
      · exact h.inRange k hk
    · intro k hk
      dsimp only at hk ⊢
      rw [Memory.isSome_write]
      obtain c | c := c
      · by_cases hlast : k = r.count
        · exact .inl (by rw [hlast, c])
        · exact .inr (h.written k (by omega))
      · exact .inr (c _ (Nat.mod_lt _ (by omega)))

theorem Ring.Coherent.pushTry {r : Ring} {N : Nat} (c : r.Coherent N) (b : Byte) : (r.pushTry N b).1.Coherent N := by
  by_cases full : r.count = N
  · rw [Ring.pushTry_full b full]; exact c
  · rw [Ring.pushTry_room b full]
    simp only [Ring.Coherent] at c ⊢
    rw [c, Nat.mod_add_mod, Nat.add_assoc]

theorem Ring.AllWritten.pushTry {r : Ring} {N : Nat} (c : r.AllWritten N) (b : Byte) :
    (r.pushTry N b).1.AllWritten N := by
  by_cases full : r.count = N
  · rw [Ring.pushTry_full b full]; exact c
  · rw [Ring.pushTry_room b full]; exact c.write _ _

/-- The ring invariant after an unconditional push (R64). -/
theorem Ring.Inv.pushOverwrite {r : Ring} {N : Nat} (h : r.Inv N) (c : r.Coherent N ∨ r.AllWritten N)
    (policy : RxOverflow) (b : Byte) : (r.pushOverwrite N policy b).Inv N := by
  unfold Ring.pushOverwrite
  split
  · exact h.pushTry c b
  · next notLt =>
    have full : r.count = N := by have := h.countLe; omega
    have all := (h.allWritten full).write r.inIdx b
    have inLt := h.inLt
    have inRange : ∀ k, ((r.buf.write r.inIdx b).read k).isSome = true → k < N := by
      intro k hk
      obtain rfl | hk := (Memory.isSome_write _ _ _ _).mp hk
      · exact inLt
      · exact h.inRange k hk
    cases policy
    · exact ⟨Memory.wf_write _ _ _ h.wf, inRange, Nat.mod_lt _ (by omega), Nat.mod_lt _ (by omega), h.countLe,
        fun k _ => all _ (Nat.mod_lt _ (by omega))⟩
    · exact ⟨Memory.wf_write _ _ _ h.wf, inRange, Nat.mod_lt _ (by omega), h.outLt, h.countLe,
        fun k _ => all _ (Nat.mod_lt _ (by omega))⟩

/-- Coherence after an unconditional push (R18). -/
theorem Ring.coherent_pushOverwrite {r : Ring} {N : Nat} (h : r.Inv N) (policy : RxOverflow) (b : Byte)
    (c : r.Coherent N ∨ (policy = .overwriteAtIn ∧ r.AllWritten N)) :
    (r.pushOverwrite N policy b).Coherent N ∨
      (policy = .overwriteAtIn ∧ (r.pushOverwrite N policy b).AllWritten N) := by
  unfold Ring.pushOverwrite
  split
  · exact c.imp (·.pushTry b) fun d => ⟨d.1, d.2.pushTry b⟩
  · next notLt =>
    have full : r.count = N := by have := h.countLe; omega
    cases policy
    · left
      obtain c | ⟨c, -⟩ := c
      · simp only [Ring.Coherent, advIdx, full, Nat.add_mod_right, Nat.mod_mod]
        rw [c.full h.outLt full]
      · cases c
    · exact .inr ⟨rfl, (h.allWritten full).write _ _⟩

theorem Ring.Inv.popped {r r' : Ring} {N : Nat} (h : r.Inv N) (p : r.Popped N r') (same : r'.buf = r.buf) : r'.Inv N := by
  have out := h.outLt
  have le := h.countLe
  have cnt := p.count
  refine ⟨by rw [same]; exact h.wf, by rw [same]; exact h.inRange, by rw [p.inIdx]; exact h.inLt,
    by rw [p.outIdx]; exact Nat.mod_lt _ (by omega), by omega, ?_⟩
  intro k hk
  rw [same, p.outIdx, Nat.mod_add_mod, Nat.add_assoc, Nat.add_comm 1]
  exact h.written (k + 1) (by omega)

theorem Ring.Coherent.popped {r r' : Ring} {N : Nat} (c : r.Coherent N) (p : r.Popped N r') : r'.Coherent N := by
  have cnt := p.count
  simp only [Ring.Coherent] at c ⊢
  rw [p.inIdx, p.outIdx, c, Nat.mod_add_mod, Nat.add_assoc, Nat.add_comm 1, cnt]

theorem Ring.Inv.reset {r : Ring} {N : Nat} (h : r.Inv N) : r.reset.Inv N := by
  have := h.inLt
  exact ⟨h.wf, h.inRange, by simp; omega, by simp; omega, by simp, by simp⟩

theorem Ring.coherent_reset (r : Ring) (N : Nat) : r.reset.Coherent N := by simp [Ring.Coherent]

theorem Ring.inv_empty {N : Nat} (h : 1 ≤ N) : Ring.empty.Inv N := by
  refine ⟨rfl, ?_, ?_, ?_, ?_, ?_⟩ <;> simp [Ring.empty] <;> omega

/-! ## What a pop and a push are -/

/-- What `pop` answers on a ring that holds a byte whose cell has been written. -/
theorem Ring.pop_popped {r : Ring} {b : Byte} (N : Nat) (h : r.count ≠ 0) (hb : r.buf.read r.outIdx = some b) :
    ∃ r', r.pop N = .ok (r', b, true) ∧ r.Popped N r' ∧ r'.buf = r.buf :=
  ⟨_, Ring.pop_some N h hb, ⟨rfl, rfl, by dsimp only; omega, fun _ => rfl⟩, rfl⟩

/-- What `push_try` does on a ring with room. -/
theorem Ring.pushTry_isPushed {r : Ring} {N : Nat} (b : Byte) (h : r.count ≠ N) : r.Pushed N b (r.pushTry N b).1 := by
  rw [Ring.pushTry_room b h]
  exact ⟨rfl, rfl, rfl, Memory.read_write_same _ _ _, fun k hk => Memory.read_write_other _ _ _ _ hk⟩

/-- A ring that meets its invariant reads a byte at `out` when it holds one. -/
theorem Ring.Inv.oldest {r : Ring} {N : Nat} (h : r.Inv N) (pos : 0 < r.count) : ∃ b, r.buf.read r.outIdx = some b := by
  have := h.written 0 pos
  rw [Nat.add_zero, Nat.mod_eq_of_lt h.outLt] at this
  exact Option.isSome_iff_exists.mp this

/-- A pop takes the first of the bytes a ring holds. -/
theorem Ring.contents_popped {r r' : Ring} {N : Nat} (p : r.Popped N r') (out : r.outIdx < N) :
    r.contents N = r.buf.read r.outIdx :: r'.contents N := by
  rw [Ring.contents, ← p.count, List.range_succ_eq_map, List.map_cons, List.map_map, Nat.add_zero,
    Nat.mod_eq_of_lt out, Ring.contents]
  congr 1
  apply List.map_congr_left
  intro k _
  simp only [Function.comp, Nat.succ_eq_add_one]
  rw [p.cells, p.outIdx, Nat.mod_add_mod, Nat.add_assoc, Nat.add_comm 1]

/-- A push on a coherent ring with room adds a last byte to those it holds. -/
theorem Ring.contents_pushed {r r' : Ring} {N : Nat} {b : Byte} (p : r.Pushed N b r') (c : r.Coherent N)
    (room : r.count < N) : r'.contents N = r.contents N ++ [some b] := by
  rw [Ring.contents, p.count, List.range_succ, List.map_append, List.map_singleton, p.outIdx, ← c, p.cell, Ring.contents]
  congr 1
  apply List.map_congr_left
  intro k hk
  apply p.others
  intro e
  rw [c] at e
  have := offset_inj (by rw [List.mem_range] at hk; omega) room e
  rw [List.mem_range] at hk
  omega

/-- `peek_at` over the whole ring succeeds when the invariant holds. -/
theorem Ring.Inv.peekRun {r : Ring} {N n : Nat} (h : r.Inv N) (hn : n ≤ r.count) :
    ∃ bs, r.peekRun N 0 n = .ok bs ∧ bs.length = n := by
  obtain ⟨bs, hb⟩ | ⟨j, hj, hnone, -⟩ := r.peekRun_cases N 0 n
  · have len := congrArg List.length ((Ring.peekRun_ok r N 0 n bs).mp hb)
    simp only [List.length_map, List.length_range] at len
    exact ⟨bs, hb, len⟩
  · have := h.written j (by omega)
    rw [Nat.zero_add] at hnone
    rw [hnone] at this
    cases this

end Sys2Proof.Machine
end

