-- ==== Sys2Proof/Laws/Exec.lean ====
section
/-!
SUPPORT. What each meaning can answer: one inversion lemma per command and event ("if it answers a next state, then ..."),
and one for every other answer, so that no later proof unfolds a meaning.
-/
namespace Sys2Proof.Machine

@[simp] theorem State.setRx_same (s : State) : s.setRx s.rx = s := rfl
@[simp] theorem State.setTx_same (s : State) : s.setTx s.tx = s := rfl

/-! ## Shared endings -/

/-- Everything RECVB and RECVNB can answer once they pop. -/
theorem State.receive_cases (s : State) :
    (s.rx.count = 0 ∧ s.receive = .next (s.respond .ok [0])) ∨
    (∃ b r, s.rx.count ≠ 0 ∧ s.rx.buf.read s.rx.outIdx = some b ∧ s.rx.Popped s.cfg.rxSize r ∧ r.buf = s.rx.buf ∧
      s.receive = .next ((s.setRx r).respond .ok [b])) ∨
    (s.rx.count ≠ 0 ∧ s.rx.buf.read s.rx.outIdx = none ∧ s.receive = .fault (.unwrittenCell s.rx.outIdx)) := by
  by_cases h : s.rx.count = 0
  · exact .inl ⟨h, by simp [State.receive, Ring.pop_empty _ h]⟩
  · cases hb : s.rx.buf.read s.rx.outIdx with
    | none => exact .inr (.inr ⟨h, rfl, by simp [State.receive, Ring.pop_none _ h hb]⟩)
    | some b =>
      obtain ⟨r, hr, p, same⟩ := Ring.pop_popped s.cfg.rxSize h hb
      exact .inr (.inl ⟨b, r, h, rfl, p, same, by simp [State.receive, hr]⟩)

/-- Everything the peeks can answer. -/
theorem State.peek_cases (s : State) (n : Nat) :
    (∃ bs, s.rx.peekRun s.cfg.rxSize 0 n = .ok bs ∧ bs.length = n ∧ s.peek n = .next (s.respond .ok bs)) ∨
    ∃ j, j < n ∧ s.rx.buf.read ((s.rx.outIdx + j) % s.cfg.rxSize) = none ∧
      s.peek n = .fault (.unwrittenCell ((s.rx.outIdx + j) % s.cfg.rxSize)) := by
  obtain ⟨bs, hb⟩ | ⟨j, hj, hnone, he⟩ := s.rx.peekRun_cases s.cfg.rxSize 0 n
  · have len := congrArg List.length ((Ring.peekRun_ok _ _ _ _ _).mp hb)
    simp only [List.length_map, List.length_range] at len
    exact .inl ⟨bs, hb, len, by simp [State.peek, hb]⟩
  · rw [Nat.zero_add] at hnone he
    exact .inr ⟨j, hj, hnone, by simp [State.peek, he]⟩

/-- A peek of one byte. -/
theorem State.peek_one {s : State} {b : Byte} (h : s.rx.buf.read (s.rx.outIdx % s.cfg.rxSize) = some b) :
    s.peek 1 = .next (s.respond .ok [b]) := by
  have : s.rx.peekRun s.cfg.rxSize 0 1 = .ok [b] := (Ring.peekRun_ok _ _ _ _ _).mpr (by simp [h])
  simp [State.peek, this]

theorem State.peek_one_none {s : State} (h : s.rx.buf.read (s.rx.outIdx % s.cfg.rxSize) = none) :
    s.peek 1 = .fault (.unwrittenCell (s.rx.outIdx % s.cfg.rxSize)) := by
  obtain ⟨bs, hb, len, -⟩ | ⟨j, hj, hnone, he⟩ := s.peek_cases 1
  · rw [Ring.peekRun_ok] at hb
    match bs, len with
    | [b], _ => simp [h] at hb
  · have : j = 0 := by omega
    subst this
    simpa using he

/-! ## One inversion lemma per meaning -/

theorem execSendb_next {b : Byte} {s t : State} (h : execSendb b s = .next t) :
    (s.tx.count < s.cfg.txSize ∧
      t = ((s.setTx (s.tx.pushTry s.cfg.txSize b).1).setTxie true).respond .ok []) ∨
    (s.cfg.txSize ≤ s.tx.count ∧ t = s.hold (.sendb b)) := by
  obtain ⟨c, e⟩ | ⟨c, e⟩ := s.holdUntil_cases (.sendb b) _ <;> rw [execSendb, e] at h <;> cases h
  · exact .inl ⟨by simpa using c, rfl⟩
  · exact .inr ⟨by simpa using c, rfl⟩

theorem execSendnb_next {b : Byte} {s t : State} (h : execSendnb b s = .next t) :
    (s.tx.count ≠ s.cfg.txSize ∧
      t = ((s.setTx (s.tx.pushTry s.cfg.txSize b).1).setTxie true).respond .ok [1]) ∨
    (s.tx.count = s.cfg.txSize ∧ t = s.respond .ok [0]) := by
  unfold execSendnb at h
  simp only [Ring.pushTry_pushed] at h
  split at h <;> cases h
  · next c => exact .inl ⟨c, rfl⟩
  · next c => exact .inr ⟨by omega, rfl⟩

theorem execFlushtx_next {s t : State} (h : execFlushtx s = .next t) :
    (s.tx.count = 0 ∧ t = (s.setTx s.tx.reset).respond .ok []) ∨ (s.tx.count ≠ 0 ∧ t = s.hold .flushtx) := by
  obtain ⟨c, e⟩ | ⟨c, e⟩ := s.holdUntil_cases .flushtx _ <;> rw [execFlushtx, e] at h <;> cases h
  · exact .inl ⟨by simpa using c, rfl⟩
  · exact .inr ⟨by simpa using c, rfl⟩

theorem execRecvnb_next {s t : State} (h : execRecvnb s = .next t) :
    (s.rx.count = 0 ∧ t = s.respond .ok [0]) ∨
    ∃ b r, s.rx.count ≠ 0 ∧ s.rx.buf.read s.rx.outIdx = some b ∧ s.rx.Popped s.cfg.rxSize r ∧ r.buf = s.rx.buf ∧
      t = (s.setRx r).respond .ok [b] := by
  unfold execRecvnb at h
  obtain ⟨c, e⟩ | ⟨b, r, c, hb, p, same, e⟩ | ⟨-, -, e⟩ := s.receive_cases <;> rw [e] at h <;> cases h
  · exact .inl ⟨c, rfl⟩
  · exact .inr ⟨b, r, c, hb, p, same, rfl⟩

theorem execRecvb_next {s t : State} (h : execRecvb s = .next t) :
    (s.rx.count = 0 ∧ t = s.hold .recvb) ∨
    ∃ b r, s.rx.count ≠ 0 ∧ s.rx.buf.read s.rx.outIdx = some b ∧ s.rx.Popped s.cfg.rxSize r ∧ r.buf = s.rx.buf ∧
      t = (s.setRx r).respond .ok [b] := by
  obtain ⟨c, e⟩ | ⟨c, e⟩ := s.holdUntil_cases .recvb s.receive <;> rw [execRecvb, e] at h
  · have pos : 0 < s.rx.count := by simpa using c
    exact (execRecvnb_next h).elim (fun c => absurd c.1 (by omega)) .inr
  · cases h
    exact .inl ⟨by simpa using c, rfl⟩

theorem State.peek_next {s t : State} {n : Nat} (h : s.peek n = .next t) :
    ∃ bs, s.rx.peekRun s.cfg.rxSize 0 n = .ok bs ∧ bs.length = n ∧ t = s.respond .ok bs := by
  obtain ⟨bs, hb, len, e⟩ | ⟨_, -, -, e⟩ := s.peek_cases n <;> rw [e] at h <;> cases h
  exact ⟨bs, hb, len, rfl⟩

theorem execPeekb_next {s t : State} (h : execPeekb s = .next t) :
    (s.rx.count = 0 ∧ t = s.hold .peekb) ∨ (0 < s.rx.count ∧ s.peek 1 = .next t) := by
  obtain ⟨c, e⟩ | ⟨c, e⟩ := s.holdUntil_cases .peekb (s.peek 1) <;> rw [execPeekb, e] at h
  · exact .inr ⟨by simpa using c, h⟩
  · cases h
    exact .inl ⟨by simpa using c, rfl⟩

theorem execPeeknb_next {s t : State} (h : execPeeknb s = .next t) :
    (s.rx.count = 0 ∧ t = s.respond .ok [0]) ∨ (0 < s.rx.count ∧ s.peek 1 = .next t) := by
  unfold execPeeknb at h
  split at h
  · next zero => cases h; exact .inl ⟨zero, rfl⟩
  · exact .inr ⟨by omega, h⟩

theorem execPeekn_next {n : Nat} {s t : State} (h : execPeekn n s = .next t) :
    (s.rx.count < min n s.cfg.rxSize ∧ t = s.hold (.peekn n)) ∨
    (min n s.cfg.rxSize ≤ s.rx.count ∧ s.peek (min n s.cfg.rxSize) = .next t) := by
  obtain ⟨c, e⟩ | ⟨c, e⟩ := s.holdUntil_cases (.peekn n) (s.peek (peekCount s.cfg n)) <;> rw [execPeekn, e] at h
  · exact .inr ⟨of_decide_eq_true c, h⟩
  · cases h
    exact .inl ⟨Nat.lt_of_not_le (of_decide_eq_false c), rfl⟩

theorem execFlushrx_next {s t : State} (h : execFlushrx s = .next t) : t = (s.setRx s.rx.reset).respond .ok [] := by
  cases h
  rfl

theorem execSetup_next {r : BitVec 32} {cs sb par : Byte} {s t : State} (h : execSetup r cs sb par s = .next t) :
    t = ((s.callPort [.setBaud r, .setFrame cs sb par, .enable]).setRxie true).respond .ok [] := by
  cases h
  rfl

theorem execMreg_next {h c : Word} {p : List Byte} {s t : State} (e : execMreg h c p s = .next t) :
    (s.cfg.matchEnabled = false ∧ t = s.respond .illegal []) ∨
    (s.cfg.matchEnabled = true ∧ h = 0 ∧ t = s.respond .noHandler []) ∨
    (s.cfg.matchEnabled = true ∧ h ≠ 0 ∧ s.nEnt = s.cfg.maxPatterns ∧ t = s.respond .tableFull []) ∨
    (s.cfg.matchEnabled = true ∧ h ≠ 0 ∧ s.nEnt ≠ s.cfg.maxPatterns ∧
      t = (s.setMatch
        (s.table ++ [{ pat := p.take s.cfg.maxSeqLen, prog := 0, handler := h, ctx := c }])
        (clearTrig s.trig s.nEnt)).respond .ok []) := by
  unfold execMreg at e
  split at e
  · next c1 => cases e; exact .inl ⟨c1, rfl⟩
  · next c1 =>
    rw [Bool.not_eq_false] at c1
    split at e
    · next c2 => cases e; exact .inr (.inl ⟨c1, c2, rfl⟩)
    · next c2 =>
      split at e
      · next c3 => cases e; exact .inr (.inr (.inl ⟨c1, c2, c3, rfl⟩))
      · next c3 => cases e; exact .inr (.inr (.inr ⟨c1, c2, c3, rfl⟩))

theorem execMdereg_next {p : List Byte} {s t : State} (e : execMdereg p s = .next t) :
    (s.cfg.matchEnabled = false ∧ t = s.respond .illegal []) ∨
    (s.cfg.matchEnabled = true ∧ findEntry s.table (p.take s.cfg.maxSeqLen) = none ∧ t = s.respond .ok []) ∨
    ∃ k, s.cfg.matchEnabled = true ∧ findEntry s.table (p.take s.cfg.maxSeqLen) = some k ∧ k < s.table.length ∧
      t = (s.setMatch (s.table.eraseIdx k) (compactTrig s.cfg.trigCompaction k s.nEnt s.trig)).respond .ok [] := by
  unfold execMdereg storedPattern at e
  split at e
  · next c1 => cases e; exact .inl ⟨c1, rfl⟩
  · next c1 =>
    rw [Bool.not_eq_false] at c1
    split at e
    · next hf => cases e; exact .inr (.inl ⟨c1, hf, rfl⟩)
    · next k hf => cases e; exact .inr (.inr ⟨k, c1, hf, findEntry_lt hf, rfl⟩)

theorem execMtrig_next {i : Nat} {s t : State} (e : execMtrig i s = .next t) :
    (s.cfg.matchEnabled = false ∧ t = s.respond .illegal []) ∨
    (s.cfg.matchEnabled = true ∧ s.table[i]? = none ∧ t = s.respond .ok [0, 0, 0, 0, 0, 0]) ∨
    ∃ a, s.cfg.matchEnabled = true ∧ s.table[i]? = some a ∧
      t = s.respond .ok ([1, bitByte (s.trig.getLsbD i)] ++ wordBytes a.handler ++ wordBytes a.ctx) := by
  unfold execMtrig at e
  split at e
  · next c1 => cases e; exact .inl ⟨c1, rfl⟩
  · next c1 =>
    rw [Bool.not_eq_false] at c1
    split at e
    · next a ha => cases e; exact .inr (.inr ⟨a, c1, ha, rfl⟩)
    · next ha => cases e; exact .inr (.inl ⟨c1, ha, rfl⟩)

theorem execMclr_next {i : Nat} {s t : State} (e : execMclr i s = .next t) :
    (s.cfg.matchEnabled = false ∧ t = s.respond .illegal []) ∨
    (s.cfg.matchEnabled = true ∧ i < s.cfg.maxPatterns ∧
      t = (s.setMatch s.table (clearTrig s.trig i)).respond .ok []) ∨
    (s.cfg.matchEnabled = true ∧ s.cfg.maxPatterns ≤ i ∧ t = s.respond .ok []) := by
  unfold execMclr at e
  split at e
  · next c1 => cases e; exact .inl ⟨c1, rfl⟩
  · next c1 =>
    rw [Bool.not_eq_false] at c1
    split at e
    · next c2 => cases e; exact .inr (.inl ⟨c1, c2, rfl⟩)
    · next c2 => cases e; exact .inr (.inr ⟨c1, by omega, rfl⟩)

theorem execStat_next {s t : State} (h : execStat s = .next t) : t = s.respond .ok s.statBytes := by
  cases h
  rfl

theorem execRxc_next {b : Byte} {s t : State} (h : execRxc b s = .next t) :
    (s.cfg.matchEnabled = true ∧
      t = (s.advanceAll b).setRx (s.rx.pushOverwrite s.cfg.rxSize s.cfg.rxOverflow b)) ∨
    (s.cfg.matchEnabled = false ∧ t = s.setRx (s.rx.pushOverwrite s.cfg.rxSize s.cfg.rxOverflow b)) := by
  cases h
  cases hm : s.cfg.matchEnabled
  · exact .inr ⟨rfl, rfl⟩
  · exact .inl ⟨rfl, rfl⟩

theorem execTxr_next {s t : State} (h : execTxr s = .next t) :
    (s.tx.count = 0 ∧ t = s.setTxie false) ∨
    ∃ b r, s.tx.count ≠ 0 ∧ s.tx.buf.read s.tx.outIdx = some b ∧ s.tx.Popped s.cfg.txSize r ∧ r.buf = s.tx.buf ∧
      t = ((s.setTx r).callPort [.writeData b]).setTxie (txieAfterTxr s.txie r.count) := by
  unfold execTxr at h
  split at h
  · next c => cases h; exact .inl ⟨c, rfl⟩
  · next c =>
    cases hb : s.tx.buf.read s.tx.outIdx with
    | none => rw [Ring.pop_none _ c hb] at h; cases h
    | some b =>
      obtain ⟨r, hr, p, same⟩ := Ring.pop_popped s.cfg.txSize c hb
      rw [hr] at h
      cases h
      exact .inr ⟨b, r, c, rfl, p, same, rfl⟩

/-! ## Answers that are no next state -/

/-- No command or event is refused once it runs. -/
theorem exec_not_refused (i : Instr) (s : State) (r : Refusal) : exec i s ≠ .refused r := by
  have recv : s.receive ≠ .refused r := by
    obtain ⟨-, e⟩ | ⟨_, _, -, -, -, -, e⟩ | ⟨-, -, e⟩ := s.receive_cases <;> simp [e]
  have peek : ∀ n, s.peek n ≠ .refused r := by
    intro n
    obtain ⟨_, -, -, e⟩ | ⟨_, -, -, e⟩ := s.peek_cases n <;> simp [e]
  cases i <;> simp only [exec]
  case recvnb => exact recv
  case recvb => exact fun h => recv (State.holdUntil_not_next.2 r h)
  case peekb => exact fun h => peek 1 (State.holdUntil_not_next.2 r h)
  case peeknb => unfold execPeeknb; split; simp; exact peek 1
  case peekn n => exact fun h => peek _ (State.holdUntil_not_next.2 r h)
  case txr =>
    unfold execTxr
    split
    · simp
    · split <;> simp
  case sendb => exact fun h => nomatch State.holdUntil_not_next.2 r h
  case sendnb => unfold execSendnb; split <;> simp
  case flushtx => exact fun h => nomatch State.holdUntil_not_next.2 r h
  case mreg => unfold execMreg; repeat' split
               all_goals simp
  case mdereg => unfold execMdereg; repeat' split
                 all_goals simp
  case mtrig => unfold execMtrig; repeat' split
                all_goals simp
  case mclr => unfold execMclr; repeat' split
               all_goals simp
  all_goals simp [execFlushrx, execSetup, execStat, execRxc]

/-- A reading command or TXR faults only where the cell it must read has never been written. -/
theorem execTxr_fault {s : State} {f : Fault} (h : execTxr s = .fault f) :
    s.tx.count ≠ 0 ∧ s.tx.buf.read s.tx.outIdx = none ∧ f = .unwrittenCell s.tx.outIdx := by
  unfold execTxr at h
  split at h
  · cases h
  · next c =>
    cases hb : s.tx.buf.read s.tx.outIdx with
    | none => rw [Ring.pop_none _ c hb] at h; cases h; exact ⟨c, rfl, rfl⟩
    | some b => rw [Ring.pop_some _ c hb] at h; cases h

theorem State.receive_fault {s : State} {f : Fault} (h : s.receive = .fault f) :
    s.rx.count ≠ 0 ∧ s.rx.buf.read s.rx.outIdx = none ∧ f = .unwrittenCell s.rx.outIdx := by
  obtain ⟨-, e⟩ | ⟨_, _, -, -, -, -, e⟩ | ⟨c, hn, e⟩ := s.receive_cases <;> rw [e] at h <;> cases h
  exact ⟨c, hn, rfl⟩

theorem State.peek_fault {s : State} {n : Nat} {f : Fault} (h : s.peek n = .fault f) :
    ∃ j, j < n ∧ s.rx.buf.read ((s.rx.outIdx + j) % s.cfg.rxSize) = none ∧
      f = .unwrittenCell ((s.rx.outIdx + j) % s.cfg.rxSize) := by
  obtain ⟨_, -, -, e⟩ | ⟨j, hj, hn, e⟩ := s.peek_cases n <;> rw [e] at h <;> cases h
  exact ⟨j, hj, hn, rfl⟩

/-- Every fault is a read of an unwritten cell: of TX inside TXR, of RX among the bytes a command must read. -/
theorem exec_fault {i : Instr} {s : State} {f : Fault} (h : exec i s = .fault f) :
    (i = .txr ∧ s.tx.count ≠ 0 ∧ s.tx.buf.read s.tx.outIdx = none ∧ f = .unwrittenCell s.tx.outIdx) ∨
    ((i = .recvb ∨ i = .recvnb) ∧ s.rx.count ≠ 0 ∧ s.rx.buf.read s.rx.outIdx = none ∧
      f = .unwrittenCell s.rx.outIdx) ∨
    ∃ j, j < s.rx.count ∧ s.rx.buf.read ((s.rx.outIdx + j) % s.cfg.rxSize) = none ∧
      f = .unwrittenCell ((s.rx.outIdx + j) % s.cfg.rxSize) := by
  cases i <;> simp only [exec] at h
  case txr => exact .inl ⟨rfl, execTxr_fault h⟩
  case recvnb => exact .inr (.inl ⟨.inr rfl, State.receive_fault h⟩)
  case recvb => exact .inr (.inl ⟨.inl rfl, State.receive_fault (State.holdUntil_not_next.1 f h).2⟩)
  case peekb =>
    obtain ⟨c, e⟩ := State.holdUntil_not_next.1 f h
    have pos : 0 < s.rx.count := by simpa using c
    obtain ⟨j, hj, hn, e⟩ := State.peek_fault e
    exact .inr (.inr ⟨j, by omega, hn, e⟩)
  case peeknb =>
    unfold execPeeknb at h
    split at h
    · cases h
    · obtain ⟨j, hj, hn, e⟩ := State.peek_fault h
      exact .inr (.inr ⟨j, by omega, hn, e⟩)
  case peekn n =>
    obtain ⟨c, e⟩ := State.holdUntil_not_next.1 f h
    obtain ⟨j, hj, hn, e⟩ := State.peek_fault e
    exact .inr (.inr ⟨j, Nat.lt_of_lt_of_le hj (of_decide_eq_true c), hn, e⟩)
  case sendb => exact nomatch (State.holdUntil_not_next.1 f h).2
  case sendnb => unfold execSendnb at h; split at h <;> cases h
  case flushtx => exact nomatch (State.holdUntil_not_next.1 f h).2
  case mreg => unfold execMreg at h; repeat' split at h
               all_goals cases h
  case mdereg => unfold execMdereg at h; repeat' split at h
                 all_goals cases h
  case mtrig => unfold execMtrig at h; repeat' split at h
                all_goals cases h
  case mclr => unfold execMclr at h; repeat' split at h
               all_goals cases h
  all_goals cases h

end Sys2Proof.Machine
end

