-- ==== Sys2Proof/Laws/PerInstr.lean ====
section
/-!
SUPPORT. One family of facts about every instruction as syntax: how many bytes its encoding has (30_encoding.md R48, R53).
-/
namespace Sys2Proof.Laws.EncodeLength

/-- R48, R53: the word of a well-formed instruction selects an operation, and its encoding is that word and exactly the
payload the word announces. -/
def Statement (i : Instr) : Prop :=
  i.wellFormed = true →
    ∃ k, decodeOpcode true (encodeWord i) = some k ∧ (encode i).length = 2 + payloadLength k (encodeWord i)

theorem sendb (b : Byte) : Statement (.sendb b) := fun _ =>
  ⟨.sendb, (decodeOpcode_eq_some _ _ _).mpr (by
    have := b.isLt
    simp only [Opcode.selectedBy, encodeWord, BitVec.toNat_ofNat]
    omega), rfl⟩

theorem sendnb (b : Byte) : Statement (.sendnb b) := fun _ =>
  ⟨.sendnb, (decodeOpcode_eq_some _ _ _).mpr (by
    have := b.isLt
    simp only [Opcode.selectedBy, encodeWord, BitVec.toNat_ofNat]
    omega), rfl⟩

theorem recvb : Statement .recvb := fun _ => ⟨.recvb, rfl, rfl⟩

theorem recvnb : Statement .recvnb := fun _ => ⟨.recvnb, rfl, rfl⟩

theorem peekb : Statement .peekb := fun _ => ⟨.peekb, rfl, rfl⟩

theorem peeknb : Statement .peeknb := fun _ => ⟨.peeknb, rfl, rfl⟩

theorem peekn (n : Nat) : Statement (.peekn n) := fun h =>
  ⟨.peekn, (decodeOpcode_eq_some _ _ _).mpr (by
    simp only [Instr.wellFormed, decide_eq_true_eq] at h
    simp only [Opcode.selectedBy, encodeWord, BitVec.toNat_ofNat]
    omega), rfl⟩

theorem flushrx : Statement .flushrx := fun _ => ⟨.flushrx, rfl, rfl⟩

theorem flushtx : Statement .flushtx := fun _ => ⟨.flushtx, rfl, rfl⟩

theorem setup (rate : BitVec 32) (charSize stopBits parity : Byte) :
    Statement (.setup rate charSize stopBits parity) := fun _ =>
  ⟨.setup, (decodeOpcode_eq_some true 0xA000 .setup).mpr rfl, rfl⟩

theorem mreg (handler ctx : Word) (pattern : List Byte) : Statement (.mreg handler ctx pattern) := by
  intro h
  simp only [Instr.wellFormed, decide_eq_true_eq] at h
  refine ⟨.mreg, (decodeOpcode_eq_some _ _ _).mpr ?_, ?_⟩
  · simp only [Opcode.selectedBy, encodeWord, BitVec.toNat_ofNat, and_true]
    omega
  · simp only [encode, encodePayload, encodeWord, payloadLength, immField_toNat, BitVec.toNat_ofNat, List.length_append,
      wordBytes_length]
    omega

theorem mdereg (pattern : List Byte) : Statement (.mdereg pattern) := by
  intro h
  simp only [Instr.wellFormed, decide_eq_true_eq] at h
  refine ⟨.mdereg, (decodeOpcode_eq_some _ _ _).mpr ?_, ?_⟩
  · simp only [Opcode.selectedBy, encodeWord, BitVec.toNat_ofNat, and_true]
    omega
  · simp only [encode, encodePayload, encodeWord, payloadLength, immField_toNat, BitVec.toNat_ofNat, List.length_append,
      wordBytes_length]
    omega

theorem mtrig (i : Nat) : Statement (.mtrig i) := fun h =>
  ⟨.mtrig, (decodeOpcode_eq_some _ _ _).mpr (by
    simp only [Instr.wellFormed, decide_eq_true_eq] at h
    simp only [Opcode.selectedBy, encodeWord, BitVec.toNat_ofNat, and_true]
    omega), rfl⟩

theorem mclr (i : Nat) : Statement (.mclr i) := fun h =>
  ⟨.mclr, (decodeOpcode_eq_some _ _ _).mpr (by
    simp only [Instr.wellFormed, decide_eq_true_eq] at h
    simp only [Opcode.selectedBy, encodeWord, BitVec.toNat_ofNat, and_true]
    omega), rfl⟩

theorem stat : Statement .stat := fun _ => ⟨.stat, rfl, rfl⟩

theorem rxc (b : Byte) : Statement (.rxc b) := fun _ =>
  ⟨.rxc, (decodeOpcode_eq_some _ _ _).mpr (by
    have := b.isLt
    simp only [Opcode.selectedBy, encodeWord, BitVec.toNat_ofNat]
    omega), rfl⟩

theorem txr : Statement .txr := fun _ => ⟨.txr, rfl, rfl⟩

end Sys2Proof.Laws.EncodeLength
end

