-- ==== Sys2Proof/Laws/Step.lean ====
section
/-!
SUPPORT. What a step can be: the held command that is due (30_encoding.md R54), or one inversion lemma for each kind of turn,
so that no later proof unfolds `fetch`.
-/
namespace Sys2Proof.Machine

/-- A held command whose condition is true takes its effect, whatever turn is next. -/
theorem step_due {s : State} {i : Instr} (h : s.due = some i) : step s = exec i s := by
  simp only [step, fetch, h]

/-- With no turn left the block idles. -/
theorem step_idle {s : State} (d : s.due = none) (h : s.turns = []) : step s = .next s := by
  simp only [step, fetch, d, h]

/-- Everything F's turn can come to. -/
theorem step_foreground_cases {s : State} {ts : List Turn} (d : s.due = none) (h : s.turns = .foreground :: ts) :
    (∃ i, s.held = some i ∧ step s = .next { s with turns := ts }) ∨
    (∃ i rest, s.held = none ∧ decode s.cfg.matchEnabled .command s.cmdIn = .unit i rest ∧
      step s = exec i { s with turns := ts, cmdIn := rest }) ∨
    (∃ rest, s.held = none ∧ decode s.cfg.matchEnabled .command s.cmdIn = .illegal rest ∧
      step s = .next { s with turns := ts, cmdIn := rest }.respondIllegal) ∨
    (s.held = none ∧ decode s.cfg.matchEnabled .command s.cmdIn = .nothing ∧ step s = .next { s with turns := ts }) ∨
    (s.held = none ∧ decode s.cfg.matchEnabled .command s.cmdIn = .incomplete ∧ step s = .refused .incompleteUnit) := by
  simp only [step, fetch, d, h, fetchCommand]
  cases s.held with
  | some i => exact .inl ⟨i, rfl, rfl⟩
  | none =>
    right
    cases e : decode s.cfg.matchEnabled .command s.cmdIn with
    | unit i rest => exact .inl ⟨i, rest, rfl, rfl, rfl⟩
    | illegal rest => exact .inr (.inl ⟨rest, rfl, rfl, rfl⟩)
    | nothing => exact .inr (.inr (.inl ⟨rfl, rfl, rfl⟩))
    | incomplete => exact .inr (.inr (.inr ⟨rfl, rfl, rfl⟩))
    | refused => exact absurd e (decode_command_not_refused _ _)

/-- Everything P's turn can come to. -/
theorem step_event_cases {s : State} {w : Word} {ts : List Turn} (d : s.due = none) (h : s.turns = .event w :: ts) :
    (∃ i rest, decode s.cfg.matchEnabled .event (wordBytes w) = .unit i rest ∧ eventEnabled s i = true ∧
      step s = exec i { s with turns := ts }) ∨
    (∃ i rest, decode s.cfg.matchEnabled .event (wordBytes w) = .unit i rest ∧ eventEnabled s i = false ∧
      step s = .refused (.eventNotEnabled w)) ∨
    ((∀ i rest, decode s.cfg.matchEnabled .event (wordBytes w) ≠ .unit i rest) ∧ step s = .refused (.notAnEvent w)) := by
  simp only [step, fetch, d, h, fetchEvent]
  cases decode s.cfg.matchEnabled .event (wordBytes w) with
  | unit i rest =>
    dsimp only
    cases enabled : eventEnabled s i with
    | true =>
      rw [if_pos (show eventEnabled { s with turns := ts } i = true from enabled)]
      exact .inl ⟨i, rest, rfl, enabled, rfl⟩
    | false =>
      rw [if_neg (show ¬ eventEnabled { s with turns := ts } i = true from Bool.not_eq_true _ ▸ enabled)]
      exact .inr (.inl ⟨i, rest, rfl, enabled, rfl⟩)
  | illegal rest => exact .inr (.inr ⟨by simp, rfl⟩)
  | nothing => exact .inr (.inr ⟨by simp, rfl⟩)
  | incomplete => exact .inr (.inr ⟨by simp, rfl⟩)
  | refused => exact .inr (.inr ⟨by simp, rfl⟩)

end Sys2Proof.Machine
end

