-- ==== Sys2Proof/Laws/Sweep.lean ====
section
/-!
SUPPORT. The moves of F's program: when the held command settles, what one taken turn can answer, that a sweep stays
where it is while a command is held (42_match.md R93, 70_reset_and_hazards.md R115), and that a handler's units are presented
one at a time (R123).
-/
namespace Sys2Proof.Machine

/-! ## The held command settles -/

theorem State.settle_due {s : State} {i : Instr} (h : s.due = some i) : s.settle = exec i s := by
  simp only [State.settle, h]

theorem State.settle_quiet {s : State} (h : s.due = none) : s.settle = .next s := by
  simp only [State.settle, h]

/-! ## One turn -/

/-- Everything a taken turn can answer as a next state: that of the step, what F and P have yet to present as before, and
the bytes the step has not taken. -/
theorem State.takeTurn_next {s u : State} {t : Turn} {bytes rest : List Byte} :
    s.takeTurn t bytes = .next (u, rest) ↔
      ∃ v, step { s with turns := [t], cmdIn := bytes } = .next v ∧
        u = { v with turns := s.turns, cmdIn := s.cmdIn } ∧ rest = v.cmdIn := by
  unfold State.takeTurn
  cases step { s with turns := [t], cmdIn := bytes } with
  | next v =>
    simp only [Host.Outcome.next.injEq, exists_eq_left', Prod.mk.injEq]
    exact and_congr eq_comm eq_comm
  | fault f => simp
  | refused r => simp

/-- F's turn with no command held runs the first unit it presents and leaves the rest. -/
theorem State.takeTurn_unit {s t : State} {i : Instr} {bytes rest : List Byte} (h : s.held = none)
    (d : decode s.cfg.matchEnabled .command bytes = .unit i rest)
    (e : exec i { s with turns := [], cmdIn := rest } = .next t) :
    s.takeTurn .foreground bytes = .next ({ t with turns := s.turns, cmdIn := s.cmdIn }, t.cmdIn) := by
  have due : State.due { s with turns := [.foreground], cmdIn := bytes } = none := State.due_of_idle h
  obtain ⟨j, held, -⟩ | ⟨j, r, -, dec, eq⟩ | ⟨r, -, dec, -⟩ | ⟨-, dec, -⟩ | ⟨-, dec, -⟩ := step_foreground_cases due rfl
  · exact absurd (held.symm.trans h) nofun
  · obtain ⟨rfl, rfl⟩ := Decoded.unit.inj (dec.symm.trans d)
    exact State.takeTurn_next.mpr ⟨t, eq.trans e, rfl, rfl⟩
  all_goals exact absurd (dec.symm.trans d) nofun

/-- A turn in a sweep moves the block and what is pending, nothing else. -/
theorem Sweep.takeTurn_next {x y : Sweep} {t : Turn} {bytes : List Byte} :
    x.takeTurn t bytes = .next y ↔
      ∃ u rest, x.block.takeTurn t bytes = .next (u, rest) ∧ y = { x with block := u, pending := rest } := by
  unfold Sweep.takeTurn Sweep.andThen
  cases x.block.takeTurn t bytes with
  | next r =>
    simp only [Host.Outcome.next.injEq]
    exact ⟨fun h => ⟨r.1, r.2, rfl, h.symm⟩, fun ⟨_, _, e, h⟩ => by rw [h, e]⟩
  | fault f => simp
  | refused r => simp

/-! ## A held command holds the sweep, and a handler's units come before its next move -/

theorem Sweep.advance_held {x : Sweep} {i : Instr} (handlers : Handlers) (h : x.block.held = some i) :
    Sweep.advance handlers x = .next x := by
  simp only [Sweep.advance, h]

/-- While a handler has units to present, F's move is the next of them, whatever the handler would do next. -/
theorem Sweep.advance_pending {x : Sweep} (handlers : Handlers) (h : x.block.held = none) (p : x.pending ≠ []) :
    Sweep.advance handlers x = x.takeTurn .foreground x.pending := by
  cases e : x.pending with
  | nil => exact absurd e p
  | cons b bs => simp only [Sweep.advance, h, e]

/-- F's move in a sweep whose command waits changes nothing. -/
theorem Sweep.turn_waiting {x : Sweep} {i : Instr} (handlers : Handlers) (h : x.block.held = some i)
    (w : x.block.ready i = false) : x.turn handlers .foreground = .next x := by
  simp only [Sweep.turn, State.settle_quiet (State.due_of_waiting h w), Sweep.andThen]
  exact Sweep.advance_held handlers h

end Sys2Proof.Machine
end

