-- ==== Sys2Proof/Tests/Slice0.lean ====
section
/-!
SUPPORT. Tests and witnesses. Every expected result of a `test_` theorem is from the vector of spec/95_test_vectors.md (or
the rule) that its docstring names. A `witness_` theorem shows that the hypotheses of the obligation of that name are met
together, clause by clause, at the ends of their ranges.
-/
namespace Sys2Proof.Tests

open Sys2Proof.Machine

/-! ## Small states -/

/-- The next state of an outcome. -/
def after : Result → Option State
  | .next t => some t
  | .fault _ => none
  | .refused _ => none

/-- Two outcomes one after the other. -/
def andThen (o : Result) (f : State → Result) : Result :=
  match o with
  | .next t => f t
  | .fault e => .fault e
  | .refused e => .refused e

/-- A ring whose cells `0, 1, ...` hold `cells`. -/
def ring (cells : List Byte) (inIdx outIdx count : Nat) : Ring :=
  { buf := cells.zipIdx.map fun p => (p.2, p.1), inIdx := inIdx, outIdx := outIdx, count := count }

/-- A block with transmit ring `r` and TXIE `ie`. -/
def withTx (r : Ring) (ie : Bool) : State := { State.reset with tx := r, txie := ie }

/-- A block ready to receive, with receive ring `r`. -/
def withRx (r : Ring) : State := { State.reset with rx := r, rxie := true }

/-- A block ready to receive, with match table `t` and trigger bits `m`. -/
def withTable (t : List Entry) (m : BitVec 32) : State := { State.reset with rxie := true, table := t, trig := m }

/-- An entry with handler `h` and context 0. -/
def entry (pat : List Byte) (prog : Nat) (h : Word) : Entry := { pat := pat, prog := prog, handler := h, ctx := 0 }

/-- "aab". -/
def aab : List Byte := [0x61, 0x61, 0x62]

/-- "Ready" of the vectors: reset followed by SETUP. -/
def ready : State := { State.reset with rxie := true }

/-- The state without the match engine. -/
def noMatch : State := State.resetWith { Config.testDefault with matchEnabled := false }

/-- Eight registered entries: MAX_PATTERNS of the test defaults. -/
def fullTable : List Entry := List.replicate 8 (entry [0x6B] 0 1)

/-- The status and data of the responses given. -/
def answers (t : State) : List (Byte × List Byte) := t.responses.map fun r => (r.status.code, r.data)

/-! ## WellFormed: an ill-formed term for each check -/

theorem test_wf_peekn : (Instr.peekn 4096).wellFormed = false ∧ (Instr.peekn 4095).wellFormed = true := by decide
theorem test_wf_mreg : (Instr.mreg 1 0 (List.replicate 256 0)).wellFormed = false := by
  rw [Instr.wellFormed, List.length_replicate]
  rfl
theorem test_wf_mdereg : (Instr.mdereg (List.replicate 256 0)).wellFormed = false := by
  rw [Instr.wellFormed, List.length_replicate]
  rfl
theorem test_wf_mtrig : (Instr.mtrig 256).wellFormed = false ∧ (Instr.mtrig 255).wellFormed = true := by decide
theorem test_wf_mclr : (Instr.mclr 256).wellFormed = false ∧ (Instr.mclr 255).wellFormed = true := by decide

/-! ## Decoding: words written out from the opcode map (R57) and its payload layouts (R53) -/

theorem test_decode_sendb :
    decode true .command (wordBytes 0b0001000001000001 ++ [0xAA]) = .unit (.sendb 0x41) [0xAA] := by decide
theorem test_decode_sendnb : decode true .command (wordBytes 0b0010000001000101) = .unit (.sendnb 0x45) [] := by decide
theorem test_decode_recvb : decode true .command (wordBytes 0b0011000000000000) = .unit .recvb [] := by decide
theorem test_decode_recvnb : decode true .command (wordBytes 0b0100000000000000) = .unit .recvnb [] := by decide
theorem test_decode_peekb : decode true .command (wordBytes 0b0101000000000000) = .unit .peekb [] := by decide
theorem test_decode_peeknb : decode true .command (wordBytes 0b0110000000000000) = .unit .peeknb [] := by decide
/-- IL-10. -/
theorem test_decode_peekn : decode true .command (wordBytes 0b0111111111111111) = .unit (.peekn 4095) [] := by decide
theorem test_decode_flushrx : decode true .command (wordBytes 0b1000000000000000) = .unit .flushrx [] := by decide
theorem test_decode_flushtx : decode true .command (wordBytes 0b1001000000000000) = .unit .flushtx [] := by decide
/-- CS-6: 115200 is 00 C2 01 00. -/
theorem test_decode_setup :
    decode true .command (wordBytes 0b1010000000000000 ++ [0x00, 0xC2, 0x01, 0x00, 0x08, 0x01, 0x00]) =
      .unit (.setup 115200 8 1 0) [] := by decide
/-- Program P3, step 1. -/
theorem test_decode_mreg :
    decode true .command (wordBytes 0b1011000000000010 ++ [0x34, 0x12, 0x42, 0x00, 0x6F, 0x6B, 0x99]) =
      .unit (.mreg 0x1234 0x0042 [0x6F, 0x6B]) [0x99] := by decide
/-- M-9. -/
theorem test_decode_mdereg :
    decode true .command (wordBytes 0b1100000000000010 ++ [0x6F, 0x6B]) = .unit (.mdereg [0x6F, 0x6B]) [] := by decide
/-- M-13. -/
theorem test_decode_mtrig : decode true .command (wordBytes 0b1101000011111111) = .unit (.mtrig 255) [] := by decide
/-- M-12. -/
theorem test_decode_mclr : decode true .command (wordBytes 0b1110000000101000) = .unit (.mclr 40) [] := by decide
theorem test_decode_stat : decode true .command (wordBytes 0b1111000000000000) = .unit .stat [] := by decide
theorem test_decode_rxc : decode true .event (wordBytes 0b1111000101000001) = .unit (.rxc 0x41) [] := by decide
theorem test_decode_txr : decode true .event (wordBytes 0b1111001000000000) = .unit .txr [] := by decide

/-- IL-1 to IL-9 and IL-11. -/
theorem test_decode_illegal :
    [0x0000, 0x3001, 0xF300, 0xF141, 0x1141, 0xF001, 0xF200, 0xA001, 0xB102, 0xFFFF].all
      (fun w => decide (decode true .command (wordBytes w ++ [0x7A]) = .illegal [0x7A])) = true := by decide

/-- EV-3, and R79: a command word on the event port. -/
theorem test_decode_event_port :
    decode true .event (wordBytes 0xF000) = .refused ∧ decode true .event (wordBytes 0x1041) = .refused := by decide

/-- R48: a word without all of its payload is no unit. -/
theorem test_decode_incomplete :
    decode true .command [0x02, 0xB0, 0x34, 0x12, 0x42, 0x00, 0x6F] = .incomplete ∧ decode true .command [0x02] = .incomplete := by
  decide

/-- The table words of P3 step 1 (with its payload bits zero) and of RXC. -/
theorem test_decode_table :
    decodeTableWord 16 0xB002 = some (.mreg 0 0 [0, 0]) ∧ decodeTableWord 16 0xF141 = some (.rxc 0x41) := by decide

/-! ## Encoding: PS-1, P3, CS-2 -/

theorem test_encode_sendn : (sendN [0x48, 0x69]).map encodeWord = [0x1048, 0x1069] := by decide
theorem test_encode_mreg :
    encode (.mreg 0x1234 0x0042 [0x6F, 0x6B]) = [0x02, 0xB0, 0x34, 0x12, 0x42, 0x00, 0x6F, 0x6B] := by decide
theorem test_encode_setup :
    encode (.setup 9600 8 1 0) = [0x00, 0xA0, 0x80, 0x25, 0x00, 0x00, 0x08, 0x01, 0x00] := by decide

/-! ## One step of each instruction -/

/-- TX-3: the push at the last cell wraps `in`. -/
theorem test_sendb_wraps :
    (after (exec (.sendb 0x58) (withTx (ring [1, 2, 3] 3 3 0) false))).map
      (fun t => (t.tx.buf.read 3, t.tx.inIdx, t.tx.count, t.txie, answers t)) =
      some (some 0x58, 0, 1, true, [(0x00, [])]) := rfl

/-- TX-6, first step. -/
theorem test_sendb_holds :
    after (exec (.sendb 0x51) (withTx (ring [1, 2, 3, 4] 1 1 4) true)) =
      some { withTx (ring [1, 2, 3, 4] 1 1 4) true with held := some (.sendb 0x51) } := by decide

/-- TX-10. -/
theorem test_sendnb_pushes :
    (after (exec (.sendnb 0x7A) (withTx (ring [1, 2] 2 2 0) false))).map
      (fun t => (t.tx.buf.read 2, t.tx.inIdx, t.tx.count, t.txie, answers t)) =
      some (some 0x7A, 3, 1, true, [(0x00, [1])]) := rfl

/-- TX-2. -/
theorem test_sendnb_full :
    (after (exec (.sendnb 0x45) (withTx (ring [1, 2, 3, 4] 0 0 4) true))).map (fun t => (t.tx, answers t)) =
      some (ring [1, 2, 3, 4] 0 0 4, [(0x00, [0])]) := by decide

/-- TX-5, first step. -/
theorem test_flushtx_holds :
    (after (exec .flushtx (withTx (ring [1, 2] 2 0 2) true))).map (fun t => (t.held, t.tx.count)) =
      some (some .flushtx, 2) := by decide

/-- TX-5, last step. -/
theorem test_flushtx_resets :
    (after (exec .flushtx { withTx (ring [1, 2] 2 2 0) false with held := some .flushtx })).map
      (fun t => (t.held, t.tx, answers t)) = some (none, ring [1, 2] 0 0 0, [(0x00, [])]) := by decide

/-- RX-10. -/
theorem test_recvb_wraps :
    (after (exec .recvb (withRx (ring [1, 2, 3, 0x77] 0 3 1)))).map (fun t => (t.rx.outIdx, t.rx.count, answers t)) =
      some (0, 0, [(0x00, [0x77])]) := by decide

/-- RX-12. -/
theorem test_recvb_holds : (after (exec .recvb ready)).map (fun t => (t.held, answers t)) = some (some .recvb, []) := by
  decide

/-- S6. -/
theorem test_recvnb_sentinel :
    (after (exec .recvnb (withRx (ring [1, 2] 2 2 0)))).map (fun t => (t.rx, answers t)) =
      some (ring [1, 2] 2 2 0, [(0x00, [0])]) := by decide

/-- RX-4: a received 0 is consumed. -/
theorem test_recvnb_zero :
    (after (exec .recvnb (withRx (ring [0] 1 0 1)))).map (fun t => (t.rx.count, answers t)) =
      some (0, [(0x00, [0])]) := by decide

/-- RX-5. -/
theorem test_peekb :
    (after (exec .peekb (withRx (ring [1, 2, 0x6F, 0x6B] 0 2 2)))).map (fun t => (t.rx.outIdx, t.rx.count, answers t)) =
      some (2, 2, [(0x00, [0x6F])]) := by decide

/-- RX-5, RX-6. -/
theorem test_peeknb :
    (after (exec .peeknb (withRx (ring [1, 2, 0x6F, 0x6B] 0 2 2)))).map answers = some [(0x00, [0x6F])] ∧
    (after (exec .peeknb ready)).map answers = some [(0x00, [0])] := by decide

/-- RX-8: B, C, D, E. -/
theorem test_peekn_clamps :
    (after (exec (.peekn 9) (withRx (ring [0x45, 0x42, 0x43, 0x44] 1 1 4)))).map (fun t => (t.rx.count, answers t)) =
      some (4, [(0x00, [0x42, 0x43, 0x44, 0x45])]) := by decide

/-- RX-9, first step. -/
theorem test_peekn_holds :
    (after (exec (.peekn 2) (withRx (ring [0x71] 1 0 1)))).map (fun t => (t.held, answers t)) =
      some (some (.peekn 2), []) := by decide

/-- RX-11. -/
theorem test_flushrx :
    (after (exec .flushrx (withRx (ring [1, 2, 3] 3 1 2)))).map (fun t => (t.rx, t.rxie, answers t)) =
      some (ring [1, 2, 3] 0 0 0, true, [(0x00, [])]) := by decide

/-- CS-2: the port calls. -/
theorem test_setup :
    (after (exec (.setup 9600 8 1 0) State.reset)).map (fun t => (t.portOut, t.rxie, answers t)) =
      some ([.setBaud 9600, .setFrame 8 1 0, .enable], true, [(0x00, [])]) := by decide

/-- CS-3. -/
theorem test_stat_ctrl :
    (after (exec .stat { withTx (ring [1, 2] 2 0 2) true with rxie := true })).map answers =
      some [(0x00, [0, 0, 0, 0, 0, 0, 2, 0, 0, 0, 2, 0, 3, 0, 0, 0, 0, 0])] := by decide

/-- CS-5. -/
theorem test_stat_match :
    (after (exec .stat (withTable (List.replicate 6 (entry [1] 0 1)) 0x21))).map (fun t => (t.lastData.drop 13)) =
      some [6, 0x21, 0, 0, 0] := by decide

/-- P3, step 1. -/
theorem test_mreg :
    (after (exec (.mreg 0x1234 0x0042 [0x6F, 0x6B]) ready)).map (fun t => (t.table, t.trig, answers t)) =
      some ([{ pat := [0x6F, 0x6B], prog := 0, handler := 0x1234, ctx := 0x42 }], 0, [(0x00, [])]) := by decide

/-- M-5 (truncation) and M-3 (precedence). -/
theorem test_mreg_truncates_and_reports :
    (after (exec (.mreg 2 0 [0x30, 0x31, 0x32, 0x33, 0x34, 0x35, 0x36, 0x37, 0x38, 0x39]) ready)).map
      (fun t => t.table.map Entry.pat) = some [[0x30, 0x31, 0x32, 0x33, 0x34, 0x35, 0x36, 0x37]] ∧
    (after (exec (.mreg 0 0 [0x7A]) (withTable fullTable 0))).map answers = some [(0x01, [])] := by decide

/-- M-11 under both settings of TRIG_COMPACTION. -/
theorem test_mdereg_compacts :
    (after (exec (.mdereg [0x78]) (withTable [entry [0x78] 0 1, entry [0x79] 0 2, entry [0x7A] 0 3] 6))).map
      (fun t => (t.table.map Entry.pat, t.trig)) = some ([[0x79], [0x7A]], 3) ∧
    (after (exec (.mdereg [0x78])
      { withTable [entry [0x78] 0 1, entry [0x79] 0 2, entry [0x7A] 0 3] 6 with
        cfg := { Config.testDefault with trigCompaction := .stayByPosition } })).map
      (fun t => (t.table.map Entry.pat, t.trig)) = some ([[0x79], [0x7A]], 6) := by decide

/-- M-10. -/
theorem test_mdereg_absent :
    (after (exec (.mdereg [0x6E, 0x6F]) (withTable [entry [0x6F, 0x6B] 1 1] 1))).map
      (fun t => (t.table, t.trig, answers t)) = some ([entry [0x6F, 0x6B] 1 1], 1, [(0x00, [])]) := by decide

/-- M-8 and M-13. -/
theorem test_mtrig :
    (after (exec (.mtrig 0) (withTable [{ pat := [0x6B], prog := 0, handler := 4, ctx := 0x10 }] 1))).map answers =
      some [(0x00, [1, 1, 0x04, 0x00, 0x10, 0x00])] ∧
    (after (exec (.mtrig 1) (withTable [entry [0x6B] 0 4] 1))).map answers = some [(0x00, [0, 0, 0, 0, 0, 0])] := by
  decide

/-- M-12. -/
theorem test_mclr :
    (after (exec (.mclr 2) (withTable (List.replicate 3 (entry [1] 0 1)) 5))).map State.trig = some 1 ∧
    (after (exec (.mclr 40) (withTable (List.replicate 3 (entry [1] 0 1)) 1))).map State.trig = some 1 := by decide

/-- M-17. -/
theorem test_match_absent :
    (after (exec (.rxc 0x6F) noMatch)).map (fun t => (t.rx.count, t.table, t.trig)) = some (1, [], 0) ∧
    decode false .command (wordBytes 0xB002 ++ [0x41, 0x10]) = .illegal [0x41, 0x10] := by decide

/-- RX-OV-1 and RX-OV-1b. -/
theorem test_rxc_overwrites :
    (after (exec (.rxc 0x45) (withRx (ring [0x41, 0x42, 0x43, 0x44] 0 0 4)))).map State.rx =
      some (ring [0x45, 0x42, 0x43, 0x44] 1 1 4) ∧
    (after (exec (.rxc 0x45) { withRx (ring [0x41, 0x42, 0x43, 0x44] 0 0 4) with
      cfg := { Config.testDefault with rxOverflow := .overwriteAtIn } })).map State.rx =
      some (ring [0x45, 0x42, 0x43, 0x44] 1 0 4) := by decide

/-- M-16, second byte; P4, step 4 (the single-character restart). -/
theorem test_rxc_advances :
    (after (exec (.rxc 0x62) (withTable [entry [0x61, 0x62] 1 9, entry [0x62] 0 10] 0))).map
      (fun t => (t.table.map Entry.prog, t.trig)) = some ([0, 0], 3) ∧
    (after (exec (.rxc 0x61) (withTable [entry aab 2 9] 0))).map (fun t => (t.table.map Entry.prog, t.trig)) =
      some ([1], 0) := by decide

/-- TX-4. -/
theorem test_txr_last_byte :
    (after (exec .txr (withTx (ring [0x48, 0x69] 2 1 1) true))).map
      (fun t => (t.portOut, t.tx.outIdx, t.tx.count, t.txie)) = some ([.writeData 0x69], 2, 0, false) ∧
    (after (exec .txr (withTx (ring [0x48, 0x69] 2 0 2) true))).map
      (fun t => (t.portOut, t.tx.outIdx, t.tx.count, t.txie)) = some ([.writeData 0x48], 1, 1, true) := by decide

/-- EV-5. -/
theorem test_txr_empty :
    (after (exec .txr (withTx Ring.empty true))).map (fun t => (t.portOut, t.txie)) = some ([], false) := by decide

/-! ## Steps -/

/-- EV-1, EV-2, EV-3. -/
theorem test_step_refusals :
    step { State.reset with turns := [.event 0xF200] } = .refused (.eventNotEnabled 0xF200) ∧
    step { State.reset with turns := [.event 0xF141] } = .refused (.eventNotEnabled 0xF141) ∧
    step { ready with turns := [.event 0xF000] } = .refused (.notAnEvent 0xF000) := ⟨rfl, rfl, rfl⟩

/-- IL-9: no payload byte is taken. -/
theorem test_step_illegal :
    (after (step { ready with turns := [.foreground], cmdIn := [0x02, 0xB1, 0x41, 0x10] })).map
      (fun t => (t.cmdIn, answers t)) = some ([0x41, 0x10], [(0xFF, [])]) := by decide

/-- The first instruction after reset, on both ports. -/
theorem test_step_fetch_word :
    (after (step (State.reset.withFetchWord 16 0x1041))).map (fun t => t.tx) = some (ring [0x41] 1 0 1) ∧
    (after (step (State.reset.withFetchWord 16 0xF141))).map (fun t => t.rx) = some (ring [0x41] 1 0 1) := by decide

/-- CS-1, R32. -/
theorem test_reset :
    (after (exec .stat State.reset)).map answers = some [(0x00, List.replicate 18 0)] ∧
    State.reset.rx.buf.wf = true ∧ State.reset.tx.buf.wf = true := by decide

/-- R70: with RX_SIZE 1, RECVB held and A received, the next step answers A, although P has B ready. -/
theorem test_held_recvb_is_first :
    (after (andThen (exec (.rxc 0x41) { withRx Ring.empty with
        cfg := { Config.testDefault with rxSize := 1 }, held := some .recvb, turns := [.event 0xF142] }) step)).map
      (fun t => (t.held, t.rx.count, answers t, t.turns)) =
      some (none, 0, [(0x00, [0x41])], [.event 0xF142]) := rfl

/-- The place, the calls, TRIG and the answers of a sweep's outcome. -/
def sweepView : Host.Outcome Sweep Fault Refusal →
    Option (SweepPoint × List (Word × Word) × BitVec 32 × Option Instr × List (Byte × List Byte))
  | .next x => some (x.point, x.calls, x.block.trig, x.block.held, answers x.block)
  | .fault _ => none
  | .refused _ => none

/-- "k" with handler 4 and context 0x10, triggered. -/
def triggered : State := withTable [{ pat := [0x6B], prog := 0, handler := 4, ctx := 0x10 }] 1

/-- The answers of MTRIG 0, MCLR 0 and MTRIG 1 in a sweep of `triggered`. -/
def trig0 : Byte × List Byte := (0x00, [1, 1, 4, 0, 0x10, 0])
def clr0 : Byte × List Byte := (0x00, [])
def trig1 : Byte × List Byte := (0x00, [0, 0, 0, 0, 0, 0])

/-- M-8: two matches, one call. -/
theorem test_sweep_calls_once :
    sweepView (Sweep.run quietHandlers (List.replicate 4 .foreground) (Sweep.start triggered)) =
      some (.done, [(4, 0x10)], 0, none, [trig0, clr0, trig1]) := rfl

/-- A handler that issues RECVB and returns once it is answered. -/
def receivingHandler : Handlers := fun _ _ _ since =>
  match since with
  | [] => .present (encode .recvb)
  | _ => .ret

/-- R93, R115: a handler whose RECVB holds holds the sweep, the bit stays 1; once a byte comes RECVB answers, then MCLR. -/
theorem test_sweep_waits_for_handler :
    sweepView (Sweep.run receivingHandler (List.replicate 5 .foreground) (Sweep.start triggered)) =
      some (.call 0 4 0x10 1, [(4, 0x10)], 1, some .recvb, [trig0]) ∧
    sweepView (Sweep.run receivingHandler
        (List.replicate 3 .foreground ++ [.event 0xF141] ++ List.replicate 3 .foreground) (Sweep.start triggered)) =
      some (.done, [(4, 0x10)], 0, none, [trig0, (0x00, [0x41]), clr0, trig1]) := ⟨rfl, rfl⟩

/-- A handler that presents what is given, once, and returns. -/
def presenting (bytes : List Byte) : Handlers := fun _ _ _ since =>
  match since with
  | [] => .present bytes
  | _ => .ret

/-- R123, R29: two units a handler presents are run one after the other, none is lost. R97, M-17: after an illegal word the
next bytes are read as a new command word. -/
theorem test_sweep_handler_units :
    sweepView (Sweep.run (presenting (encode .flushtx ++ encode .flushrx)) (List.replicate 6 .foreground)
        (Sweep.start triggered)) =
      some (.done, [(4, 0x10)], 0, none, [trig0, (0x00, []), (0x00, []), clr0, trig1]) ∧
    sweepView (Sweep.run (presenting (wordBytes 0x3001 ++ encode .recvnb)) (List.replicate 6 .foreground)
        (Sweep.start triggered)) =
      some (.done, [(4, 0x10)], 0, none, [trig0, (0xFF, []), (0x00, [0]), clr0, trig1]) := ⟨rfl, rfl⟩

/-- PS-2, PS-5: RECVN is not clamped. -/
theorem test_recvn : recvN 0 = [] ∧ recvN 6 = List.replicate 6 .recvb := by decide

/-! ## States that meet the invariant -/

/-- One byte received and one queued, both enables up, one entry registered and triggered, `held` as given. -/
def busy (held : Option Instr) : State :=
  { State.reset with
    rx := (Ring.empty.pushTry 4 0x61).1
    tx := (Ring.empty.pushTry 4 0x48).1
    rxie := true
    txie := true
    table := [entry [0x61, 0x62] 1 9]
    trig := 1
    held := held }

/-- A transmit ring of one cell, full, with a SENDB held. -/
def blocked : State :=
  { State.resetWith { Config.testDefault with txSize := 1 } with
    tx := (Ring.empty.pushTry 1 0x41).1
    txie := true
    held := some (.sendb 0x42) }

theorem empty_coherent (N : Nat) : Ring.empty.Coherent N := by simp [Ring.empty, Ring.Coherent]

theorem reset_inv : State.reset.Inv where
  cfgLegal := by decide
  rxInv := Ring.inv_empty (by decide)
  txInv := Ring.inv_empty (by decide)
  txCoherent := empty_coherent _
  rxCoherent := .inl (empty_coherent _)
  txieIff := by decide
  tableLe := by decide
  entries := by intro e h; cases h
  trigHigh := fun _ _ => BitVec.getLsbD_zero
  trigShift := fun _ _ _ => BitVec.getLsbD_zero
  matchOff := by decide
  heldHolds := by intro i h; cases h
  rxQuiet := fun _ => rfl

theorem noMatch_inv : noMatch.Inv :=
  { reset_inv with cfgLegal := by decide, matchOff := fun _ => ⟨rfl, rfl⟩ }

theorem one_high (k : Nat) (h : 1 ≤ k) : (1 : BitVec 32).getLsbD k = false := by
  rw [show (1 : BitVec 32) = BitVec.ofNat 32 1 from rfl, BitVec.getLsbD_ofNat]
  simp only [Bool.and_eq_false_iff]
  exact .inr (Nat.testBit_lt_two_pow (Nat.one_lt_two_pow (by omega)))

theorem busy_inv (held : Option Instr) (h : ∀ i, held = some i → i.holding = true ∧ i.wellFormed = true) :
    (busy held).Inv where
  cfgLegal := rfl
  rxInv := (Ring.inv_empty (by decide)).pushTry (.inl (empty_coherent _)) _
  txInv := (Ring.inv_empty (by decide)).pushTry (.inl (empty_coherent _)) _
  txCoherent := (empty_coherent _).pushTry _
  rxCoherent := .inl ((empty_coherent _).pushTry _)
  txieIff := ⟨fun _ => Nat.zero_lt_one, fun _ => rfl⟩
  tableLe := show 1 ≤ 8 by decide
  entries := by
    intro e he
    obtain rfl := List.mem_singleton.mp he
    exact ⟨show 2 ≤ 8 by decide, by decide, by decide, by decide⟩
  trigHigh := fun k hk => one_high k (Nat.le_trans (show 1 ≤ 8 by decide) hk)
  trigShift := fun _ k hk => one_high k hk
  matchOff := fun h => by cases h
  heldHolds := h
  rxQuiet := fun h => by cases h

theorem blocked_inv : blocked.Inv where
  cfgLegal := by decide
  rxInv := Ring.inv_empty (by decide)
  txInv := (Ring.inv_empty (by decide)).pushTry (.inl (empty_coherent _)) _
  txCoherent := (empty_coherent _).pushTry _
  rxCoherent := .inl (empty_coherent _)
  txieIff := by decide
  tableLe := by decide
  entries := by intro e h; cases h
  trigHigh := fun _ _ => BitVec.getLsbD_zero
  trigShift := fun _ _ _ => BitVec.getLsbD_zero
  matchOff := by decide
  heldHolds := by intro i h; obtain rfl := Option.some.inj h; exact ⟨rfl, rfl⟩
  rxQuiet := fun _ => rfl

theorem idle_inv : (busy none).Inv := busy_inv none fun _ h => nomatch h

theorem waiting_inv : (busy (some .flushtx)).Inv :=
  busy_inv _ fun i h => by obtain rfl := Option.some.inj h; exact ⟨rfl, rfl⟩

/-! ## Witnesses: encoding and the step -/

theorem witness_DecodeOfEncodeIsIdentity :
    ((Instr.peekn 4095).wellFormed = true ∧ ((Instr.peekn 4095).usesMatch = true → false = true)) ∧
    ((Instr.mtrig 255).wellFormed = true ∧ ((Instr.mtrig 255).usesMatch = true → true = true)) ∧
    (Instr.mreg 0xFFFF 0xFFFF (List.replicate 255 0xFF)).wellFormed = true :=
  ⟨by decide, by decide, by rw [Instr.wellFormed, List.length_replicate]; rfl⟩

theorem witness_EncodeOfDecodeIsIdentity :
    decode false .command [0xFF, 0x7F, 0xAA] = .unit (.peekn 4095) [0xAA] ∧
    decode true .command [0x00, 0xC0] = .unit (.mdereg []) [] ∧
    decode true .event [0xFF, 0xF1] = .unit (.rxc 0xFF) [] := by decide

theorem witness_StepRunsTheDecodedCommand : ∃ (s : State) (ts : List Turn) (i : Instr) (rest : List Byte),
    s.turns = .foreground :: ts ∧ s.held = none ∧ decode s.cfg.matchEnabled .command s.cmdIn = .unit i rest :=
  ⟨{ ready with turns := [.foreground], cmdIn := [0x41, 0x10, 0x00] }, [], .sendb 0x41, [0x00], rfl, rfl, rfl⟩

/-- With no command held, and with one whose condition is false. -/
theorem witness_EventsAreGatedByTheirEnables :
    (∃ (s : State) (ts : List Turn) (b : Byte), (∀ i, s.held = some i → s.ready i = false) ∧
      s.turns = .event (0xF1#8 ++ b) :: ts ∧ s.rxie = true) ∧
    (∃ (s : State) (ts : List Turn) (b : Byte), (∀ i, s.held = some i → s.ready i = false) ∧
      s.turns = .event (0xF1#8 ++ b) :: ts ∧ s.rxie = false) ∧
    (∃ (s : State) (ts : List Turn), (∀ i, s.held = some i → s.ready i = false) ∧
      s.turns = .event 0xF200 :: ts ∧ s.txie = true ∧ s.held = some .flushtx) ∧
    (∃ (s : State) (ts : List Turn), (∀ i, s.held = some i → s.ready i = false) ∧
      s.turns = .event 0xF200 :: ts ∧ s.txie = false) :=
  ⟨⟨{ ready with turns := [.event 0xF1FF] }, [], 0xFF, nofun, rfl, rfl⟩,
   ⟨{ State.reset with turns := [.event 0xF100] }, [], 0x00, nofun, rfl, rfl⟩,
   ⟨{ busy (some .flushtx) with turns := [.event 0xF200] }, [],
     fun i h => by obtain rfl := Option.some.inj h; rfl, rfl, rfl, rfl⟩,
   ⟨{ State.reset with turns := [.event 0xF200] }, [], nofun, rfl, rfl⟩⟩

theorem witness_IllegalWordIsAnsweredAndChangesNothing :
    (∃ (s : State) (ts : List Turn) (w : Word) (rest : List Byte), s.turns = .foreground :: ts ∧ s.held = none ∧
      s.cmdIn = wordBytes w ++ rest ∧ decodeWord s.cfg.matchEnabled .command w = .illegal) ∧
    (∃ (s : State) (ts : List Turn) (w : Word), s.turns = .event w :: ts ∧ (∀ i, s.held = some i → s.ready i = false) ∧
      ¬ (w.toNat / 256 = 0xF1 ∨ w.toNat = 0xF200)) ∧
    ∃ (s : State) (ts : List Turn) (w : Word), s.turns = .event w :: ts ∧ (∀ i, s.held = some i → s.ready i = false) ∧
      (w.toNat / 256 = 0xF1 ∨ w.toNat = 0xF200) :=
  ⟨⟨{ ready with turns := [.foreground], cmdIn := [0x02, 0xB1, 0x41] }, [], 0xB102, [0x41], rfl, rfl, rfl, rfl⟩,
   ⟨{ ready with turns := [.event 0xF201] }, [], 0xF201, rfl, nofun, by decide⟩,
   ⟨{ ready with turns := [.event 0xF1FF] }, [], 0xF1FF, rfl, nofun, by decide⟩⟩

/-- Clause by clause: the last byte keeps FLUSHTX waiting, on F's turn and in a sweep; a drained ring does not. -/
theorem witness_HoldingCommandsWaitForTheirCondition :
    (withTx (ring [1, 2, 3, 4] 0 0 4) true).ready (.sendb 5) = false ∧
    (∃ (s : State) (ts : List Turn) (i : Instr), s.held = some i ∧ s.ready i = false ∧ s.turns = .foreground :: ts) ∧
    (∃ (x : Sweep) (i : Instr), x.block.held = some i ∧ x.block.ready i = false) ∧
    (∃ (s : State) (i : Instr), s.held = some i ∧ s.ready i = true) ∧
    ((Instr.sendb 5).port = .command ∧ (withTx (ring [1, 2, 3] 3 0 3) true).ready (.sendb 5) = true ∧
      ∃ t, exec (.sendb 5) (withTx (ring [1, 2, 3] 3 0 3) true) = .next t) ∧
    Instr.stat.holding = false ∧
    ((busy (some .flushtx)).Inv ∧ Instr.flushtx.holding = true ∧ Instr.txr.port = .event ∧
      ∃ t, exec .txr (busy (some .flushtx)) = .next t ∧ t.ready .flushtx = true) ∧
    ((busy (some .flushtx)).ready .recvb = true ∧ ∃ t, exec .txr (busy (some .flushtx)) = .next t) :=
  ⟨rfl, ⟨{ busy (some .flushtx) with turns := [.foreground] }, [], .flushtx, rfl, rfl, rfl⟩,
   ⟨Sweep.start (busy (some .flushtx)), .flushtx, rfl, rfl⟩, ⟨{ State.reset with held := some .flushtx }, .flushtx, rfl, rfl⟩,
   ⟨rfl, rfl, _, rfl⟩, rfl, ⟨waiting_inv, rfl, rfl, _, rfl, rfl⟩, rfl, _, rfl⟩

/-! ## Witnesses: the rings -/

theorem witness_SendbPushesOrHolds :
    ((0x1F00 : Word).toNat / 4096 = 0x1 ∧ (0x1F00 : Word).toNat / 256 % 16 ≠ 0) ∧
    (withTx (ring [1, 2, 3] 3 0 3) true).tx.count < (withTx (ring [1, 2, 3] 3 0 3) true).cfg.txSize ∧
    (withTx (ring [1, 2, 3, 4] 0 0 4) true).cfg.txSize ≤ (withTx (ring [1, 2, 3, 4] 0 0 4) true).tx.count := by decide

theorem witness_SendnbPushesOrReportsFull :
    (withTx (ring [1, 2, 3] 3 0 3) true).tx.count ≠ (withTx (ring [1, 2, 3] 3 0 3) true).cfg.txSize ∧
    (withTx (ring [1, 2, 3, 4] 0 0 4) true).tx.count = (withTx (ring [1, 2, 3, 4] 0 0 4) true).cfg.txSize := by decide

theorem witness_FlushtxWaitsForDrainThenResets :
    State.reset.tx.count = 0 ∧ (withTx (ring [1] 1 0 1) true).tx.count ≠ 0 := by decide

/-- Of RecvbPopsOrHolds and RecvnbPopsOrAnswersSentinel. -/
theorem witness_RecvbPopsOrHolds :
    (0 < (withRx (ring [0, 0, 0, 7] 0 3 1)).rx.count ∧
      (withRx (ring [0, 0, 0, 7] 0 3 1)).rx.buf.read (withRx (ring [0, 0, 0, 7] 0 3 1)).rx.outIdx = some 7) ∧
    ready.rx.count = 0 ∧
    ((busy (some .recvb)).held = some .recvb ∧ 0 < (busy (some .recvb)).rx.count) := by decide

/-- Of PeekbReadsWithoutConsuming and PeeknbReadsOrAnswersSentinel. -/
theorem witness_PeekbReadsWithoutConsuming :
    (0 < (withRx (ring [0, 0, 0, 7] 0 3 1)).rx.count ∧
      (withRx (ring [0, 0, 0, 7] 0 3 1)).rx.buf.read
        ((withRx (ring [0, 0, 0, 7] 0 3 1)).rx.outIdx % (withRx (ring [0, 0, 0, 7] 0 3 1)).cfg.rxSize) = some 7) ∧
    ready.rx.count = 0 := by decide

theorem witness_PeeknReadsTheOldestBytesOrHolds :
    4095 ≤ 4095 ∧
    (([0x42, 0x43, 0x44, 0x45] : List Byte).length = min 4095 (withRx (ring [0x45, 0x42, 0x43, 0x44] 1 1 4)).cfg.rxSize ∧
      min 4095 (withRx (ring [0x45, 0x42, 0x43, 0x44] 1 1 4)).cfg.rxSize ≤
        (withRx (ring [0x45, 0x42, 0x43, 0x44] 1 1 4)).rx.count ∧
      ∀ k, k < 4 → (withRx (ring [0x45, 0x42, 0x43, 0x44] 1 1 4)).rx.buf.read
        (((withRx (ring [0x45, 0x42, 0x43, 0x44] 1 1 4)).rx.outIdx + k) %
          (withRx (ring [0x45, 0x42, 0x43, 0x44] 1 1 4)).cfg.rxSize) =
        ([0x42, 0x43, 0x44, 0x45] : List Byte)[k]?) ∧
    (withRx (ring [1, 2, 3] 3 0 3)).rx.count < min 4 (withRx (ring [1, 2, 3] 3 0 3)).cfg.rxSize := by decide

theorem witness_TxrSendsTheOldestByte :
    State.reset.tx.count = 0 ∧
    (0 < (withTx (ring [7] 1 0 1) true).tx.count ∧
      (withTx (ring [7] 1 0 1) true).tx.buf.read (withTx (ring [7] 1 0 1) true).tx.outIdx = some 7 ∧
      (withTx (ring [7] 1 0 1) true).tx.count = 1) ∧
    (0 < (withTx (ring [7, 8] 2 0 2) true).tx.count ∧
      (withTx (ring [7, 8] 2 0 2) true).tx.buf.read (withTx (ring [7, 8] 2 0 2) true).tx.outIdx = some 7) := by decide

/-- The last position of a table of 32, an entry of length 0 and one of length 1. -/
theorem witness_RxcAdvancesEveryEntryAndPushes :
    noMatch.cfg.matchEnabled = false ∧ ready.cfg.matchEnabled = true ∧
    ((withTable [entry [] 0 1, entry [0x6B] 0 1] 0).table[0]? = some (entry [] 0 1) ∧ (entry [] 0 1).pat.length = 0) ∧
    ((withTable [entry [] 0 1, entry [0x6B] 0 1] 0).table[1]? = some (entry [0x6B] 0 1) ∧
      0 < (entry [0x6B] 0 1).pat.length) ∧ 31 < 32 := by decide

theorem witness_OverflowingPushKeepsCount :
    (ring [1, 2, 3] 3 0 3).count < 4 ∧
    ∃ r : Ring, r.count = 4 ∧ r.Inv 4 ∧ r.Coherent 4 :=
  ⟨by decide, ((((Ring.empty.pushTry 4 1).1.pushTry 4 2).1.pushTry 4 3).1.pushTry 4 4).1, rfl,
    (((((Ring.inv_empty (by decide)).pushTry (.inl (empty_coherent _)) _).pushTry
      (.inl ((empty_coherent _).pushTry _)) _).pushTry (.inl (((empty_coherent _).pushTry _).pushTry _)) _).pushTry
      (.inl ((((empty_coherent _).pushTry _).pushTry _).pushTry _)) _),
    ((((empty_coherent _).pushTry _).pushTry _).pushTry _).pushTry _⟩

/-! ## Witnesses: the match engine -/

theorem witness_AutomatonStepIsTheDocumentedOne :
    (1 ≤ aab.length ∧ 2 < aab.length) ∧
    (aab[2]? = some 0x62 ∧ 2 + 1 = aab.length) ∧
    (aab[0]? = some 0x61 ∧ 0 + 1 < aab.length) ∧
    (aab[2]? ≠ some 0x61 ∧ 0 < 2 ∧ aab[0]? = some 0x61) ∧
    (aab[0]? ≠ some 0x78 ∧ (0 = 0 ∨ aab[0]? ≠ some 0x78)) ∧ (aab[1]? ≠ some 0x62 ∧ aab[0]? ≠ some 0x62) := by decide

theorem witness_TriggersMarkRealOccurrences :
    1 ≤ (entry aab 0 1).pat.length ∧ (entry aab 0 1).prog = 0 ∧ (feedEntry (0x78 :: aab) (entry aab 0 1)).2 = true := by
  decide

theorem witness_MregAppendsAnEntryOrReports :
    (List.replicate 255 (0xFF : Byte)).length ≤ 255 ∧
    ((withTable (fullTable.drop 1) 0).cfg.matchEnabled = true ∧ (1 : Word) ≠ 0 ∧
      (withTable (fullTable.drop 1) 0).nEnt ≠ (withTable (fullTable.drop 1) 0).cfg.maxPatterns) ∧
    ((withTable fullTable 0).cfg.matchEnabled = true ∧ (withTable fullTable 0).nEnt = (withTable fullTable 0).cfg.maxPatterns) ∧
    noMatch.cfg.matchEnabled = false :=
  ⟨Nat.le_of_eq List.length_replicate, by decide, by decide, rfl⟩

theorem witness_MregErrorPrecedence :
    (0xB0FF : Word).toNat / 256 = 0xB0 ∧
    ((withTable fullTable 0).cfg.matchEnabled = true ∧ (withTable fullTable 0).nEnt = (withTable fullTable 0).cfg.maxPatterns) ∧
    ((0 : Word) = 0 ∧ (1 : Word) ≠ 0) := by decide

/-- Two entries with one pattern: the first is found, whatever follows it. -/
theorem witness_FindEntryIsTheFirstExactMatch :
    findEntry [entry [1] 0 1, entry [1, 2] 0 2, entry [1, 2] 1 3] [1, 2] = some 1 ∧
    findEntry [entry [1] 0 1, entry [1, 2] 0 2] [2] = none := by decide

theorem witness_MderegRemovesTheFirstMatch :
    (List.replicate 255 (0xFF : Byte)).length ≤ 255 ∧
    (ready.cfg.matchEnabled = true ∧ findEntry fullTable ([0x6B].take 8) = some 0) ∧
    (ready.cfg.trigCompaction = .shiftWithEntries ∧
      ({ Config.testDefault with trigCompaction := .stayByPosition } : Config).trigCompaction = .stayByPosition) ∧
    findEntry ready.table (([] : List Byte).take 8) = none ∧ noMatch.cfg.matchEnabled = false :=
  ⟨Nat.le_of_eq List.length_replicate, by decide, by decide, by decide, rfl⟩

/-- The last valid position and the first invalid one. -/
theorem witness_MtrigReportsTheDispatchTarget :
    ((withTable fullTable 0x80).cfg.matchEnabled = true ∧ (withTable fullTable 0x80).table[7]? = some (entry [0x6B] 0 1)) ∧
    (withTable fullTable 0x80).nEnt ≤ 8 ∧ noMatch.cfg.matchEnabled = false := by decide

/-- The last position below MAX_PATTERNS and the first above. -/
theorem witness_MclrClearsOneTriggerBit :
    (ready.cfg.matchEnabled = true ∧ 7 < ready.cfg.maxPatterns) ∧ ready.cfg.maxPatterns ≤ 8 ∧
    noMatch.cfg.matchEnabled = false := by decide

theorem witness_NoMatchEngineNoMatchCommands :
    ((0xB000 : Word).toNat / 4096 ∈ [0xB, 0xC, 0xD, 0xE] ∧ (0xEFFF : Word).toNat / 4096 ∈ [0xB, 0xC, 0xD, 0xE]) ∧
    noMatch.cfg.matchEnabled = false ∧ Reachable noMatch :=
  ⟨by decide, rfl, Reachable.reset _ (by decide)⟩

/-- The least and the greatest illegal `imm8` beside STAT. -/
theorem witness_StatReportsTheBlock : (0x01 : Byte) ≠ 0 ∧ (0xFF : Byte) ≠ 0 := by decide

/-! ## Witnesses: whole-machine rules -/

/-- Of OnlySetupWritesRxie, ParametersNeverChange and PortCallsComeFromTxrAndSetup. -/
theorem witness_OnlySetupWritesRxie :
    (∃ t, exec (.setup 9600 8 1 0) State.reset = .next t) ∧
    (∃ t, exec .stat State.reset = .next t ∧ ∀ r cs sb par, Instr.stat ≠ .setup r cs sb par) ∧
    (∃ t, exec .txr (busy none) = .next t) ∧ ∃ t, step State.reset = .next t :=
  ⟨⟨_, rfl⟩, ⟨_, rfl, by simp⟩, ⟨_, rfl⟩, ⟨_, rfl⟩⟩

theorem witness_TxieIsSetByPushesAndClearedByTxr :
    (∃ t, exec (.sendb 1) State.reset = .next t ∧ t.held = none) ∧
    (∃ t, exec (.sendb 1) (withTx (ring [1, 2, 3, 4] 0 0 4) true) = .next t ∧ t.held = some (.sendb 1)) ∧
    (∃ t, exec (.sendnb 1) (withTx (ring [1, 2, 3, 4] 0 0 4) true) = .next t) ∧
    (∃ t, exec .txr (busy none) = .next t) ∧ ∃ t, exec .stat (busy none) = .next t :=
  ⟨⟨_, rfl, rfl⟩, ⟨_, rfl, rfl⟩, ⟨_, rfl⟩, ⟨_, rfl⟩, ⟨_, rfl⟩⟩

/-- Of RingWritersAreTheListedOnes and EveryOtherCellReadsAsBefore. -/
theorem witness_RingWritersAreTheListedOnes :
    (∃ t, exec (.rxc 7) ready = .next t ∧ t.rx ≠ ready.rx ∧ t.rx.buf.read ready.rx.inIdx ≠ ready.rx.buf.read ready.rx.inIdx) ∧
    ∃ t, exec (.sendb 7) ready = .next t ∧ t.tx ≠ ready.tx ∧
      t.tx.buf.read ready.tx.inIdx ≠ ready.tx.buf.read ready.tx.inIdx :=
  ⟨⟨_, rfl, by decide, by decide⟩, ⟨_, rfl, by decide, by decide⟩⟩

theorem witness_MatchStateWritersAreTheListedOnes :
    (∃ t, exec (.mreg 1 0 [1]) ready = .next t ∧ t.table ≠ ready.table ∧ ready.nEnt < t.nEnt) ∧
    (∃ t, exec (.mdereg [0x6B]) (withTable fullTable 0) = .next t ∧ t.table ≠ (withTable fullTable 0).table ∧
      t.nEnt < (withTable fullTable 0).nEnt) ∧
    ((∀ p, Instr.rxc 0x61 ≠ .mdereg p) ∧ (withTable [entry aab 0 9] 0).table[0]? = some (entry aab 0 9) ∧
      ∃ t, exec (.rxc 0x61) (withTable [entry aab 0 9] 0) = .next t ∧ t.table[0]? = some (entry aab 1 9)) ∧
    (∃ t, exec (.mclr 7) (withTable fullTable 0x80) = .next t ∧ (withTable fullTable 0x80).trig.getLsbD 7 = true ∧
      t.trig.getLsbD 7 = false) ∧
    ∃ t, exec (.rxc 0x6B) (withTable fullTable 0) = .next t ∧ (withTable fullTable 0).trig.getLsbD 7 = false ∧
      t.trig.getLsbD 7 = true :=
  ⟨⟨_, rfl, by decide, by decide⟩, ⟨_, rfl, by decide, by decide⟩, ⟨nofun, rfl, _, rfl, rfl⟩,
   ⟨_, rfl, by decide, by decide⟩, ⟨_, rfl, by decide, by decide⟩⟩

theorem witness_EveryCommandEndsWithOneResponse :
    (∃ t, exec (.rxc 7) ready = .next t ∧ (Instr.rxc 7).port = .event) ∧
    (∃ t, exec (.mreg 0 0 []) ready = .next t ∧ (Instr.mreg 0 0 []).port = .command ∧ answers t = [(0x01, [])]) ∧
    (∃ t, exec (.mtrig 0) noMatch = .next t ∧ answers t = [(0xFF, [])]) ∧
    (∃ t, exec .recvb ready = .next t ∧ t = { ready with held := some .recvb }) ∧
    ∃ t, exec .stat ready = .next t ∧ (answers t).map (fun a => (a.1, a.2.length)) = [(0x00, 18)] :=
  ⟨⟨_, rfl, rfl⟩, ⟨_, rfl, rfl, rfl⟩, ⟨_, rfl, rfl⟩, ⟨_, rfl, rfl⟩, ⟨_, rfl, rfl⟩⟩

theorem witness_PeeksRepeatAndReceivesConsume :
    (0 < (busy none).rx.count ∧ ∃ t, exec .recvb (busy none) = .next t) ∧
    (0 < (busy none).tx.count ∧ ∃ t, exec .txr (busy none) = .next t) ∧
    ((busy none).ready (.peekn 1) = true ∧ ∃ t, exec (.peekn 1) (busy none) = .next t) :=
  ⟨⟨by decide, _, rfl⟩, ⟨by decide, _, rfl⟩, ⟨rfl, _, rfl⟩⟩

/-! ## Witnesses: reset, invariants, reachable states -/

/-- A configuration at the lower ends of its ranges, one at the upper ends, and the test defaults. -/
theorem witness_ResetMeetsTheInvariant :
    ({ Config.testDefault with rxSize := 1, txSize := 1, maxSeqLen := 1, maxPatterns := 1 } : Config).legal = true ∧
    ({ Config.testDefault with rxSize := 65535, txSize := 65535, maxSeqLen := 255, maxPatterns := 32 } : Config).legal = true ∧
    Config.testDefault.legal = true ∧ Config.testDefault.rxOverflow = .overwriteOldest ∧
    Config.testDefault.trigCompaction = .shiftWithEntries := by decide

theorem witness_StepKeepsTheInvariant :
    (State.reset.Inv ∧ ∃ t, step State.reset = .next t) ∧
    ({ busy (some .flushtx) with turns := [.event 0xF200] }.Inv ∧
      ∃ t, step { busy (some .flushtx) with turns := [.event 0xF200] } = .next t) :=
  ⟨⟨reset_inv, _, rfl⟩, { waiting_inv with }, _, rfl⟩

/-- SETUP, MREG "k" and SENDB have run from reset, and an event of each kind is next. -/
def started : State :=
  { State.reset with
    rxie := true
    tx := { Ring.empty with buf := [(0, 0x48)], inIdx := 1, count := 1 }
    txie := true
    table := [entry [0x6B] 0 1]
    turns := [.event 0xF16B, .event 0xF200]
    portOut := [.setBaud 9600, .setFrame 8 1 0, .enable]
    responses := List.replicate 3 { status := .ok, data := [] } }

theorem started_reachable : Reachable started := by
  have h0 := Reachable.supply _
    (encode (.setup 9600 8 1 0) ++ encode (.mreg 1 0 [0x6B]) ++ encode (.sendb 0x48))
    [.foreground, .foreground, .foreground, .event 0xF16B, .event 0xF200] (Reachable.reset Config.testDefault (by decide))
  exact Reachable.step _ _ (Reachable.step _ _ (Reachable.step _ _ h0 rfl) rfl) rfl

/-- Of every statement about reachable states whose one hypothesis is that: NoReachableStateFaults, TxieTracksTxOccupancy,
RingCountsStayInBounds, IndicesFitTheirWidth, IndicesStayCoherent, EntryProgressStaysBelowLength. -/
theorem witness_NoReachableStateFaults :
    Reachable started ∧ started.dutiful ∧ started.table[0]? = some (entry [0x6B] 0 1) ∧
    started.cfg.rxOverflow = .overwriteOldest ∧ 0 < (entry [0x6B] 0 1).pat.length :=
  ⟨started_reachable, fun _ => .inl ⟨rfl, rfl⟩, rfl, rfl, by decide⟩

/-- The lower end of each range: MAX_PATTERNS for the trigger bits, n_ent for the dispatch. -/
theorem witness_StaleTriggersAreNeverDispatched :
    Reachable started ∧ started.cfg.maxPatterns ≤ 8 ∧ started.cfg.trigCompaction = .shiftWithEntries ∧ started.nEnt ≤ 1 ∧
    started.cfg.matchEnabled = true ∧ ∃ t, exec (.mreg 1 0 [1]) started = .next t ∧ t.nEnt = started.nEnt + 1 :=
  ⟨started_reachable, by decide, rfl, by decide, rfl, _, rfl, rfl⟩

theorem witness_NothingIsReceivedBeforeSetup : ∃ (s : State) (b : Byte) (ts : List Turn),
    Reachable s ∧ s.rxie = false ∧ (∀ i, s.held = some i → s.ready i = false) ∧
    s.turns = .event (0xF1#8 ++ b) :: ts :=
  ⟨_, 0x41, [], Reachable.supply _ [] [.event 0xF141] (Reachable.reset Config.testDefault (by decide)), rfl, nofun, rfl⟩

/-- Cells no push has written, in states no run comes to. -/
theorem witness_OnlyUnwrittenCellsFault :
    (∃ f, exec .recvb (withRx (ring [] 1 0 1)) = .fault f) ∧
    (0 < (withRx (ring [] 1 0 1)).rx.count ∧
      (withRx (ring [] 1 0 1)).rx.buf.read (withRx (ring [] 1 0 1)).rx.outIdx = none ∧
      (withRx (ring [] 1 0 1)).rx.buf.read
        ((withRx (ring [] 1 0 1)).rx.outIdx % (withRx (ring [] 1 0 1)).cfg.rxSize) = none) ∧
    (0 < (withTx (ring [] 1 0 1) true).tx.count ∧
      (withTx (ring [] 1 0 1) true).tx.buf.read (withTx (ring [] 1 0 1) true).tx.outIdx = none) ∧
    (min 4095 (withRx (ring [1, 2, 3] 0 0 4)).cfg.rxSize ≤ (withRx (ring [1, 2, 3] 0 0 4)).rx.count ∧
      3 < min 4095 (withRx (ring [1, 2, 3] 0 0 4)).cfg.rxSize ∧
      (withRx (ring [1, 2, 3] 0 0 4)).rx.buf.read
        (((withRx (ring [1, 2, 3] 0 0 4)).rx.outIdx + 3) % (withRx (ring [1, 2, 3] 0 0 4)).cfg.rxSize) = none) :=
  ⟨⟨_, rfl⟩, by decide, by decide, by decide⟩

/-! ## Witnesses: streams, sweep, progress -/

theorem witness_TxBytesReachThePortInOrder :
    ((busy none).Inv ∧ ∃ t, exec .txr (busy none) = .next t) ∧ ∃ t, exec (.sendb 1) (busy none) = .next t :=
  ⟨⟨idle_inv, _, rfl⟩, _, rfl⟩

/-- One byte held, three more fill the ring. -/
theorem witness_ReceivedBytesComeOutInOrder : ∃ t,
    (busy none).Inv ∧ (busy none).held = none ∧ (busy none).rx.Coherent (busy none).cfg.rxSize ∧
    (busy none).rx.count + ([0x00, 0xFF, 0x01] : List Byte).length ≤ (busy none).cfg.rxSize ∧
    issueAll (([0x00, 0xFF, 0x01] : List Byte).map .rxc) (busy none) = .next t ∧ (busy none).rxie = true :=
  ⟨_, idle_inv, rfl, (empty_coherent _).pushTry _, by decide, rfl, rfl⟩

theorem witness_PeekThenReceiveGivesTheSameBytes :
    (busy none).Inv ∧ (busy none).held = none ∧ min 1 (busy none).cfg.rxSize ≤ (busy none).rx.count :=
  ⟨idle_inv, rfl, by decide⟩

theorem witness_SendnQueuesItsBytesInOrder :
    (busy none).Inv ∧ (busy none).held = none ∧
    (busy none).tx.count + ([1, 2, 3] : List Byte).length ≤ (busy none).cfg.txSize :=
  ⟨idle_inv, rfl, by decide⟩

/-- Of RxcAndTxrCommute and QuietSweepCallsTriggeredEntriesInOrder. -/
theorem witness_QuietSweepCallsTriggeredEntriesInOrder :
    (busy none).Inv ∧ (busy none).cfg.matchEnabled = true ∧ (busy none).held = none ∧ (busy none).trig.getLsbD 0 = true :=
  ⟨idle_inv, rfl, rfl, by decide⟩

/-- M-14, at the last position. -/
theorem witness_MatchBetweenTestAndClearIsLost : ∃ (s t u : State) (e : Entry),
    s.cfg.matchEnabled = true ∧ 7 < s.cfg.maxPatterns ∧ s.table[7]? = some e ∧ exec (.mtrig 7) s = .next t ∧
    exec (.rxc 0x6B) t = .next u ∧ u.trig.getLsbD 7 = true :=
  ⟨withTable fullTable 0x80, _, _, entry [0x6B] 0 1, rfl, by decide, rfl, rfl, rfl, by decide⟩

/-- TX-5 as an infinite execution: one TXR is delivered, then F's turns are offered for ever. -/
def flushTurns : Nat → Turn
  | 0 => txrTurn
  | _ + 1 => .foreground

/-- The drained FLUSHTX is over before the turn offered with it, which so stays. -/
def flushRun : Nat → State
  | 0 => busy (some .flushtx)
  | 1 => { busy (some .flushtx) with
      tx := { buf := [(0, 0x48)], inIdx := 1, outIdx := 1, count := 0 }, txie := false, portOut := [.writeData 0x48] }
  | 2 => { busy none with
      tx := { buf := [(0, 0x48)], inIdx := 0, outIdx := 0, count := 0 }, txie := false, portOut := [.writeData 0x48],
      responses := [{ status := .ok, data := [] }], turns := [.foreground] }
  | _ + 3 => { busy none with
      tx := { buf := [(0, 0x48)], inIdx := 0, outIdx := 0, count := 0 }, txie := false, portOut := [.writeData 0x48],
      responses := [{ status := .ok, data := [] }] }

/-- TX-7 as an infinite execution: TXR is delivered, the held SENDB pushes, TXR is delivered again, then F's turns. -/
def sendTurns : Nat → Turn
  | 0 => txrTurn
  | 1 => txrTurn
  | 2 => txrTurn
  | _ + 3 => .foreground

def sendRun : Nat → State
  | 0 => blocked
  | 1 => { blocked with
      tx := { buf := [(0, 0x41)], inIdx := 0, outIdx := 0, count := 0 }, txie := false, portOut := [.writeData 0x41] }
  | 2 => { blocked with
      tx := { buf := [(0, 0x42)], inIdx := 0, outIdx := 0, count := 1 }, txie := true, held := none,
      portOut := [.writeData 0x41], responses := [{ status := .ok, data := [] }], turns := [txrTurn] }
  | _ + 3 => { blocked with
      tx := { buf := [(0, 0x42)], inIdx := 0, outIdx := 0, count := 0 }, txie := false, held := none,
      portOut := [.writeData 0x41, .writeData 0x42], responses := [{ status := .ok, data := [] }] }

theorem flush_execution : Execution flushTurns flushRun
  | 0 => rfl
  | 1 => rfl
  | 2 => rfl
  | _ + 3 => rfl

theorem send_execution : Execution sendTurns sendRun
  | 0 => rfl
  | 1 => rfl
  | 2 => rfl
  | _ + 3 => rfl

theorem witness_HeldTxCommandsEndUnderFairness :
    ((flushRun 0).Inv ∧ Execution flushTurns flushRun ∧ FairTxr flushTurns flushRun ∧ (flushRun 0).held = some .flushtx) ∧
    ((sendRun 0).Inv ∧ Execution sendTurns sendRun ∧ FairTxr sendTurns sendRun ∧
      (sendRun 0).held = some (.sendb 0x42)) := by
  refine ⟨⟨waiting_inv, flush_execution, ?_, rfl⟩, ⟨blocked_inv, send_execution, ?_, rfl⟩⟩
  · rintro ⟨m, h⟩
    exact absurd (h (m + 3) (by omega)) (by simp [flushRun])
  · rintro ⟨m, h⟩
    exact absurd (h (m + 3) (by omega)) (by simp [sendRun])

end Sys2Proof.Tests
end

/-!
PROOFS. The match engine left out of a build (00_scope.md R8), and with it the inversion of `step` and the frame of `exec` for
the build parameters, on which every induction over `Reachable` can rest.
-/
namespace Sys2Proof

/-! ## Words that select no operation -/

/-- R58, R97: a word that selects no operation is illegal on the command port, and no byte after it is taken. -/
theorem decode_command_of_no_opcode {matchEnabled : Bool} {w : Word} (h : decodeOpcode matchEnabled w = none)
    (rest : List Byte) : decode matchEnabled .command (wordBytes w ++ rest) = .illegal rest := by
  have verdict : decodeWord matchEnabled .command w = .illegal := by simp only [decodeWord, h]
  rw [decode_wordBytes, verdict]

/-- R59: the op values 0xB to 0xE belong to the match commands alone, which need the match engine. -/
theorem decodeOpcode_matchOff {w : Word} (h : w.toNat / 4096 ∈ [0xB, 0xC, 0xD, 0xE]) : decodeOpcode false w = none := by
  simp only [List.mem_cons, List.not_mem_nil, or_false] at h
  refine Option.eq_none_iff_forall_ne_some.mpr fun k hk => ?_
  rw [decodeOpcode_fields] at hk
  cases k <;> simp only [Opcode.fields, Bool.false_eq_true, and_false] at hk <;> omega

end Sys2Proof

namespace Sys2Proof.Machine

/-! ## What a step can be -/

/-- Everything a step that answers a next state can be: an instruction run once the turn and its bytes are taken, turns and
bytes taken with no other effect, or an illegal word answered. -/
theorem step_next {s t : State} (h : step s = .next t) :
    (∃ i ts bytes, exec i { s with turns := ts, cmdIn := bytes } = .next t) ∨
    (∃ ts bytes, t = { s with turns := ts, cmdIn := bytes }) ∨
    (∃ ts bytes, t = { s with turns := ts, cmdIn := bytes }.respondIllegal) := by
  cases d : s.due with
  | some i => exact .inl ⟨i, s.turns, s.cmdIn, step_due d ▸ h⟩
  | none =>
    cases hts : s.turns with
    | nil =>
      rw [step_idle d hts] at h
      cases h
      exact .inr (.inl ⟨s.turns, s.cmdIn, rfl⟩)
    | cons turn ts =>
      cases turn with
      | foreground =>
        obtain ⟨_, -, e⟩ | ⟨i, rest, -, -, e⟩ | ⟨rest, -, -, e⟩ | ⟨-, -, e⟩ | ⟨-, -, e⟩ :=
          step_foreground_cases d hts <;> rw [e] at h
        · cases h; exact .inr (.inl ⟨ts, s.cmdIn, rfl⟩)
        · exact .inl ⟨i, ts, rest, h⟩
        · cases h; exact .inr (.inr ⟨ts, rest, rfl⟩)
        · cases h; exact .inr (.inl ⟨ts, s.cmdIn, rfl⟩)
        · cases h
      | event w =>
        obtain ⟨i, _, -, -, e⟩ | ⟨_, _, -, -, e⟩ | ⟨-, e⟩ := step_event_cases d hts <;> rw [e] at h
        · exact .inl ⟨i, ts, s.cmdIn, h⟩
        · cases h
        · cases h

/-! ## The build parameters, and the match state of a build without the match engine -/

/-- `t` has the build parameters of `s` (R14), and its match state where the match engine is left out (R8). -/
def KeepsBuild (s t : State) : Prop :=
  t.cfg = s.cfg ∧ (s.cfg.matchEnabled = false → t.table = s.table ∧ t.trig = s.trig)

/-- What an instruction that leaves the match state alone comes to. -/
theorem KeepsBuild.of_eq {s t : State} (cfg : t.cfg = s.cfg) (table : t.table = s.table) (trig : t.trig = s.trig) :
    KeepsBuild s t := ⟨cfg, fun _ => ⟨table, trig⟩⟩

/-- What a write of the match state by a match engine that is built in comes to. -/
theorem KeepsBuild.of_matchOn {s t : State} (cfg : t.cfg = s.cfg) (on : s.cfg.matchEnabled = true) : KeepsBuild s t :=
  ⟨cfg, fun off => absurd (on.symm.trans off) (by decide)⟩

/-- Every command and event keeps the build parameters, and the match state where there is no match engine. -/
theorem exec_keepsBuild {i : Instr} {s t : State} (h : exec i s = .next t) : KeepsBuild s t := by
  have peek {n : Nat} (h : s.peek n = .next t) : KeepsBuild s t := by
    obtain ⟨_, -, -, rfl⟩ := State.peek_next h
    exact .of_eq rfl rfl rfl
  cases i with
  | sendb b => obtain ⟨-, rfl⟩ | ⟨-, rfl⟩ := execSendb_next h <;> exact .of_eq rfl rfl rfl
  | sendnb b => obtain ⟨-, rfl⟩ | ⟨-, rfl⟩ := execSendnb_next h <;> exact .of_eq rfl rfl rfl
  | recvb => obtain ⟨-, rfl⟩ | ⟨_, _, -, -, -, -, rfl⟩ := execRecvb_next h <;> exact .of_eq rfl rfl rfl
  | recvnb => obtain ⟨-, rfl⟩ | ⟨_, _, -, -, -, -, rfl⟩ := execRecvnb_next h <;> exact .of_eq rfl rfl rfl
  | peekb =>
    obtain ⟨-, rfl⟩ | ⟨-, h⟩ := execPeekb_next h
    · exact .of_eq rfl rfl rfl
    · exact peek h
  | peeknb =>
    obtain ⟨-, rfl⟩ | ⟨-, h⟩ := execPeeknb_next h
    · exact .of_eq rfl rfl rfl
    · exact peek h
  | peekn n =>
    obtain ⟨-, rfl⟩ | ⟨-, h⟩ := execPeekn_next h
    · exact .of_eq rfl rfl rfl
    · exact peek h
  | flushrx => obtain rfl := execFlushrx_next h; exact .of_eq rfl rfl rfl
  | flushtx => obtain ⟨-, rfl⟩ | ⟨-, rfl⟩ := execFlushtx_next h <;> exact .of_eq rfl rfl rfl
  | setup r cs sb par => obtain rfl := execSetup_next h; exact .of_eq rfl rfl rfl
  | mreg hd c p =>
    obtain ⟨-, rfl⟩ | ⟨-, -, rfl⟩ | ⟨-, -, -, rfl⟩ | ⟨on, -, -, rfl⟩ := execMreg_next h
    · exact .of_eq rfl rfl rfl
    · exact .of_eq rfl rfl rfl
    · exact .of_eq rfl rfl rfl
    · exact .of_matchOn rfl on
  | mdereg p =>
    obtain ⟨-, rfl⟩ | ⟨-, -, rfl⟩ | ⟨_, on, -, -, rfl⟩ := execMdereg_next h
    · exact .of_eq rfl rfl rfl
    · exact .of_eq rfl rfl rfl
    · exact .of_matchOn rfl on
  | mtrig k =>
    obtain ⟨-, rfl⟩ | ⟨-, -, rfl⟩ | ⟨_, -, -, rfl⟩ := execMtrig_next h <;> exact .of_eq rfl rfl rfl
  | mclr k =>
    obtain ⟨-, rfl⟩ | ⟨on, -, rfl⟩ | ⟨-, -, rfl⟩ := execMclr_next h
    · exact .of_eq rfl rfl rfl
    · exact .of_matchOn rfl on
    · exact .of_eq rfl rfl rfl
  | stat => obtain rfl := execStat_next h; exact .of_eq rfl rfl rfl
  | rxc b =>
    obtain ⟨on, rfl⟩ | ⟨-, rfl⟩ := execRxc_next h
    · exact .of_matchOn rfl on
    · exact .of_eq rfl rfl rfl
  | txr => obtain ⟨-, rfl⟩ | ⟨_, _, -, -, -, -, rfl⟩ := execTxr_next h <;> exact .of_eq rfl rfl rfl

/-- Every step keeps the build parameters, and the match state where there is no match engine. -/
theorem step_keepsBuild {s t : State} (h : step s = .next t) : KeepsBuild s t := by
  obtain ⟨_, _, _, run⟩ | ⟨_, _, rfl⟩ | ⟨_, _, rfl⟩ := step_next h
  · obtain ⟨sameCfg, sameMatch⟩ := exec_keepsBuild run
    exact ⟨sameCfg, sameMatch⟩
  · exact .of_eq rfl rfl rfl
  · exact .of_eq rfl rfl rfl

/-- R8: a block built without the match engine never comes to have an entry or a trigger bit. -/
theorem Reachable.matchOff {s : State} (h : Reachable s) :
    s.cfg.matchEnabled = false → s.table = [] ∧ s.trig = 0 := by
  induction h with
  | reset cfg _ => exact fun _ => ⟨rfl, rfl⟩
  | supply s bytes ts _ ih => exact ih
  | step s t _ next ih =>
    intro off
    obtain ⟨sameCfg, sameMatch⟩ := step_keepsBuild next
    rw [sameCfg] at off
    obtain ⟨sameTable, sameTrig⟩ := sameMatch off
    rw [sameTable, sameTrig]
    exact ih off

/-- Settles O29: no operation is selected by the words, RXC and every other instruction keep the match state, and so does
every step from reset. -/
theorem noMatchEngineNoMatchCommands : Obligations.NoMatchEngineNoMatchCommands := by
  intro w rest b s
  refine ⟨fun hop => decode_command_of_no_opcode (decodeOpcode_matchOff hop) rest, fun off => ?_, Reachable.matchOff⟩
  obtain ⟨t, run⟩ : ∃ t, exec (.rxc b) s = .next t := ⟨_, rfl⟩
  obtain ⟨-, sameMatch⟩ := exec_keepsBuild run
  exact ⟨t, run, sameMatch off⟩

end Sys2Proof.Machine

/-!
PROOFS. The state of the block (10_state.md): what an instruction that answers a next state can have done, the invariant along
every step and in every reachable state, and who writes which part of the state.
-/
namespace Sys2Proof

/-! ## What the decoder delivers -/

/-- R52, R53: what an operation makes of its word and its whole payload is well-formed, and belongs to the operation's port. -/
theorem assemble_wellFormed {k : Opcode} {w : Word} {payload : List Byte} (len : payload.length = payloadLength k w) :
    (assemble k w payload).wellFormed = true ∧ ((assemble k w payload).port = .event ↔ k.isEvent = true) := by
  have imm := immField_toNat w
  have n12 := n12Field_toNat w
  cases k <;> simp [assemble, Instr.wellFormed, Instr.port, Opcode.isEvent, payloadLength] at len ⊢ <;> omega

/-- R52, R55: a decoded unit is well-formed and belongs to the port that took it. -/
theorem decode_unit_wellFormed {matchEnabled : Bool} {p : Port} {bytes rest : List Byte} {i : Instr}
    (h : decode matchEnabled p bytes = .unit i rest) : i.wellFormed = true ∧ i.port = p := by
  obtain ⟨w, k, payload, -, legal, len, rfl⟩ := decode_eq_unit h
  obtain ⟨wf, event⟩ := assemble_wellFormed len
  refine ⟨wf, ?_⟩
  obtain ⟨-, ⟨rfl, command⟩ | ⟨rfl, isEvent⟩⟩ := decodeWord_legal legal
  · cases port : (assemble k w payload).port with
    | command => rfl
    | event => exact absurd (command.symm.trans (event.mp port)) nofun
  · exact event.mpr isEvent

end Sys2Proof

namespace Sys2Proof.Machine

/-! ## What an instruction can do -/

/-- The commands that in state `s` may give their response with no other effect. -/
def State.AnswersOnly (s : State) : Instr → Prop
  | .sendnb _ => s.tx.count = s.cfg.txSize
  | .recvnb => s.rx.count = 0
  | .sendb _ | .recvb | .flushrx | .flushtx | .setup _ _ _ _ | .rxc _ | .txr => False
  | .peekb | .peeknb | .peekn _ | .mreg _ _ _ | .mdereg _ | .mtrig _ | .mclr _ | .stat => True

/-- Everything a command or an event that answers a next state can have done, one constructor per kind of effect. -/
inductive Effect (s : State) : Instr → State → Prop
  | waits (i : Instr) (waiting : s.ready i = false) : Effect s i (s.hold i)
  | answers (i : Instr) (st : Status) (data : List Byte) (only : s.AnswersOnly i) : Effect s i (s.respond st data)
  | queues (i : Instr) (b : Byte) (data : List Byte) (sends : i = .sendb b ∨ i = .sendnb b)
      (room : s.tx.count ≠ s.cfg.txSize) :
      Effect s i (((s.setTx (s.tx.pushTry s.cfg.txSize b).1).setTxie true).respond .ok data)
  | flushesTx (empty : s.tx.count = 0) : Effect s .flushtx ((s.setTx s.tx.reset).respond .ok [])
  | receives (i : Instr) (b : Byte) (r : Ring) (pops : i = .recvb ∨ i = .recvnb)
      (oldest : s.rx.buf.read s.rx.outIdx = some b) (popped : s.rx.Popped s.cfg.rxSize r) (cells : r.buf = s.rx.buf) :
      Effect s i ((s.setRx r).respond .ok [b])
  | flushesRx : Effect s .flushrx ((s.setRx s.rx.reset).respond .ok [])
  | configures (rate : BitVec 32) (charSize stopBits parity : Byte) :
      Effect s (.setup rate charSize stopBits parity)
        (((s.callPort [.setBaud rate, .setFrame charSize stopBits parity, .enable]).setRxie true).respond .ok [])
  | registers (h c : Word) (p : List Byte) (on : s.cfg.matchEnabled = true) (present : h ≠ 0)
      (room : s.nEnt ≠ s.cfg.maxPatterns) :
      Effect s (.mreg h c p) ((s.setMatch
        (s.table ++ [{ pat := p.take s.cfg.maxSeqLen, prog := 0, handler := h, ctx := c }])
        (clearTrig s.trig s.nEnt)).respond .ok [])
  | deregisters (p : List Byte) (k : Nat) (on : s.cfg.matchEnabled = true)
      (found : findEntry s.table (p.take s.cfg.maxSeqLen) = some k) :
      Effect s (.mdereg p) ((s.setMatch (s.table.eraseIdx k)
        (compactTrig s.cfg.trigCompaction k s.nEnt s.trig)).respond .ok [])
  | clears (k : Nat) (on : s.cfg.matchEnabled = true) (lt : k < s.cfg.maxPatterns) :
      Effect s (.mclr k) ((s.setMatch s.table (clearTrig s.trig k)).respond .ok [])
  | advances (b : Byte) (on : s.cfg.matchEnabled = true) :
      Effect s (.rxc b) ((s.advanceAll b).setRx (s.rx.pushOverwrite s.cfg.rxSize s.cfg.rxOverflow b))
  | arrives (b : Byte) (off : s.cfg.matchEnabled = false) :
      Effect s (.rxc b) (s.setRx (s.rx.pushOverwrite s.cfg.rxSize s.cfg.rxOverflow b))
  | rests (empty : s.tx.count = 0) : Effect s .txr (s.setTxie false)
  | transmits (b : Byte) (r : Ring) (oldest : s.tx.buf.read s.tx.outIdx = some b)
      (popped : s.tx.Popped s.cfg.txSize r) (cells : r.buf = s.tx.buf) :
      Effect s .txr (((s.setTx r).callPort [.writeData b]).setTxie (txieAfterTxr s.txie r.count))

/-- What a peek that answers a next state has done. -/
theorem Effect.of_peek {s t : State} {i : Instr} {n : Nat} (only : s.AnswersOnly i) (h : s.peek n = .next t) :
    Effect s i t := by
  obtain ⟨bs, -, -, rfl⟩ := State.peek_next h
  exact .answers i _ bs only

/-- Every next state an instruction answers is one of the effects. -/
theorem exec_effect {i : Instr} {s t : State} (h : exec i s = .next t) : Effect s i t := by
  cases i with
  | sendb b =>
    obtain ⟨room, rfl⟩ | ⟨full, rfl⟩ := execSendb_next h
    · exact .queues _ b _ (.inl rfl) (by omega)
    · exact .waits _ (by simpa using full)
  | sendnb b =>
    obtain ⟨room, rfl⟩ | ⟨full, rfl⟩ := execSendnb_next h
    · exact .queues _ b _ (.inr rfl) room
    · exact .answers _ _ _ full
  | recvb =>
    obtain ⟨empty, rfl⟩ | ⟨b, r, -, oldest, popped, cells, rfl⟩ := execRecvb_next h
    · exact .waits _ (by simp [empty])
    · exact .receives _ b r (.inl rfl) oldest popped cells
  | recvnb =>
    obtain ⟨empty, rfl⟩ | ⟨b, r, -, oldest, popped, cells, rfl⟩ := execRecvnb_next h
    · exact .answers _ _ _ empty
    · exact .receives _ b r (.inr rfl) oldest popped cells
  | peekb =>
    obtain ⟨empty, rfl⟩ | ⟨-, h⟩ := execPeekb_next h
    · exact .waits _ (by simp [empty])
    · exact .of_peek trivial h
  | peeknb =>
    obtain ⟨-, rfl⟩ | ⟨-, h⟩ := execPeeknb_next h
    · exact .answers _ _ _ trivial
    · exact .of_peek trivial h
  | peekn n =>
    obtain ⟨few, rfl⟩ | ⟨-, h⟩ := execPeekn_next h
    · exact .waits _ (by simpa using few)
    · exact .of_peek trivial h
  | flushrx => obtain rfl := execFlushrx_next h; exact .flushesRx
  | flushtx =>
    obtain ⟨empty, rfl⟩ | ⟨busy, rfl⟩ := execFlushtx_next h
    · exact .flushesTx empty
    · exact .waits _ (by simpa using busy)
  | setup rate charSize stopBits parity => obtain rfl := execSetup_next h; exact .configures ..
  | mreg hd c p =>
    obtain ⟨-, rfl⟩ | ⟨-, -, rfl⟩ | ⟨-, -, -, rfl⟩ | ⟨on, present, room, rfl⟩ := execMreg_next h
    · exact .answers _ _ _ trivial
    · exact .answers _ _ _ trivial
    · exact .answers _ _ _ trivial
    · exact .registers _ _ _ on present room
  | mdereg p =>
    obtain ⟨-, rfl⟩ | ⟨-, -, rfl⟩ | ⟨k, on, found, -, rfl⟩ := execMdereg_next h
    · exact .answers _ _ _ trivial
    · exact .answers _ _ _ trivial
    · exact .deregisters p k on found
  | mtrig k =>
    obtain ⟨-, rfl⟩ | ⟨-, -, rfl⟩ | ⟨_, -, -, rfl⟩ := execMtrig_next h <;> exact .answers _ _ _ trivial
  | mclr k =>
    obtain ⟨-, rfl⟩ | ⟨on, lt, rfl⟩ | ⟨-, -, rfl⟩ := execMclr_next h
    · exact .answers _ _ _ trivial
    · exact .clears k on lt
    · exact .answers _ _ _ trivial
  | stat => obtain rfl := execStat_next h; exact .answers _ _ _ trivial
  | rxc b =>
    obtain ⟨on, rfl⟩ | ⟨off, rfl⟩ := execRxc_next h
    · exact .advances b on
    · exact .arrives b off
  | txr =>
    obtain ⟨empty, rfl⟩ | ⟨b, r, -, oldest, popped, cells, rfl⟩ := execTxr_next h
    · exact .rests empty
    · exact .transmits b r oldest popped cells

/-- R54: only a holding command waits. -/
theorem holding_of_waiting {s : State} {i : Instr} (waiting : s.ready i = false) : i.holding = true := by
  cases i with
  | sendb _ | recvb | peekb | peekn _ | flushtx => rfl
  | _ => cases waiting

/-- R87: a deregistration takes one entry out of the table. -/
theorem eraseIdx_length_succ {table : List Entry} {k : Nat} (lt : k < table.length) :
    (table.eraseIdx k).length + 1 = table.length := by
  rw [List.length_eraseIdx_of_lt lt]
  omega

/-! ## The invariant under each write of the state -/

section
variable {s : State} (h : s.Inv)
include h

/-- What the agents present is no part of the invariant. -/
theorem State.Inv.present (ts : List Turn) (bytes : List Byte) : State.Inv { s with turns := ts, cmdIn := bytes } :=
  { h with }

theorem State.Inv.respond (st : Status) (data : List Byte) : (s.respond st data).Inv :=
  { h with heldHolds := nofun }

theorem State.Inv.hold {i : Instr} (holding : i.holding = true) (wf : i.wellFormed = true) : (s.hold i).Inv :=
  { h with heldHolds := fun _ hj => Option.some.inj hj ▸ ⟨holding, wf⟩ }

theorem State.Inv.callPort (cs : List PortCall) : (s.callPort cs).Inv := { h with }

theorem State.Inv.enableRx : (s.setRxie true).Inv := { h with rxQuiet := nofun }

theorem State.Inv.setRx {r : Ring} (inv : r.Inv s.cfg.rxSize)
    (coherent : r.Coherent s.cfg.rxSize ∨ (s.cfg.rxOverflow = .overwriteAtIn ∧ r.AllWritten s.cfg.rxSize))
    (quiet : s.rxie = false → r.count = 0) : (s.setRx r).Inv :=
  { h with rxInv := inv, rxCoherent := coherent, rxQuiet := quiet }

/-- TX and TXIE are written together (R20). -/
theorem State.Inv.setTx_setTxie {r : Ring} {v : Bool} (inv : r.Inv s.cfg.txSize) (coherent : r.Coherent s.cfg.txSize)
    (tracks : v = true ↔ 0 < r.count) : ((s.setTx r).setTxie v).Inv :=
  { h with txInv := inv, txCoherent := coherent, txieIff := tracks }

theorem State.Inv.setMatch {table : List Entry} {trig : BitVec 32} (on : s.cfg.matchEnabled = true)
    (le : table.length ≤ s.cfg.maxPatterns) (entries : ∀ e ∈ table, e.Inv s.cfg.maxSeqLen)
    (high : ∀ k, s.cfg.maxPatterns ≤ k → trig.getLsbD k = false)
    (shift : s.cfg.trigCompaction = .shiftWithEntries → ∀ k, table.length ≤ k → trig.getLsbD k = false) :
    (s.setMatch table trig).Inv :=
  { h with
    tableLe := le, entries := entries, trigHigh := high, trigShift := shift
    matchOff := fun off => absurd (on.symm.trans off) nofun }

/-- R85: a registration below MAX_PATTERNS, which clears the bit of the new position. -/
theorem State.Inv.register {e : Entry} (on : s.cfg.matchEnabled = true) (room : s.nEnt ≠ s.cfg.maxPatterns)
    (entry : e.Inv s.cfg.maxSeqLen) : (s.setMatch (s.table ++ [e]) (clearTrig s.trig s.nEnt)).Inv := by
  have le := h.tableLe
  have len : (s.table ++ [e]).length = s.nEnt + 1 := List.length_append
  refine h.setMatch on (by omega) (fun f mem => ?_) (fun k hk => ?_) (fun mode k hk => ?_)
  · obtain mem | mem := List.mem_append.mp mem
    · exact h.entries f mem
    · exact List.mem_singleton.mp mem ▸ entry
  · rw [getLsbD_clearTrig, h.trigHigh k hk, Bool.false_and]
  · rw [getLsbD_clearTrig, h.trigShift mode k (by omega), Bool.false_and]

/-- R87, R88: a deregistration with its compaction. -/
theorem State.Inv.deregister {k : Nat} (on : s.cfg.matchEnabled = true) (lt : k < s.table.length) :
    (s.setMatch (s.table.eraseIdx k) (compactTrig s.cfg.trigCompaction k s.nEnt s.trig)).Inv := by
  have le := h.tableLe
  have len : (s.table.eraseIdx k).length + 1 = s.nEnt := eraseIdx_length_succ lt
  refine h.setMatch on (by omega) (fun e mem => h.entries e (List.mem_of_mem_eraseIdx mem)) (fun j hj => ?_)
    (fun mode j hj => ?_)
  · exact compactTrig_above (h.trigHigh j hj) (h.trigHigh (j + 1) (by omega))
  · have lt : k < s.nEnt := lt
    by_cases last : j + 1 = s.nEnt
    · rw [mode, getLsbD_compactTrig_shift, if_neg (by omega), if_neg (by omega), if_pos last]
    · exact compactTrig_above (h.trigShift mode j (by omega)) (h.trigShift mode (j + 1) (by omega))

theorem State.Inv.clearTrig (on : s.cfg.matchEnabled = true) (k : Nat) :
    (s.setMatch s.table (clearTrig s.trig k)).Inv :=
  h.setMatch on h.tableLe h.entries
    (fun j hj => by rw [getLsbD_clearTrig, h.trigHigh j hj, Bool.false_and])
    (fun mode j hj => by rw [getLsbD_clearTrig, h.trigShift mode j hj, Bool.false_and])

/-- R84: the entries that fire are in the table, so no bit above it is raised. -/
theorem State.Inv.advanceAll (on : s.cfg.matchEnabled = true) (b : Byte) : (s.advanceAll b).Inv := by
  have le := h.tableLe
  have above : ∀ k, s.nEnt ≤ k → s.trig.getLsbD k = false → (raiseTrig s.trig (firesAt s.table b)).getLsbD k = false := by
    intro k hk bit
    have silent : firesAt s.table b k = false :=
      Bool.not_eq_true _ ▸ fun fires => absurd (firesAt_lt fires) (Nat.not_lt.mpr hk)
    rw [getLsbD_raiseTrig, bit, silent, Bool.false_or, Bool.and_false]
  have len : (advanceTable s.table b).length = s.nEnt := length_advanceTable _ _
  refine h.setMatch on (by omega) (fun e mem => ?_) (fun k hk => above k (by omega) (h.trigHigh k hk))
    (fun mode k hk => above k (by omega) (h.trigShift mode k (by omega)))
  obtain ⟨f, inTable, rfl⟩ := List.mem_map.mp mem
  exact (h.entries f inTable).step b

/-- R64, R81: a byte pushed into RX while RXIE is 1. -/
theorem State.Inv.receive (enabled : s.rxie = true) (b : Byte) :
    (s.setRx (s.rx.pushOverwrite s.cfg.rxSize s.cfg.rxOverflow b)).Inv :=
  h.setRx (h.rxInv.pushOverwrite (h.rxCoherent.imp_right And.right) _ b)
    (Ring.coherent_pushOverwrite h.rxInv _ b h.rxCoherent) (fun off => absurd (enabled.symm.trans off) nofun)

end

/-- R18: coherence, or a ring wholly written, outlasts a pop. -/
theorem Ring.coherent_popped {r r' : Ring} {N : Nat} {P : Prop} (p : r.Popped N r')
    (c : r.Coherent N ∨ (P ∧ r.AllWritten N)) : r'.Coherent N ∨ (P ∧ r'.AllWritten N) :=
  c.imp (·.popped p) (And.imp_right fun all k hk => p.cells k ▸ all k hk)

/-! ## The invariant along runs -/

/-- An instruction keeps the invariant: a well-formed one, and an RXC only while RXIE is 1 (R77). -/
theorem Effect.keepsInv {i : Instr} {s t : State} (e : Effect s i t) (h : s.Inv) (wf : i.wellFormed = true)
    (enabled : ∀ b, i = .rxc b → s.rxie = true) : t.Inv := by
  cases e with
  | waits _ waiting => exact h.hold (holding_of_waiting waiting) wf
  | answers _ st data => exact h.respond st data
  | queues _ b data _ room =>
    refine State.Inv.respond (h.setTx_setTxie (h.txInv.pushTry (.inl h.txCoherent) b) (h.txCoherent.pushTry b) ?_) _ _
    simp [Ring.pushTry_room b room]
  | flushesTx empty =>
    have low : s.txie = true ↔ 0 < s.tx.reset.count := by rw [h.txieIff, empty, Ring.reset_count]
    exact State.Inv.respond (h.setTx_setTxie h.txInv.reset (Ring.coherent_reset _ _) low) _ _
  | receives _ b r _ _ popped cells =>
    refine State.Inv.respond (h.setRx (h.rxInv.popped popped cells) (Ring.coherent_popped popped h.rxCoherent) ?_) _ _
    have := popped.count
    intro off
    have := h.rxQuiet off
    omega
  | flushesRx => exact State.Inv.respond (h.setRx h.rxInv.reset (.inl (Ring.coherent_reset _ _)) fun _ => rfl) _ _
  | configures => exact State.Inv.respond (h.callPort _).enableRx _ _
  | registers hd c p on present room =>
    exact State.Inv.respond (h.register on room
      ⟨List.length_take_le _ _, fun pos => pos, fun _ => rfl, present⟩) _ _
  | deregisters p k on found => exact State.Inv.respond (h.deregister on (findEntry_lt found)) _ _
  | clears k on => exact State.Inv.respond (h.clearTrig on k) _ _
  | advances b on => exact (h.advanceAll on b).receive (enabled b rfl) b
  | arrives b => exact h.receive (enabled b rfl) b
  | rests empty => exact h.setTx_setTxie (r := s.tx) h.txInv h.txCoherent (by simp [empty])
  | transmits b r _ popped cells =>
    have high : s.txie = true := h.txieIff.mpr (by have := popped.count; omega)
    have tracks : txieAfterTxr s.txie r.count = true ↔ 0 < r.count := by
      simp [txieAfterTxr, high, Nat.pos_iff_ne_zero]
    exact State.Inv.callPort (h.setTx_setTxie (h.txInv.popped popped cells) (h.txCoherent.popped popped) tracks) _

/-- Every step keeps the invariant: what it runs is held or decoded, so well-formed, and an RXC has come through the gate of
the event port. -/
theorem State.Inv.step {s t : State} (h : s.Inv) (next : Machine.step s = .next t) : t.Inv := by
  have run {i : Instr} {ts : List Turn} {bytes : List Byte} (e : exec i { s with turns := ts, cmdIn := bytes } = .next t)
      (wf : i.wellFormed = true) (enabled : ∀ b, i = .rxc b → s.rxie = true) : t.Inv :=
    (exec_effect e).keepsInv (h.present ts bytes) wf enabled
  cases due : s.due with
  | some i =>
    rw [step_due due] at next
    obtain ⟨holding, wf⟩ := h.heldHolds i (State.due_eq_some.mp due).1
    exact run (ts := s.turns) (bytes := s.cmdIn) next wf fun b e => by subst e; cases holding
  | none =>
    cases turns : s.turns with
    | nil =>
      rw [step_idle due turns] at next
      cases next
      exact h
    | cons turn ts =>
      cases turn with
      | foreground =>
        obtain ⟨_, -, e⟩ | ⟨i, rest, -, dec, e⟩ | ⟨rest, -, -, e⟩ | ⟨-, -, e⟩ | ⟨-, -, e⟩ :=
          step_foreground_cases due turns <;> rw [e] at next
        · cases next; exact h.present ts s.cmdIn
        · obtain ⟨wf, port⟩ := decode_unit_wellFormed dec
          exact run next wf fun b e => by subst e; cases port
        · cases next; exact (h.present ts rest).respond _ _
        · cases next; exact h.present ts s.cmdIn
        · cases next
      | event w =>
        obtain ⟨i, _, dec, gate, e⟩ | ⟨_, _, -, -, e⟩ | ⟨-, e⟩ := step_event_cases due turns <;> rw [e] at next
        · exact run (bytes := s.cmdIn) next (decode_unit_wellFormed dec).1 fun b e => by subst e; exact gate
        · cases next
        · cases next

/-- Settles O43: `State.Inv.step`. -/
theorem stepKeepsTheInvariant : Obligations.StepKeepsTheInvariant := fun _ _ h next => h.step next

/-! ## Reset and the reachable states -/

/-- Settles O41: each value is the reset state's own field. -/
theorem resetValues : Obligations.ResetValues :=
  ⟨fun _ => ⟨rfl, rfl, rfl, rfl, rfl, rfl, rfl, rfl, rfl, rfl, rfl, rfl⟩, rfl⟩

theorem Ring.coherent_empty (N : Nat) : Ring.empty.Coherent N := (Nat.zero_mod N).symm

/-- Settles O42: both rings are empty and coherent, the table is empty and no bit is set. -/
theorem resetMeetsTheInvariant : Obligations.ResetMeetsTheInvariant := by
  intro cfg legal
  have ranges := legal
  simp only [Config.legal, decide_eq_true_eq] at ranges
  obtain ⟨rxPos, -, txPos, -⟩ := ranges
  exact {
    cfgLegal := legal
    rxInv := Ring.inv_empty rxPos
    txInv := Ring.inv_empty txPos
    txCoherent := Ring.coherent_empty _
    rxCoherent := .inl (Ring.coherent_empty _)
    txieIff := ⟨nofun, fun pos => absurd pos (Nat.lt_irrefl 0)⟩
    tableLe := Nat.zero_le _
    entries := nofun
    trigHigh := fun _ _ => BitVec.getLsbD_zero
    trigShift := fun _ _ _ => BitVec.getLsbD_zero
    matchOff := fun _ => ⟨rfl, rfl⟩
    heldHolds := nofun
    rxQuiet := fun _ => rfl }

/-- Every reachable state meets the invariant. -/
theorem Reachable.inv {s : State} (h : Reachable s) : s.Inv := by
  induction h with
  | reset cfg legal => exact resetMeetsTheInvariant cfg legal
  | supply s bytes ts _ ih => exact { ih with }
  | step s t _ next ih => exact ih.step next

/-- Settles O45: it is a clause of the invariant. -/
theorem txieTracksTxOccupancy : Obligations.TxieTracksTxOccupancy := fun _ h => h.inv.txieIff

theorem Ring.contents_eq_nil (r : Ring) (N : Nat) : r.contents N = [] ↔ r.count = 0 := by
  rw [← List.length_eq_zero_iff, Ring.length_contents]

theorem Ring.pushTry_fails {r : Ring} {N : Nat} (b : Byte) : (r.pushTry N b).2 = false ↔ r.count = N := by
  rw [← Bool.not_eq_true, Ring.pushTry_pushed, Decidable.not_not]

/-- Settles O46: the bounds are clauses of the ring invariant; what a ring holds has `count` elements, and `push_try` fails
on the full ring alone. -/
theorem ringCountsStayInBounds : Obligations.RingCountsStayInBounds := by
  intro s b h
  have rx := h.inv.rxInv
  have tx := h.inv.txInv
  exact ⟨rx.countLe, tx.countLe, ⟨rx.inLt, rx.outLt⟩, ⟨tx.inLt, tx.outLt⟩, Ring.contents_eq_nil _ _,
    Ring.contents_eq_nil _ _, Ring.pushTry_fails b, Ring.pushTry_fails b⟩

theorem idxWidth_small {n : Nat} (h : n ≤ 255) : idxWidth n = 8 := if_pos h

theorem idxWidth_large {n : Nat} (h : 256 ≤ n) : idxWidth n = 16 := if_neg (by omega)

/-- R15: a capacity fits the width chosen for it. -/
theorem lt_two_pow_idxWidth {n : Nat} (h : n ≤ 65535) : n < 2 ^ idxWidth n := by
  obtain small | large := Nat.lt_or_ge 255 n
  · rw [idxWidth_large small]; omega
  · rw [idxWidth_small large]; omega

/-- R15: the indices and the count of a ring that meets its invariant fit their width. -/
theorem Ring.Inv.fitsWidth {r : Ring} {N : Nat} (h : r.Inv N) (le : N ≤ 65535) :
    r.inIdx < 2 ^ idxWidth N ∧ r.outIdx < 2 ^ idxWidth N ∧ r.count < 2 ^ idxWidth N :=
  have fits := lt_two_pow_idxWidth le
  ⟨Nat.lt_trans h.inLt fits, Nat.lt_trans h.outLt fits, Nat.lt_of_le_of_lt h.countLe fits⟩

/-- Settles O47: the bounds of the ring invariant, and that each capacity fits its width. -/
theorem indicesFitTheirWidth : Obligations.IndicesFitTheirWidth := by
  intro s h
  have ranges := h.inv.cfgLegal
  simp only [Config.legal, decide_eq_true_eq] at ranges
  obtain ⟨-, rxLe, -, txLe, -⟩ := ranges
  exact ⟨h.inv.rxInv.fitsWidth rxLe, h.inv.txInv.fitsWidth txLe, fun _ => idxWidth_small,
    fun _ large _ => idxWidth_large large⟩

/-- Settles O48: coherence is a clause of the invariant, which excuses RX under OVERWRITE_AT_IN only. -/
theorem indicesStayCoherent : Obligations.IndicesStayCoherent := by
  intro s h
  refine ⟨h.inv.txCoherent, fun oldest => ?_⟩
  obtain coherent | ⟨atIn, -⟩ := h.inv.rxCoherent
  · exact coherent
  · exact absurd (oldest.symm.trans atIn) nofun

/-- Settles O49: it is part of the invariant of every registered entry. -/
theorem entryProgressStaysBelowLength : Obligations.EntryProgressStaysBelowLength := by
  intro s k e h at_k
  have entry := h.inv.entries e (List.mem_of_getElem? at_k)
  exact ⟨entry.progLt, entry.progZero⟩

@[simp] theorem State.respond_lastData (s : State) (st : Status) (data : List Byte) :
    (s.respond st data).lastData = data := by
  simp [State.lastData]

/-- R89: MTRIG above the table answers six zeros. -/
theorem exec_mtrig_above {s : State} {k : Nat} (on : s.cfg.matchEnabled = true) (above : s.nEnt ≤ k) :
    exec (.mtrig k) s = .next (s.respond .ok [0, 0, 0, 0, 0, 0]) := by
  have absent : s.table[k]? = none := List.getElem?_eq_none above
  simp only [exec, execMtrig, on, absent, Bool.true_eq_false, if_false]

/-- R85: an MREG that adds an entry clears the bit of its position. -/
theorem exec_mreg_clears {s t : State} {h c : Word} {p : List Byte} (run : exec (.mreg h c p) s = .next t)
    (grew : t.nEnt = s.nEnt + 1) : t.trig.getLsbD s.nEnt = false := by
  obtain ⟨-, rfl⟩ | ⟨-, -, rfl⟩ | ⟨-, -, -, rfl⟩ | ⟨-, -, -, rfl⟩ := execMreg_next run
  · rw [State.respond_nEnt] at grew; omega
  · rw [State.respond_nEnt] at grew; omega
  · rw [State.respond_nEnt] at grew; omega
  · simp [getLsbD_clearTrig]

/-- Settles O50: two clauses of the invariant, MTRIG above the table, and the bit a registration clears. -/
theorem staleTriggersAreNeverDispatched : Obligations.StaleTriggersAreNeverDispatched := by
  intro s k h
  exact ⟨h.inv.trigHigh k, fun mode => h.inv.trigShift mode k,
    fun on above => ⟨_, exec_mtrig_above on above, State.respond_lastData _ _ _⟩,
    fun _ _ _ _ => exec_mreg_clears⟩

/-! ## The parameters and the next unit -/

/-- Settles O37: `KeepsBuild` holds of every instruction and of every step. -/
theorem parametersNeverChange : Obligations.ParametersNeverChange :=
  ⟨fun _ _ _ h => (exec_keepsBuild h).1, fun _ _ h => (step_keepsBuild h).1⟩

/-- Settles O5: of all that F's turn can come to, only a run of the unit fits what is presented. -/
theorem stepRunsTheDecodedCommand : Obligations.StepRunsTheDecodedCommand := by
  intro s ts i rest turns idle unit
  obtain ⟨_, held, -⟩ | ⟨_, _, -, dec, e⟩ | ⟨_, -, dec, -⟩ | ⟨-, dec, -⟩ | ⟨-, dec, -⟩ :=
    step_foreground_cases (State.due_of_idle idle) turns
  · exact absurd (held.symm.trans idle) nofun
  · obtain ⟨rfl, rfl⟩ := Decoded.unit.inj (dec.symm.trans unit)
    exact e
  all_goals exact absurd (dec.symm.trans unit) nofun

/-! ## Faults -/

theorem State.receive_unwritten {s : State} (pos : 0 < s.rx.count) (cell : s.rx.buf.read s.rx.outIdx = none) :
    s.receive = .fault (.unwrittenCell s.rx.outIdx) := by
  obtain ⟨empty, -⟩ | ⟨_, _, -, written, -⟩ | ⟨-, -, e⟩ := s.receive_cases
  · omega
  · exact absurd (written.symm.trans cell) nofun
  · exact e

/-- A peek that reaches an unwritten cell faults at such a cell. -/
theorem State.peek_unwritten {s : State} {n k : Nat} (lt : k < n)
    (cell : s.rx.buf.read ((s.rx.outIdx + k) % s.cfg.rxSize) = none) : ∃ j, s.peek n = .fault (.unwrittenCell j) := by
  obtain ⟨bs, ok, -⟩ | ⟨j, -, -, e⟩ := s.peek_cases n
  · rw [Ring.peekRun_ok] at ok
    have unread : none ∈ bs.map some := by
      rw [ok, List.mem_map]
      exact ⟨k, List.mem_range.mpr lt, by simpa using cell⟩
    simp at unread
  · exact ⟨_, e⟩

theorem exec_txr_unwritten {s : State} (pos : 0 < s.tx.count) (cell : s.tx.buf.read s.tx.outIdx = none) :
    exec .txr s = .fault (.unwrittenCell s.tx.outIdx) := by
  have busy : s.tx.count ≠ 0 := by omega
  simp only [exec, execTxr, busy, if_false, Ring.pop_none _ busy cell]

/-- Settles O52: `exec_fault` names the cell of every fault; a command that finds its condition true reads RX at once. -/
theorem onlyUnwrittenCellsFault : Obligations.OnlyUnwrittenCellsFault := by
  refine ⟨fun i s f h => ?_, fun s pos cell => ?_, fun s => exec_txr_unwritten, fun s pos cell => ?_,
    fun s n k enough lt cell => ?_⟩
  · obtain ⟨-, -, cell, rfl⟩ | ⟨-, -, cell, rfl⟩ | ⟨_, -, cell, rfl⟩ := exec_fault h
    · exact ⟨_, rfl, .inr cell⟩
    · exact ⟨_, rfl, .inl cell⟩
    · exact ⟨_, rfl, .inl cell⟩
  · have fault := State.receive_unwritten pos cell
    exact ⟨(State.holdUntil_ready _ (by simpa using pos)).trans fault, fault⟩
  · have fault := State.peek_one_none cell
    exact ⟨(State.holdUntil_ready _ (by simpa using pos)).trans fault, (if_neg (by omega)).trans fault⟩
  · obtain ⟨j, fault⟩ := State.peek_unwritten lt cell
    exact ⟨j, (State.holdUntil_ready _ (by simpa using enough)).trans fault⟩

/-! ## The TX stream -/

/-- The bytes an instruction adds to the TX stream: that of a SENDB or SENDNB that finds room (R68, R69). -/
def State.accepted (s : State) : Instr → List (Option Byte)
  | .sendb b => if s.tx.count < s.cfg.txSize then [some b] else []
  | .sendnb b => if s.tx.count = s.cfg.txSize then [] else [some b]
  | _ => []

theorem State.accepted_of_waiting {s : State} {i : Instr} (waiting : s.ready i = false) : s.accepted i = [] := by
  cases i with
  | sendb b => exact if_neg (by simpa using waiting)
  | sendnb b => cases waiting
  | _ => rfl

theorem State.accepted_of_answersOnly {s : State} {i : Instr} (only : s.AnswersOnly i) : s.accepted i = [] := by
  cases i with
  | sendb b => exact only.elim
  | sendnb b => exact if_pos only
  | _ => rfl

theorem State.accepted_of_room {s : State} {i : Instr} {b : Byte} (sends : i = .sendb b ∨ i = .sendnb b)
    (room : s.tx.count < s.cfg.txSize) : s.accepted i = [some b] := by
  obtain rfl | rfl := sends
  · exact if_pos room
  · exact if_neg (by omega)

/-- The TX stream: the bytes written to the port, then the bytes queued, oldest first. -/
def State.txStream (s : State) : List (Option Byte) := s.sentBytes ++ s.tx.contents s.cfg.txSize

/-- R80: TXR moves the oldest queued byte to the end of the bytes written. -/
theorem txStream_transmitted {s t : State} {b : Byte} (inv : s.tx.Inv s.cfg.txSize)
    (oldest : s.tx.buf.read s.tx.outIdx = some b) (cfg : t.cfg = s.cfg) (popped : s.tx.Popped s.cfg.txSize t.tx)
    (port : t.portOut = s.portOut ++ [.writeData b]) : t.txStream = s.txStream := by
  have sent : t.sentBytes = s.sentBytes ++ [some b] := by simp [State.sentBytes, port]
  rw [State.txStream, State.txStream, cfg, sent, Ring.contents_popped popped inv.outLt, oldest, List.append_assoc,
    List.singleton_append]

/-- R68, R69: a push with room puts its byte behind the whole stream. -/
theorem txStream_queued {s t : State} {b : Byte} (coherent : s.tx.Coherent s.cfg.txSize)
    (room : s.tx.count < s.cfg.txSize) (cfg : t.cfg = s.cfg) (pushed : s.tx.Pushed s.cfg.txSize b t.tx)
    (port : t.portOut = s.portOut) : t.txStream = s.txStream ++ [some b] := by
  rw [State.txStream, State.txStream, cfg, Ring.contents_pushed pushed coherent room, State.sentBytes, State.sentBytes,
    port, List.append_assoc]

/-- Whatever leaves the bytes written and the bytes queued alone leaves the stream alone. -/
theorem txStream_kept {s t : State} {i : Instr} (accepts : s.accepted i = []) (cfg : t.cfg = s.cfg)
    (sent : t.sentBytes = s.sentBytes) (queued : t.tx.contents s.cfg.txSize = s.tx.contents s.cfg.txSize) :
    t.txStream = s.txStream ++ s.accepted i := by
  rw [State.txStream, State.txStream, cfg, sent, queued, accepts, List.append_nil]

/-- The TX stream grows by the accepted bytes and changes in no other way. -/
theorem Effect.txStream {i : Instr} {s t : State} (e : Effect s i t) (h : s.Inv) :
    t.txStream = s.txStream ++ s.accepted i := by
  cases e with
  | waits _ waiting => exact txStream_kept (State.accepted_of_waiting waiting) rfl rfl rfl
  | answers _ _ _ only => exact txStream_kept (State.accepted_of_answersOnly only) rfl rfl rfl
  | queues _ b _ sends notFull =>
    have room : s.tx.count < s.cfg.txSize := Nat.lt_of_le_of_ne h.txInv.countLe notFull
    rw [State.accepted_of_room sends room]
    exact txStream_queued h.txCoherent room rfl (Ring.pushTry_isPushed b notFull) rfl
  | flushesTx empty =>
    have queued : s.tx.reset.contents s.cfg.txSize = s.tx.contents s.cfg.txSize :=
      (Ring.contents_of_count_zero _ (Ring.reset_count _)).trans (Ring.contents_of_count_zero _ empty).symm
    exact txStream_kept rfl rfl rfl queued
  | receives _ _ _ pops => obtain rfl | rfl := pops <;> exact txStream_kept rfl rfl rfl rfl
  | configures => exact txStream_kept rfl rfl (by simp [State.sentBytes]) rfl
  | transmits b r oldest popped =>
    rw [txStream_transmitted (t := ((s.setTx r).callPort [.writeData b]).setTxie _) h.txInv oldest rfl popped rfl]
    exact (List.append_nil _).symm
  | _ => exact txStream_kept rfl rfl rfl rfl

/-- Settles O53: `Effect.txStream`. -/
theorem txBytesReachThePortInOrder : Obligations.TxBytesReachThePortInOrder := by
  intro i s t h run
  have stream := (exec_effect run).txStream h
  have cfg : t.cfg = s.cfg := (exec_keepsBuild run).1
  rw [State.txStream, cfg] at stream
  exact stream

/-! ## The enables -/

/-- Settles O32: `Effect.configures` is the only effect that writes RXIE. -/
theorem onlySetupWritesRxie : Obligations.OnlySetupWritesRxie := by
  intro i s t h
  refine ⟨?_, fun notSetup => ?_⟩
  · rintro ⟨rate, charSize, stopBits, parity, rfl⟩
    obtain rfl := execSetup_next h
    rfl
  · cases exec_effect h with
    | configures => exact absurd rfl (notSetup _ _ _ _)
    | _ => rfl

/-- R20, R80: TXIE after TXR depends on whether more than one byte was queued. -/
theorem exec_txr_txie {s t : State} (h : exec .txr s = .next t) :
    t.txie = if s.tx.count ≤ 1 then false else s.txie := by
  obtain ⟨empty, rfl⟩ | ⟨b, r, -, -, popped, -, rfl⟩ := execTxr_next h
  · simp [empty]
  · have last : r.count = 0 ↔ s.tx.count ≤ 1 := by have := popped.count; omega
    simp only [State.setTxie_txie, txieAfterTxr, last]

/-- Settles O33: SENDB and SENDNB by what each can answer, TXR by `exec_txr_txie`, and no other effect writes TXIE. -/
theorem txieIsSetByPushesAndClearedByTxr : Obligations.TxieIsSetByPushesAndClearedByTxr := by
  intro i s t h
  refine ⟨?_, ?_, ?_, ?_, fun notSendb notSendnb notTxr => ?_⟩
  · rintro b rfl ended
    obtain ⟨-, rfl⟩ | ⟨-, rfl⟩ := execSendb_next h
    · rfl
    · cases ended
  · rintro b rfl held
    obtain ⟨-, rfl⟩ | ⟨-, rfl⟩ := execSendb_next h
    · cases held
    · rfl
  · rintro b rfl
    obtain ⟨room, rfl⟩ | ⟨full, rfl⟩ := execSendnb_next h
    · exact (if_neg room).symm
    · exact (if_pos full).symm
  · rintro rfl
    exact exec_txr_txie h
  · cases exec_effect h with
    | queues _ b _ sends => exact (sends.elim (notSendb b) (notSendnb b)).elim
    | rests => exact absurd rfl notTxr
    | transmits => exact absurd rfl notTxr
    | _ => rfl

/-! ## The rings -/

/-- Settles O34: the effects that write each ring. -/
theorem ringWritersAreTheListedOnes : Obligations.RingWritersAreTheListedOnes := by
  intro i s t h
  refine ⟨fun changed => ?_, fun changed => ?_⟩
  · cases exec_effect h with
    | receives _ _ _ pops => exact .inr (pops.imp_right .inl)
    | flushesRx => exact .inr (.inr (.inr rfl))
    | advances b => exact .inl ⟨b, rfl⟩
    | arrives b => exact .inl ⟨b, rfl⟩
    | _ => exact absurd rfl changed
  · cases exec_effect h with
    | queues _ b _ sends => exact sends.imp (⟨b, ·⟩) fun sendnb => .inl ⟨b, sendnb⟩
    | flushesTx => exact .inr (.inr (.inl rfl))
    | rests => exact .inr (.inr (.inr rfl))
    | transmits => exact .inr (.inr (.inr rfl))
    | _ => exact absurd rfl changed

/-- R64: an unconditional push writes the cell at `in`, on a full ring too. -/
theorem Ring.pushOverwrite_buf (r : Ring) (N : Nat) (policy : RxOverflow) (b : Byte) :
    (r.pushOverwrite N policy b).buf = r.buf.write r.inIdx b := by
  unfold Ring.pushOverwrite
  split
  · next room => rw [Ring.pushTry_room b (by omega)]
  · cases policy <;> rfl

/-- The cells of RX after an instruction: as before, or those after a write of the byte of an RXC at `in`. -/
theorem Effect.rxCells {i : Instr} {s t : State} (e : Effect s i t) :
    t.rx.buf = s.rx.buf ∨ ∃ b, i = .rxc b ∧ t.rx.buf = s.rx.buf.write s.rx.inIdx b := by
  cases e with
  | receives _ _ _ _ _ _ cells => exact .inl cells
  | advances b => exact .inr ⟨b, rfl, Ring.pushOverwrite_buf _ _ _ _⟩
  | arrives b => exact .inr ⟨b, rfl, Ring.pushOverwrite_buf _ _ _ _⟩
  | _ => exact .inl rfl

/-- The cells of TX after an instruction: as before, or those after a write of the byte of a SENDB or SENDNB at `in`. -/
theorem Effect.txCells {i : Instr} {s t : State} (e : Effect s i t) :
    t.tx.buf = s.tx.buf ∨ ∃ b, (i = .sendb b ∨ i = .sendnb b) ∧ t.tx.buf = s.tx.buf.write s.tx.inIdx b := by
  cases e with
  | queues _ b _ sends room => exact .inr ⟨b, sends, congrArg (·.1.buf) (Ring.pushTry_room b room)⟩
  | transmits _ _ _ _ cells => exact .inl cells
  | _ => exact .inl rfl

/-- What storage that is as before, or written once at `at_in`, says of each cell. -/
theorem Memory.read_written_once {m m' : Memory} {at_in : Nat} {P : Byte → Prop}
    (h : m' = m ∨ ∃ b, P b ∧ m' = m.write at_in b) :
    (∀ k, k ≠ at_in → m'.read k = m.read k) ∧
    (m'.read at_in ≠ m.read at_in → ∃ b, P b ∧ m'.read at_in = some b) := by
  obtain rfl | ⟨b, hb, rfl⟩ := h
  · exact ⟨fun _ _ => rfl, fun changed => absurd rfl changed⟩
  · exact ⟨fun k => m.read_write_other at_in k b, fun _ => ⟨b, hb, m.read_write_same at_in b⟩⟩

/-- Settles O36: each ring's storage is as before or written once, at `in`. -/
theorem everyOtherCellReadsAsBefore : Obligations.EveryOtherCellReadsAsBefore := by
  intro i s t h
  obtain ⟨rxOthers, rxAtIn⟩ := Memory.read_written_once (exec_effect h).rxCells
  obtain ⟨txOthers, txAtIn⟩ := Memory.read_written_once (exec_effect h).txCells
  exact ⟨rxOthers, txOthers, rxAtIn, txAtIn⟩

/-! ## The match state -/

/-- Everything an instruction can do to the match table. -/
theorem Effect.table {i : Instr} {s t : State} (e : Effect s i t) :
    t.table = s.table ∨
    (∃ b, i = .rxc b ∧ t.table = advanceTable s.table b) ∨
    (∃ h c p a, i = .mreg h c p ∧ t.table = s.table ++ [a]) ∨
    (∃ p, i = .mdereg p ∧ t.nEnt + 1 = s.nEnt) := by
  cases e with
  | advances b => exact .inr (.inl ⟨b, rfl, rfl⟩)
  | registers h c p => exact .inr (.inr (.inl ⟨h, c, p, _, rfl, rfl⟩))
  | deregisters p k _ found => exact .inr (.inr (.inr ⟨p, rfl, eraseIdx_length_succ (findEntry_lt found)⟩))
  | _ => exact .inl rfl

/-- Everything an instruction can do to the trigger bits. -/
theorem Effect.trig {i : Instr} {s t : State} (e : Effect s i t) :
    t.trig = s.trig ∨
    (∃ b f, i = .rxc b ∧ t.trig = raiseTrig s.trig f) ∨
    (∃ k, (i = .mclr k ∨ ∃ h c p, i = .mreg h c p ∧ k = s.nEnt) ∧ t.trig = clearTrig s.trig k) ∨
    ∃ p, i = .mdereg p := by
  cases e with
  | advances b => exact .inr (.inl ⟨b, _, rfl, rfl⟩)
  | registers h c p => exact .inr (.inr (.inl ⟨_, .inr ⟨h, c, p, rfl, rfl⟩, rfl⟩))
  | clears k => exact .inr (.inr (.inl ⟨k, .inl rfl, rfl⟩))
  | deregisters p => exact .inr (.inr (.inr ⟨p, rfl⟩))
  | _ => exact .inl rfl

/-- A bit that `TRIG[k] <- 0` takes from 1 to 0 is bit k. -/
theorem eq_of_clearTrig_lowers {t : BitVec 32} {k j : Nat} (set : t.getLsbD j = true)
    (cleared : (clearTrig t k).getLsbD j = false) : j = k := by
  simpa [getLsbD_clearTrig, set] using cleared

/-- R84: a raise lowers no bit. -/
theorem getLsbD_raiseTrig_of_set {t : BitVec 32} {j : Nat} (set : t.getLsbD j = true) (f : Nat → Bool) :
    (raiseTrig t f).getLsbD j = true := by
  simp [getLsbD_raiseTrig, set, trig_bit_lt set]

/-- R28: what an instruction other than MDEREG leaves at the position of an entry. -/
theorem Effect.entryKept {i : Instr} {s t : State} (e : Effect s i t) (notMdereg : ∀ p, i ≠ .mdereg p) {k : Nat}
    {a : Entry} (present : s.table[k]? = some a) :
    ∃ prog, t.table[k]? = some { a with prog := prog } ∧ (prog ≠ a.prog → ∃ b, i = .rxc b) := by
  obtain same | ⟨b, rfl, advanced⟩ | ⟨_, _, _, _, rfl, appended⟩ | ⟨p, rfl, -⟩ := e.table
  · exact ⟨a.prog, same ▸ present, fun moved => absurd rfl moved⟩
  · exact ⟨_, by rw [advanced, getElem?_advanceTable, present]; rfl, fun _ => ⟨b, rfl⟩⟩
  · have lt : k < s.table.length := (List.getElem?_eq_some_iff.mp present).1
    exact ⟨a.prog, by rw [appended, List.getElem?_append_left lt, present], fun moved => absurd rfl moved⟩
  · exact absurd rfl (notMdereg p)

/-- R22: `n_ent` after an instruction. -/
theorem Effect.nEnt {i : Instr} {s t : State} (e : Effect s i t) :
    t.nEnt = s.nEnt ∨ (t.nEnt = s.nEnt + 1 ∧ ∃ h c p, i = .mreg h c p) ∨ (t.nEnt + 1 = s.nEnt ∧ ∃ p, i = .mdereg p) := by
  obtain same | ⟨_, -, advanced⟩ | ⟨h, c, p, _, reg, appended⟩ | ⟨p, dereg, fewer⟩ := e.table
  · exact .inl (congrArg List.length same)
  · exact .inl ((congrArg List.length advanced).trans (length_advanceTable _ _))
  · exact .inr (.inl ⟨(congrArg List.length appended).trans List.length_append, h, c, p, reg⟩)
  · exact .inr (.inr ⟨fewer, p, dereg⟩)

/-- Settles O35: what an instruction can do to the table, to `n_ent`, to an entry and to the trigger bits. -/
theorem matchStateWritersAreTheListedOnes : Obligations.MatchStateWritersAreTheListedOnes := by
  intro i s t run
  have e := exec_effect run
  refine ⟨fun changed => ?_, fun more => ?_, fun fewer => ?_, fun notMdereg k a present => ?_,
    fun k set cleared => ?_, fun k clear raised => ?_⟩
  · obtain same | ⟨b, rxc, -⟩ | ⟨h, c, p, _, mreg, -⟩ | ⟨p, mdereg, -⟩ := e.table
    · exact absurd same changed
    · exact .inl ⟨b, rxc⟩
    · exact .inr (.inl ⟨h, c, p, mreg⟩)
    · exact .inr (.inr ⟨p, mdereg⟩)
  · obtain same | ⟨-, mreg⟩ | ⟨less, -⟩ := e.nEnt
    · omega
    · exact mreg
    · omega
  · obtain same | ⟨grown, -⟩ | ⟨-, mdereg⟩ := e.nEnt
    · omega
    · omega
    · exact mdereg
  · obtain ⟨prog, kept, moves⟩ := e.entryKept notMdereg present
    exact ⟨_, kept, rfl, rfl, rfl, moves⟩
  · obtain same | ⟨_, f, -, raise⟩ | ⟨j, writer, clear⟩ | mdereg := e.trig
    · rw [same, set] at cleared; cases cleared
    · rw [raise, getLsbD_raiseTrig_of_set set f] at cleared; cases cleared
    · rw [clear] at cleared
      obtain rfl := eq_of_clearTrig_lowers set cleared
      exact writer.imp_right .inl
    · exact .inr (.inr mdereg)
  · obtain same | ⟨b, _, rxc, -⟩ | ⟨j, -, clears⟩ | mdereg := e.trig
    · rw [same, clear] at raised; cases raised
    · exact .inl ⟨b, rxc⟩
    · rw [clears, getLsbD_clearTrig, clear] at raised; cases raised
    · exact .inr mdereg

end Sys2Proof.Machine

/-!
PROOFS. Reading and consuming (20_memory.md R40): a receive or a TXR consumes what it reads; PEEKB, PEEKNB, PEEKN, MTRIG and
STAT only answer, and read nothing that an answer changes, so that a repetition gives the same response.
-/
namespace Sys2Proof.Machine

/-! ## What an answer leaves for the next command -/

/-- An answer changes no condition that a command waits for (R54). -/
@[simp] theorem State.ready_respond (s : State) (st : Status) (data : List Byte) (i : Instr) :
    (s.respond st data).ready i = s.ready i := by
  cases i <;> rfl

/-- Two equal answers, one after the other. -/
theorem State.respond_twice (s : State) (st : Status) (data : List Byte) :
    (s.respond st data).respond st data =
      { s with held := none, responses := s.responses ++ [⟨st, data⟩, ⟨st, data⟩] } := by
  simp [State.respond]

/-- A peek answers with the bytes its run reads. -/
theorem State.peek_of_peekRun {s : State} {n : Nat} {bs : List Byte} (run : s.rx.peekRun s.cfg.rxSize 0 n = .ok bs) :
    s.peek n = .next (s.respond .ok bs) := by
  simp only [State.peek, run]

/-! ## Commands that repeat -/

/-- `t` is `s` after one answer of `i` and nothing else, and `i` run once more in `t` gives the same answer. -/
def Repeats (i : Instr) (s t : State) : Prop :=
  ∃ st data, t = s.respond st data ∧ exec i t = .next (t.respond st data)

/-- R66: a command that answers with peeked bytes, and comes to the same peek after an answer, repeats: an answer leaves RX
alone. -/
theorem Repeats.of_peek {i : Instr} {s t : State} {n : Nat}
    (peeks : ∀ st data, exec i (s.respond st data) = (s.respond st data).peek n) (h : s.peek n = .next t) :
    Repeats i s t := by
  obtain ⟨bs, run, -, rfl⟩ := State.peek_next h
  exact ⟨.ok, bs, rfl, (peeks .ok bs).trans (State.peek_of_peekRun run)⟩

/-- R72: PEEKB repeats once RX has a byte. -/
theorem peekb_repeats {s t : State} (ready : s.ready .peekb = true) (h : exec .peekb s = .next t) :
    Repeats .peekb s t :=
  .of_peek (fun st data => State.holdUntil_ready _ (s.ready_respond st data _ ▸ ready))
    ((State.holdUntil_ready _ ready).symm.trans h)

/-- R74: PEEKN repeats once RX has the bytes it asks for. -/
theorem peekn_repeats {n : Nat} {s t : State} (ready : s.ready (.peekn n) = true) (h : exec (.peekn n) s = .next t) :
    Repeats (.peekn n) s t :=
  .of_peek (n := peekCount s.cfg n) (fun st data => State.holdUntil_ready _ (s.ready_respond st data _ ▸ ready))
    ((State.holdUntil_ready _ ready).symm.trans h)

/-- R73: PEEKNB repeats, on an empty ring with the sentinel. -/
theorem peeknb_repeats {s t : State} (h : exec .peeknb s = .next t) : Repeats .peeknb s t := by
  obtain ⟨empty, rfl⟩ | ⟨pos, peek⟩ := execPeeknb_next h
  · exact ⟨.ok, [0], rfl, if_pos empty⟩
  · exact .of_peek (fun _ _ => if_neg (Nat.ne_of_gt pos)) peek

/-- R89: MTRIG repeats: an answer leaves the match table and the trigger bits alone. -/
theorem mtrig_repeats {k : Nat} {s t : State} (h : exec (.mtrig k) s = .next t) : Repeats (.mtrig k) s t := by
  obtain ⟨off, rfl⟩ | ⟨on, absent, rfl⟩ | ⟨a, on, present, rfl⟩ := execMtrig_next h
  · exact ⟨.illegal, [], rfl, if_pos off⟩
  · exact ⟨.ok, _, rfl, by simp [exec, execMtrig, on, absent]⟩
  · exact ⟨.ok, _, rfl, by simp [exec, execMtrig, on, present]⟩

/-- R95: STAT repeats: it reports nothing that an answer changes. -/
theorem stat_repeats {s t : State} (h : exec .stat s = .next t) : Repeats .stat s t := by
  obtain rfl := execStat_next h
  exact ⟨.ok, s.statBytes, rfl, rfl⟩

/-! ## Commands that consume -/

/-- R65, R70, R71: a receive on a non-empty RX pops it. -/
theorem exec_receive_popped {i : Instr} {s t : State} (receives : i = .recvb ∨ i = .recvnb) (pos : 0 < s.rx.count)
    (h : exec i s = .next t) : s.rx.Popped s.cfg.rxSize t.rx := by
  obtain rfl | rfl := receives
  · obtain ⟨empty, -⟩ | ⟨_, r, -, -, popped, -, rfl⟩ := execRecvb_next h
    · exact absurd empty (Nat.ne_of_gt pos)
    · exact popped
  · obtain ⟨empty, -⟩ | ⟨_, r, -, -, popped, -, rfl⟩ := execRecvnb_next h
    · exact absurd empty (Nat.ne_of_gt pos)
    · exact popped

/-- R65, R80: TXR on a non-empty TX pops it. -/
theorem exec_txr_popped {s t : State} (pos : 0 < s.tx.count) (h : exec .txr s = .next t) :
    s.tx.Popped s.cfg.txSize t.tx := by
  obtain ⟨empty, -⟩ | ⟨_, r, -, -, popped, -, rfl⟩ := execTxr_next h
  · exact absurd empty (Nat.ne_of_gt pos)
  · exact popped

/-- Settles O40: a receive and TXR pop their ring, and each of the five commands `Repeats`. -/
theorem peeksRepeatAndReceivesConsume : Obligations.PeeksRepeatAndReceivesConsume := by
  refine ⟨fun s t i receives pos h => ?_, fun s t pos h => ?_, fun s t i query ready h => ?_⟩
  · have popped := exec_receive_popped receives pos h
    exact ⟨popped.outIdx, popped.count⟩
  · have popped := exec_txr_popped pos h
    exact ⟨popped.outIdx, popped.count⟩
  · have repeats : Repeats i s t := by
      obtain rfl | rfl | ⟨n, rfl⟩ | ⟨k, rfl⟩ | rfl := query
      · exact peekb_repeats ready h
      · exact peeknb_repeats h
      · exact peekn_repeats ready h
      · exact mtrig_repeats h
      · exact stat_repeats h
    obtain ⟨st, data, rfl, again⟩ := repeats
    exact ⟨⟨st, data⟩, rfl, State.respond_twice s st data ▸ again⟩

end Sys2Proof.Machine

/-!
PROOFS. The encoding (30_encoding.md R52-R61): what each instruction's word and payload are to the decoder, and back.
-/
namespace Sys2Proof

/-! ## From an instruction to its word and payload -/

/-- The operation that the word of an instruction selects (R57). -/
def Instr.opcode : Instr → Opcode
  | .sendb _ => .sendb
  | .sendnb _ => .sendnb
  | .recvb => .recvb
  | .recvnb => .recvnb
  | .peekb => .peekb
  | .peeknb => .peeknb
  | .peekn _ => .peekn
  | .flushrx => .flushrx
  | .flushtx => .flushtx
  | .setup _ _ _ _ => .setup
  | .mreg _ _ _ => .mreg
  | .mdereg _ => .mdereg
  | .mtrig _ => .mtrig
  | .mclr _ => .mclr
  | .stat => .stat
  | .rxc _ => .rxc
  | .txr => .txr

/-- R61: the low byte of a word that adds a byte operand to a multiple of 256. -/
theorem immField_ofNat {base n : Nat} (aligned : base % 256 = 0) (le : n ≤ 255) :
    (immField (BitVec.ofNat 16 (base + n))).toNat = n := by
  rw [immField_toNat, BitVec.toNat_ofNat]
  omega

theorem immField_ofNat_byte {base : Nat} (aligned : base % 256 = 0) (b : Byte) :
    immField (BitVec.ofNat 16 (base + b.toNat)) = b :=
  BitVec.eq_of_toNat_eq (immField_ofNat aligned (Nat.le_of_lt_succ b.isLt))

theorem n12Field_ofNat {base n : Nat} (aligned : base % 4096 = 0) (le : n ≤ 4095) :
    (n12Field (BitVec.ofNat 16 (base + n))).toNat = n := by
  rw [n12Field_toNat, BitVec.toNat_ofNat]
  omega

section
variable {i : Instr} (wf : i.wellFormed = true)
include wf

/-- R61: the word of an instruction is one that the opcode map of R57 gives to its operation. -/
theorem selectedBy_encodeWord {matchEnabled : Bool} (on : i.usesMatch = true → matchEnabled = true) :
    i.opcode.selectedBy matchEnabled (encodeWord i).toNat := by
  cases i with
  | sendb b | sendnb b | rxc b =>
    have := b.isLt
    simp only [Instr.opcode, Opcode.selectedBy, encodeWord, BitVec.toNat_ofNat]
    omega
  | peekn n =>
    have := of_decide_eq_true wf
    simp only [Instr.opcode, Opcode.selectedBy, encodeWord, BitVec.toNat_ofNat]
    omega
  | mreg _ _ _ | mdereg _ | mtrig _ | mclr _ =>
    have := of_decide_eq_true wf
    refine ⟨?_, on rfl⟩
    simp only [encodeWord, BitVec.toNat_ofNat]
    omega
  | _ => rfl

/-- R53: the word of an instruction announces the length of its payload. -/
theorem payloadLength_encodeWord : payloadLength i.opcode (encodeWord i) = (encodePayload i).length := by
  cases i with
  | mreg h c p =>
    have imm : (immField (encodeWord (.mreg h c p))).toNat = p.length :=
      immField_ofNat (base := 0xB000) rfl (of_decide_eq_true wf)
    simp only [Instr.opcode, payloadLength, imm, encodePayload, List.length_append, wordBytes_length]
  | mdereg p => exact immField_ofNat (base := 0xC000) rfl (of_decide_eq_true wf)
  | _ => rfl

/-- R52, R53: the operands are read back from the word and the payload. -/
theorem assemble_encode : assemble i.opcode (encodeWord i) (encodePayload i) = i := by
  cases i with
  | sendb b => exact congrArg Instr.sendb (immField_ofNat_byte (base := 0x1000) rfl b)
  | sendnb b => exact congrArg Instr.sendnb (immField_ofNat_byte (base := 0x2000) rfl b)
  | rxc b => exact congrArg Instr.rxc (immField_ofNat_byte (base := 0xF100) rfl b)
  | peekn n => exact congrArg Instr.peekn (n12Field_ofNat (base := 0x7000) rfl (of_decide_eq_true wf))
  | mtrig k => exact congrArg Instr.mtrig (immField_ofNat (base := 0xD000) rfl (of_decide_eq_true wf))
  | mclr k => exact congrArg Instr.mclr (immField_ofNat (base := 0xE000) rfl (of_decide_eq_true wf))
  | setup rate charSize stopBits parity =>
    exact congrArg (Instr.setup · charSize stopBits parity) (dwordAt_dwordBytes rate _)
  | mreg h c p => exact congrFun (congr (congrArg Instr.mreg (bytes_append h)) (bytes_append c)) p
  | _ => rfl

end

/-- R55: an operation is an event exactly if its instructions belong to the event port. -/
theorem opcode_isEvent (i : Instr) : i.opcode.isEvent = true ↔ i.port = .event := by
  cases i <;> simp [Instr.opcode, Opcode.isEvent, Instr.port]

/-- R58: at its own port the word of a well-formed instruction is legal and selects the instruction's operation. -/
theorem decodeWord_encodeWord {matchEnabled : Bool} {i : Instr} (wf : i.wellFormed = true)
    (on : i.usesMatch = true → matchEnabled = true) :
    decodeWord matchEnabled i.port (encodeWord i) = .legal i.opcode := by
  have selected := selectedBy_encodeWord wf on
  have event := opcode_isEvent i
  cases port : i.port with
  | command => exact decodeWord_command selected (by simpa [port] using event)
  | event => exact decodeWord_event selected (event.mpr port)

/-- Settles O1: the word selects the operation and announces the payload, from which the operands are read back. -/
theorem decodeOfEncodeIsIdentity : Obligations.DecodeOfEncodeIsIdentity := by
  intro matchEnabled i rest wf on
  have unit := decode_unit (rest := rest) (decodeWord_encodeWord wf on) (payloadLength_encodeWord wf)
  rwa [assemble_encode wf, ← List.append_assoc] at unit

/-! ## From a word and its payload to the instruction -/

/-- R57, R61: the word of what an operation makes of one of its words is that word. -/
theorem encodeWord_assemble {k : Opcode} {matchEnabled : Bool} {w : Word} {payload : List Byte}
    (selected : k.selectedBy matchEnabled w.toNat) (len : payload.length = payloadLength k w) :
    encodeWord (assemble k w payload) = w := by
  have lt := w.isLt
  have imm := immField_toNat w
  have n12 := n12Field_toNat w
  apply BitVec.eq_of_toNat_eq
  cases k with
  | sendb | sendnb | rxc | peekn =>
    simp only [Opcode.selectedBy] at selected
    simp only [assemble, encodeWord, BitVec.toNat_ofNat]
    omega
  | mreg | mdereg | mtrig | mclr =>
    have high := selected.1
    simp only [payloadLength] at len
    simp only [assemble, encodeWord, BitVec.toNat_ofNat, List.length_drop]
    omega
  | _ => exact selected.symm

/-- R37, R53: a 7-byte payload is the bytes of the SETUP read from it. -/
theorem setup_payload {p : List Byte} (len : p.length = 7) :
    dwordBytes (dwordAt p 0) ++ [byteAt p 4, byteAt p 5, byteAt p 6] = p := by
  match p, len with
  | [_, _, _, _, _, _, _], _ => rw [dwordAt, dwordBytes_append, wordAt, wordAt, wordBytes_append, wordBytes_append]; rfl

/-- R37, R53: a payload of 4 bytes or more is the bytes of the MREG read from it. -/
theorem mreg_payload {p : List Byte} (len : 4 ≤ p.length) :
    wordBytes (wordAt p 0) ++ wordBytes (wordAt p 2) ++ p.drop 4 = p := by
  match p, len with
  | _ :: _ :: _ :: _ :: _, _ => rw [wordAt, wordAt, wordBytes_append, wordBytes_append]; rfl

/-- R53: the payload of what an operation makes of a whole payload is that payload. -/
theorem encodePayload_assemble {k : Opcode} {w : Word} {payload : List Byte}
    (len : payload.length = payloadLength k w) : encodePayload (assemble k w payload) = payload := by
  cases k with
  | setup => exact setup_payload len
  | mreg => exact mreg_payload (len ▸ Nat.le_add_right 4 _)
  | mdereg => rfl
  | _ => exact (List.eq_nil_of_length_eq_zero len).symm

/-- R8, R59: an operation of the match engine is selected only where it is built in. -/
theorem matchEnabled_of_selectedBy {k : Opcode} {matchEnabled : Bool} {w : Word} {payload : List Byte}
    (selected : k.selectedBy matchEnabled w.toNat) (uses : (assemble k w payload).usesMatch = true) :
    matchEnabled = true := by
  cases k with
  | mreg | mdereg | mtrig | mclr => exact selected.2
  | _ => cases uses

/-- Settles O2: the word and the payload a unit was read from are those its instruction encodes to. -/
theorem encodeOfDecodeIsIdentity : Obligations.EncodeOfDecodeIsIdentity := by
  intro matchEnabled p bytes i rest unit
  obtain ⟨wf, port⟩ := decode_unit_wellFormed unit
  obtain ⟨w, k, payload, rfl, legal, len, rfl⟩ := decode_eq_unit unit
  obtain ⟨selected, -⟩ := decodeWord_legal legal
  refine ⟨wf, port, matchEnabled_of_selectedBy selected, ?_⟩
  rw [encode, encodeWord_assemble selected len, encodePayload_assemble len, List.append_assoc]

/-! ## Illegal words -/

/-- R58: a word is illegal on the command port exactly if it selects no command. -/
theorem decodeWord_command_illegal {matchEnabled : Bool} {w : Word} :
    decodeWord matchEnabled .command w = .illegal ↔
      ∀ k : Opcode, k.isEvent = false → decodeOpcode matchEnabled w ≠ some k := by
  simp only [decodeWord]
  cases decodeOpcode matchEnabled w with
  | none => simp
  | some k =>
    cases event : k.isEvent with
    | false => simp [event]
    | true =>
      simp only [event, if_true, true_iff]
      rintro j command ⟨⟩
      exact absurd (event.symm.trans command) nofun

/-- R97: the command port answers illegal, and takes the word alone, exactly if the word is illegal. -/
theorem decode_command_illegal {matchEnabled : Bool} {w : Word} {rest : List Byte} :
    decode matchEnabled .command (wordBytes w ++ rest) = .illegal rest ↔
      decodeWord matchEnabled .command w = .illegal := by
  rw [decode_wordBytes]
  cases decodeWord matchEnabled .command w with
  | illegal => simp
  | refuse => simp
  | legal k => dsimp only; split <;> simp

/-- R55, R57: the commands are all operations but RXC and TXR. -/
theorem forall_command {P : Opcode → Prop} :
    (∀ k : Opcode, k.isEvent = false → P k) ↔
      P .sendb ∧ P .sendnb ∧ P .recvb ∧ P .recvnb ∧ P .peekb ∧ P .peeknb ∧ P .peekn ∧ P .flushrx ∧ P .flushtx ∧
      P .setup ∧ P .mreg ∧ P .mdereg ∧ P .mtrig ∧ P .mclr ∧ P .stat := by
  constructor
  · intro h
    exact ⟨h _ rfl, h _ rfl, h _ rfl, h _ rfl, h _ rfl, h _ rfl, h _ rfl, h _ rfl, h _ rfl, h _ rfl, h _ rfl, h _ rfl,
      h _ rfl, h _ rfl, h _ rfl⟩
  · intro h k command
    cases k with
    | rxc | txr => cases command
    | _ => simp only [h]

/-- R59: the fields that select no command, op value by op value. -/
theorem no_command_fields {matchEnabled : Bool} {op sub n12 imm8 : Nat} (lt : op < 16) :
    (∀ k : Opcode, k.isEvent = false → ¬ k.fields matchEnabled op sub n12 imm8) ↔
      op = 0x0 ∨
      (op ∈ [0x1, 0x2, 0xB, 0xC, 0xD, 0xE] ∧ sub ≠ 0) ∨
      (op ∈ [0x3, 0x4, 0x5, 0x6, 0x8, 0x9, 0xA] ∧ n12 ≠ 0) ∨
      (op = 0xF ∧ 3 ≤ sub) ∨
      (op = 0xF ∧ sub ∈ [0, 2] ∧ imm8 ≠ 0) ∨
      ((op = 0xF ∧ sub = 1) ∨ (op = 0xF ∧ sub = 2 ∧ imm8 = 0)) ∨
      (op ∈ [0xB, 0xC, 0xD, 0xE] ∧ matchEnabled = false) := by
  rw [forall_command]
  obtain rfl | below : op = 0xF ∨ op < 0xF := by omega
  · have subs : ¬ (sub = 0 ∧ imm8 = 0) ↔
        3 ≤ sub ∨ (sub = 0 ∨ sub = 2) ∧ imm8 ≠ 0 ∨ sub = 1 ∨ sub = 2 ∧ imm8 = 0 := by omega
    simpa [Opcode.fields] using subs
  · have values : op = 0 ∨ op = 1 ∨ op = 2 ∨ op = 3 ∨ op = 4 ∨ op = 5 ∨ op = 6 ∨ op = 7 ∨ op = 8 ∨ op = 9 ∨ op = 10 ∨
        op = 11 ∨ op = 12 ∨ op = 13 ∨ op = 14 := by omega
    obtain rfl | rfl | rfl | rfl | rfl | rfl | rfl | rfl | rfl | rfl | rfl | rfl | rfl | rfl | rfl := values <;>
      simp [Opcode.fields, Decidable.imp_iff_not_or]

/-- Settles O3: a word is illegal exactly if its fields select no command. -/
theorem illegalCommandWordsAreTheListedOnes : Obligations.IllegalCommandWordsAreTheListedOnes := by
  intro matchEnabled w rest
  have lt := w.isLt
  have rxc : w.toNat / 256 = 0xF1 ↔ w.toNat / 4096 = 0xF ∧ w.toNat / 256 % 16 = 1 := by omega
  have txr : w.toNat = 0xF200 ↔ w.toNat / 4096 = 0xF ∧ w.toNat / 256 % 16 = 2 ∧ w.toNat % 256 = 0 := by omega
  rw [decode_command_illegal, decodeWord_command_illegal, rxc, txr]
  simp only [ne_eq, decodeOpcode_fields]
  exact no_command_fields (by omega)

/-- Settles O4: each word and its payload evaluate to the instruction named. -/
theorem sampleWordsDecode : Obligations.SampleWordsDecode := by
  unfold Obligations.SampleWordsDecode
  decide

end Sys2Proof

/-!
PROOFS. How a command ends (30_encoding.md R54, R56, R62): held while its condition is false, else with one response of the
tables' status and length; and the responses of a SENDN.
-/
namespace Sys2Proof.Machine

/-! ## Holding commands -/

/-- R54: the holding commands are five. -/
theorem holding_iff (i : Instr) : i.holding = true ↔
    (∃ b, i = .sendb b) ∨ i = .recvb ∨ i = .peekb ∨ (∃ n, i = .peekn n) ∨ i = .flushtx := by
  cases i <;> simp [Instr.holding]

/-- R54: a command whose condition is false is held, and nothing else changes. -/
theorem exec_of_waiting {i : Instr} {s : State} (waiting : s.ready i = false) : exec i s = .next (s.hold i) := by
  obtain ⟨b, rfl⟩ | rfl | rfl | ⟨n, rfl⟩ | rfl := (holding_iff i).mp (holding_of_waiting waiting) <;>
    exact State.holdUntil_waiting _ waiting

/-- R54: while a command waits F's turn passes without effect. -/
theorem step_foreground_waiting {i : Instr} {s : State} {ts : List Turn} (held : s.held = some i)
    (waiting : s.ready i = false) (turns : s.turns = .foreground :: ts) : step s = .next { s with turns := ts } := by
  obtain ⟨_, -, e⟩ | ⟨_, _, idle, -⟩ | ⟨_, idle, -⟩ | ⟨idle, -⟩ | ⟨idle, -⟩ :=
    step_foreground_cases (State.due_of_waiting held waiting) turns
  · exact e
  all_goals exact absurd (held.symm.trans idle) nofun

/-- R115: while a command waits F's turn leaves a sweep where it is. -/
theorem Sweep.run_foreground_waiting {x : Sweep} {i : Instr} (handlers : Handlers) (held : x.block.held = some i)
    (waiting : x.block.ready i = false) : Sweep.run handlers [.foreground] x = .next x := by
  simp only [Sweep.run, Sweep.turn_waiting handlers held waiting]

/-- R54: a command whose condition is true is over once it has taken its effect. -/
theorem Effect.ends {i : Instr} {s t : State} (e : Effect s i t) (command : i.port = .command)
    (ready : s.ready i = true) : t.held = none := by
  cases e with
  | waits _ waiting => exact absurd (ready.symm.trans waiting) nofun
  | advances | arrives | rests | transmits => cases command
  | _ => rfl

/-! ## Events -/

/-- R64: an unconditional push loses no byte of the count. -/
theorem Ring.le_count_pushOverwrite (r : Ring) (N : Nat) (policy : RxOverflow) (b : Byte) :
    r.count ≤ (r.pushOverwrite N policy b).count := by
  unfold Ring.pushOverwrite
  split
  · next room => rw [Ring.pushTry_room b (Nat.ne_of_lt room)]; exact Nat.le_succ _
  · cases policy <;> exact Nat.le_refl _

/-- R54: an event never waits. -/
theorem port_of_waiting {s : State} {i : Instr} (waiting : s.ready i = false) : i.port = .command := by
  cases i with
  | rxc _ | txr => cases waiting
  | _ => rfl

/-- R56: an event never just answers. -/
theorem port_of_answersOnly {s : State} {i : Instr} (only : s.AnswersOnly i) : i.port = .command := by
  cases i with
  | rxc _ | txr => exact only.elim
  | _ => rfl

/-- R80, R81: what an event does to the held command and to the counts that commands wait on. -/
theorem Effect.event_frame {e : Instr} {s t : State} (h : Effect s e t) (event : e.port = .event) :
    t.held = s.held ∧ t.tx.count ≤ s.tx.count ∧ s.rx.count ≤ t.rx.count := by
  cases h with
  | advances b | arrives b => exact ⟨rfl, Nat.le_refl _, Ring.le_count_pushOverwrite _ _ _ b⟩
  | rests => exact ⟨rfl, Nat.le_refl _, Nat.le_refl _⟩
  | transmits b r _ popped => exact ⟨rfl, Nat.le.intro popped.count, Nat.le_refl _⟩
  | waits _ waiting => exact absurd ((port_of_waiting waiting).symm.trans event) nofun
  | answers _ _ _ only => exact absurd ((port_of_answersOnly only).symm.trans event) nofun
  | queues _ _ _ sends => obtain rfl | rfl := sends <;> cases event
  | receives _ _ _ pops => obtain rfl | rfl := pops <;> cases event
  | flushesTx | flushesRx | configures | registers | deregisters | clears => cases event

/-- R54: fewer bytes in TX and more in RX never make a condition false. -/
theorem State.ready_mono {s t : State} {i : Instr} (cfg : t.cfg = s.cfg) (tx : t.tx.count ≤ s.tx.count)
    (rx : s.rx.count ≤ t.rx.count) (ready : s.ready i = true) : t.ready i = true := by
  cases i with
  | sendb b | recvb | peekb | peekn n | flushtx =>
    simp only [State.ready_sendb, State.ready_recvb, State.ready_peekb, State.ready_peekn, State.ready_flushtx, cfg,
      decide_eq_true_eq] at ready ⊢
    omega
  | _ => rfl

/-- Settles O8: a waiting command is held, on F's turn and in a sweep; a due one takes its effect and is over; what an event
does to the counts makes no condition false. -/
theorem holdingCommandsWaitForTheirCondition : Obligations.HoldingCommandsWaitForTheirCondition := by
  refine ⟨holding_iff, fun i s waiting => ⟨holding_of_waiting waiting, exec_of_waiting waiting⟩,
    fun i s ts => step_foreground_waiting, fun i x handlers => Sweep.run_foreground_waiting handlers,
    fun i s held ready => step_due (State.due_eq_some.mpr ⟨held, ready⟩),
    fun i s t command ready run => (exec_effect run).ends command ready, fun i s notHolding => ?_,
    fun i e s t _ _ event run => ?_⟩
  · rw [← Bool.not_eq_false]
    exact fun waiting => absurd (notHolding.symm.trans (holding_of_waiting waiting)) nofun
  · obtain ⟨held, tx, rx⟩ := (exec_effect run).event_frame event
    exact ⟨held, tx, rx, State.ready_mono (exec_keepsBuild run).1 tx rx⟩

/-! ## The one response of a command -/

/-- The length of the data of an OK response (R56). -/
def State.okLength (s : State) : Instr → Nat
  | .sendnb _ => 1
  | .recvb => 1
  | .recvnb => 1
  | .peekb => 1
  | .peeknb => 1
  | .peekn n => min n s.cfg.rxSize
  | .mtrig _ => 6
  | .stat => 18
  | _ => 0

/-- The responses that the tables of R56 allow a command in state `s`. -/
inductive Allowed (s : State) : Instr → Response → Prop
  | ok (i : Instr) (data : List Byte) (len : data.length = s.okLength i) : Allowed s i ⟨.ok, data⟩
  | illegal (i : Instr) (uses : i.usesMatch = true) (off : s.cfg.matchEnabled = false) : Allowed s i ⟨.illegal, []⟩
  | noHandler (h c : Word) (p : List Byte) : Allowed s (.mreg h c p) ⟨.noHandler, []⟩
  | tableFull (h c : Word) (p : List Byte) : Allowed s (.mreg h c p) ⟨.tableFull, []⟩

/-- What a command `i` comes to in state `s` (R54, R56): it waits, or it gives one response that the tables allow. -/
inductive Ends (s : State) (i : Instr) (t : State) : Prop
  | waits (held : t = s.hold i)
  | responds (r : Response) (ended : t.held = none) (one : t.responses = s.responses ++ [r]) (allowed : Allowed s i r)

theorem Ends.ok {s u : State} {i : Instr} {data : List Byte} (same : u.responses = s.responses)
    (len : data.length = s.okLength i) : Ends s i (u.respond .ok data) :=
  .responds ⟨.ok, data⟩ rfl (same ▸ rfl) (.ok i data len)

theorem Ends.illegal {s : State} {i : Instr} (uses : i.usesMatch = true) (off : s.cfg.matchEnabled = false) :
    Ends s i (s.respond .illegal []) :=
  .responds _ rfl rfl (.illegal i uses off)

theorem State.statBytes_length (s : State) : s.statBytes.length = 18 := by
  unfold State.statBytes State.matchStatBytes
  split <;> rfl

/-- A peek ends its command when it reads the number of bytes the command answers with. -/
theorem Ends.of_peek {s t : State} {i : Instr} {n : Nat} (len : s.okLength i = n) (h : s.peek n = .next t) :
    Ends s i t := by
  obtain ⟨bs, -, peeked, rfl⟩ := State.peek_next h
  exact .ok rfl (peeked.trans len.symm)

/-- Every command that answers a next state waits or gives one response of the tables. -/
theorem exec_ends {i : Instr} {s t : State} (command : i.port = .command) (h : exec i s = .next t) : Ends s i t := by
  cases i with
  | sendb b =>
    obtain ⟨-, rfl⟩ | ⟨-, rfl⟩ := execSendb_next h
    · exact .ok rfl rfl
    · exact .waits rfl
  | sendnb b => obtain ⟨-, rfl⟩ | ⟨-, rfl⟩ := execSendnb_next h <;> exact .ok rfl rfl
  | recvb =>
    obtain ⟨-, rfl⟩ | ⟨_, _, -, -, -, -, rfl⟩ := execRecvb_next h
    · exact .waits rfl
    · exact .ok rfl rfl
  | recvnb =>
    obtain ⟨-, rfl⟩ | ⟨_, _, -, -, -, -, rfl⟩ := execRecvnb_next h <;> exact .ok rfl rfl
  | peekb =>
    obtain ⟨-, rfl⟩ | ⟨-, h⟩ := execPeekb_next h
    · exact .waits rfl
    · exact .of_peek rfl h
  | peeknb =>
    obtain ⟨-, rfl⟩ | ⟨-, h⟩ := execPeeknb_next h
    · exact .ok rfl rfl
    · exact .of_peek rfl h
  | peekn n =>
    obtain ⟨-, rfl⟩ | ⟨-, h⟩ := execPeekn_next h
    · exact .waits rfl
    · exact .of_peek rfl h
  | flushrx => obtain rfl := execFlushrx_next h; exact .ok rfl rfl
  | flushtx =>
    obtain ⟨-, rfl⟩ | ⟨-, rfl⟩ := execFlushtx_next h
    · exact .ok rfl rfl
    · exact .waits rfl
  | setup => obtain rfl := execSetup_next h; exact .ok rfl rfl
  | mreg hd c p =>
    obtain ⟨off, rfl⟩ | ⟨-, -, rfl⟩ | ⟨-, -, -, rfl⟩ | ⟨-, -, -, rfl⟩ := execMreg_next h
    · exact .illegal rfl off
    · exact .responds _ rfl rfl (.noHandler ..)
    · exact .responds _ rfl rfl (.tableFull ..)
    · exact .ok rfl rfl
  | mdereg p =>
    obtain ⟨off, rfl⟩ | ⟨-, -, rfl⟩ | ⟨_, -, -, -, rfl⟩ := execMdereg_next h
    · exact .illegal rfl off
    · exact .ok rfl rfl
    · exact .ok rfl rfl
  | mtrig k =>
    obtain ⟨off, rfl⟩ | ⟨-, -, rfl⟩ | ⟨_, -, -, rfl⟩ := execMtrig_next h
    · exact .illegal rfl off
    · exact .ok rfl rfl
    · exact .ok rfl rfl
  | mclr k =>
    obtain ⟨off, rfl⟩ | ⟨-, -, rfl⟩ | ⟨-, -, rfl⟩ := execMclr_next h
    · exact .illegal rfl off
    · exact .ok rfl rfl
    · exact .ok rfl rfl
  | stat => obtain rfl := execStat_next h; exact .ok rfl s.statBytes_length
  | rxc | txr => cases command

/-- R56: an event gives no response. -/
theorem exec_event_responses {i : Instr} {s t : State} (event : i.port = .event) (h : exec i s = .next t) :
    t.responses = s.responses := by
  cases i with
  | rxc b => obtain ⟨-, rfl⟩ | ⟨-, rfl⟩ := execRxc_next h <;> rfl
  | txr => obtain ⟨-, rfl⟩ | ⟨_, _, -, -, -, -, rfl⟩ := execTxr_next h <;> rfl
  | _ => cases event

/-- Settles O38: `exec_ends`, each response it names read against the statement's table. -/
theorem everyCommandEndsWithOneResponse : Obligations.EveryCommandEndsWithOneResponse := by
  intro i s t h
  refine ⟨fun event => exec_event_responses event h, fun command => ?_, rfl, rfl, rfl, rfl⟩
  obtain rfl | ⟨r, ended, one, allowed⟩ := exec_ends command h
  · exact .inl rfl
  · refine .inr ⟨r, ended, one, ?_⟩
    cases allowed with
    | ok _ data len => exact ⟨fun notOk => absurd rfl notOk, fun _ => len⟩
    | illegal _ uses off => exact ⟨fun _ => ⟨rfl, .inl ⟨rfl, uses, off⟩⟩, nofun⟩
    | noHandler hd c p => exact ⟨fun _ => ⟨rfl, .inr ⟨hd, c, p, rfl, .inl rfl⟩⟩, nofun⟩
    | tableFull hd c p => exact ⟨fun _ => ⟨rfl, .inr ⟨hd, c, p, rfl, .inr rfl⟩⟩, nofun⟩

/-! ## SENDN -/

/-- What a run of SENDBs leaves: the bytes of `l` queued behind those of `s`, and one OK for each. -/
structure Queued (s : State) (l : List Byte) (t : State) : Prop where
  inv : t.Inv
  idle : t.held = none
  cfg : t.cfg = s.cfg
  queued : t.tx.contents s.cfg.txSize = s.tx.contents s.cfg.txSize ++ l.map some
  responses : t.responses = s.responses ++ l.map fun _ => { status := .ok, data := [] }

theorem Queued.count {s t : State} {l : List Byte} (q : Queued s l t) : t.tx.count = s.tx.count + l.length := by
  simpa using congrArg List.length q.queued

theorem Queued.trans {s t u : State} {l m : List Byte} (first : Queued s l t) (next : Queued t m u) :
    Queued s (l ++ m) u := by
  have queued := next.queued
  rw [first.cfg, first.queued] at queued
  exact ⟨next.inv, next.idle, next.cfg.trans first.cfg, by simpa using queued,
    by simp [next.responses, first.responses]⟩

/-- R68: SENDB on a ring with room queues its byte. -/
theorem exec_sendb_queued {s : State} (h : s.Inv) (b : Byte) (room : s.tx.count < s.cfg.txSize) :
    ∃ t, exec (.sendb b) s = .next t ∧ Queued s [b] t := by
  have ready : s.ready (.sendb b) = true := decide_eq_true room
  have run := State.holdUntil_ready (i := .sendb b)
    (.next (((s.setTx (s.tx.pushTry s.cfg.txSize b).1).setTxie true).respond .ok [])) ready
  exact ⟨_, run, {
    inv := (exec_effect (i := .sendb b) run).keepsInv h rfl nofun
    idle := rfl
    cfg := rfl
    queued := Ring.contents_pushed (Ring.pushTry_isPushed b (Nat.ne_of_lt room)) h.txCoherent room
    responses := rfl }⟩

/-- R62: a SENDN that has room for all its bytes queues them. -/
theorem issueAll_sendN {s : State} (l : List Byte) (h : s.Inv) (idle : s.held = none)
    (room : s.tx.count + l.length ≤ s.cfg.txSize) : ∃ t, issueAll (sendN l) s = .next t ∧ Queued s l t := by
  induction l generalizing s with
  | nil => exact ⟨s, rfl, h, idle, rfl, by simp, by simp⟩
  | cons b l ih =>
    rw [List.length_cons] at room
    obtain ⟨t, run, first⟩ := exec_sendb_queued h b (by omega)
    have left : t.tx.count + l.length ≤ t.cfg.txSize := by
      rw [first.count, first.cfg, List.length_singleton]
      omega
    obtain ⟨u, runs, next⟩ := ih first.inv first.idle left
    refine ⟨u, ?_, first.trans next⟩
    rw [sendN, List.map_cons, issueAll, idle, run]
    exact runs

/-- Settles O56: `issueAll_sendN`. -/
theorem sendnQueuesItsBytesInOrder : Obligations.SendnQueuesItsBytesInOrder := by
  intro l s h idle room
  obtain ⟨t, run, q⟩ := issueAll_sendN l h idle room
  exact ⟨t, run, q.idle, q.queued, q.responses⟩

end Sys2Proof.Machine

/-!
PROOFS. The rings and their commands (40_ringbuffer.md R64-R76): an unconditional push on a full ring, and what each SEND,
RECV, PEEK and FLUSH command answers when its condition is true and when it is not.
-/
namespace Sys2Proof

/-! ## The words of the ring commands -/

/-- R48, R58: the command port reads back what a well-formed command, not of the match engine, encodes to. -/
theorem decode_command_encode {i : Instr} (command : i.port = .command) (wf : i.wellFormed = true)
    (plain : i.usesMatch = false) (matchEnabled : Bool) (rest : List Byte) :
    decode matchEnabled .command (encode i ++ rest) = .unit i rest :=
  command ▸ decodeOfEncodeIsIdentity matchEnabled i rest wf fun uses => absurd (plain.symm.trans uses) nofun

/-- R49: the bytes of a word given as the sum of its high and its low byte. -/
theorem wordBytes_ofNat_bytes (hi lo : Byte) : wordBytes (BitVec.ofNat 16 (hi.toNat * 256 + lo.toNat)) = [lo, hi] := by
  rw [← append_toNat, BitVec.ofNat_toNat, BitVec.setWidth_eq, wordBytes_append]

theorem encode_sendb (b : Byte) : encode (.sendb b) = [b, 0x10] := wordBytes_ofNat_bytes 0x10 b

theorem encode_sendnb (b : Byte) : encode (.sendnb b) = [b, 0x20] := wordBytes_ofNat_bytes 0x20 b

end Sys2Proof

namespace Sys2Proof.Machine

/-! ## An unconditional push -/

theorem Ring.pushOverwrite_room {r : Ring} {N : Nat} (policy : RxOverflow) (b : Byte) (room : r.count < N) :
    r.pushOverwrite N policy b = (r.pushTry N b).1 := if_pos room

/-- R64, OVERWRITE_OLDEST: on a full ring both indices advance. -/
theorem Ring.pushOverwrite_oldest {r : Ring} {N : Nat} (b : Byte) (full : r.count = N) :
    r.pushOverwrite N .overwriteOldest b =
      { r with buf := r.buf.write r.inIdx b, inIdx := (r.inIdx + 1) % N, outIdx := (r.outIdx + 1) % N } :=
  if_neg (by omega)

/-- R64, OVERWRITE_AT_IN: on a full ring `in` alone advances. -/
theorem Ring.pushOverwrite_atIn {r : Ring} {N : Nat} (b : Byte) (full : r.count = N) :
    r.pushOverwrite N .overwriteAtIn b = { r with buf := r.buf.write r.inIdx b, inIdx := (r.inIdx + 1) % N } :=
  if_neg (by omega)

/-- A write of the oldest cell replaces the first of the bytes a ring holds. -/
theorem Ring.contents_replaced {r r' : Ring} {N : Nat} {b : Byte} (h : r.Inv N) (pos : 0 < r.count)
    (count : r'.count = r.count) (out : r'.outIdx = r.outIdx) (cell : r'.buf.read r.outIdx = some b)
    (others : ∀ k, k ≠ r.outIdx → r'.buf.read k = r.buf.read k) :
    r'.contents N = some b :: (r.contents N).tail := by
  have le := h.countLe
  have start : (r.outIdx + 0) % N = r.outIdx := Nat.mod_eq_of_lt h.outLt
  apply List.ext_getElem?
  intro k
  cases k with
  | zero => rw [Ring.getElem?_contents, count, if_pos pos, out, start, cell, List.getElem?_cons_zero]
  | succ k =>
    rw [List.getElem?_cons_succ, List.getElem?_tail, Ring.getElem?_contents, Ring.getElem?_contents, count, out]
    split
    · next lt =>
      have other : (r.outIdx + (k + 1)) % N ≠ r.outIdx := fun e =>
        absurd (offset_inj (by omega) (by omega) (e.trans start.symm)) (Nat.succ_ne_zero k)
      rw [others _ other]
    · rfl

/-- R64: on a full coherent ring OVERWRITE_OLDEST is a pop, which makes room, and a push. -/
theorem Ring.contents_pushOverwrite_oldest {r : Ring} {N : Nat} (b : Byte) (full : r.count = N) (h : r.Inv N)
    (c : r.Coherent N) :
    (r.pushOverwrite N .overwriteOldest b).contents N = (r.contents N).tail ++ [some b] := by
  have out := h.outLt
  obtain ⟨old, oldest⟩ := h.oldest (by omega)
  obtain ⟨r', -, popped, -⟩ := Ring.pop_popped N (by omega) oldest
  have count := popped.count
  have pushed : r'.Pushed N b (r.pushOverwrite N .overwriteOldest b) := by
    rw [Ring.pushOverwrite_oldest b full]
    refine ⟨by rw [popped.inIdx], popped.outIdx.symm, popped.count.symm, ?_, fun k hk => ?_⟩
    · rw [popped.inIdx, Memory.read_write_same]
    · rw [popped.cells, Memory.read_write_other _ _ _ _ (popped.inIdx ▸ hk)]
  rw [Ring.contents_pushed pushed (c.popped popped) (by omega), Ring.contents_popped popped out, List.tail_cons]

/-- R64: on a full coherent ring OVERWRITE_AT_IN writes the oldest cell, for `in = out`. -/
theorem Ring.contents_pushOverwrite_atIn {r : Ring} {N : Nat} (b : Byte) (full : r.count = N) (h : r.Inv N)
    (c : r.Coherent N) :
    (r.pushOverwrite N .overwriteAtIn b).contents N = some b :: (r.contents N).tail := by
  have out := h.outLt
  rw [Ring.pushOverwrite_atIn b full, c.full out full]
  exact Ring.contents_replaced h (by omega) rfl rfl (Memory.read_write_same _ _ _)
    fun k => Memory.read_write_other _ _ k b

/-- Settles O20: with room it is a push; on a full ring, the two equations of R64 and what they leave the ring holding. -/
theorem overflowingPushKeepsCount : Obligations.OverflowingPushKeepsCount := by
  refine fun r N b => ⟨fun room policy => ?_, fun full policy => ?_, fun full h c =>
    ⟨Ring.contents_pushOverwrite_oldest b full h c, Ring.contents_pushOverwrite_atIn b full h c⟩⟩
  · exact Ring.pushOverwrite_room policy b room ▸ Ring.pushTry_isPushed b (Nat.ne_of_lt room)
  · have same := r.buf.read_write_same r.inIdx b
    have others := fun k => r.buf.read_write_other r.inIdx k b
    cases policy with
    | overwriteOldest => rw [Ring.pushOverwrite_oldest b full]; exact ⟨rfl, full, same, others, rfl⟩
    | overwriteAtIn => rw [Ring.pushOverwrite_atIn b full]; exact ⟨rfl, full, same, others, rfl⟩

/-! ## Receiving in order -/

/-- RX is coherent and holds the bytes `l`, oldest first, and no command waits. -/
structure State.Receiving (s : State) (l : List Byte) : Prop where
  idle : s.held = none
  inv : s.rx.Inv s.cfg.rxSize
  coherent : s.rx.Coherent s.cfg.rxSize
  contents : s.rx.contents s.cfg.rxSize = l.map some

theorem State.Receiving.count {s : State} {l : List Byte} (h : s.Receiving l) : s.rx.count = l.length := by
  simpa using congrArg List.length h.contents

/-- R33: a ring that meets its invariant holds bytes that have been written. -/
theorem Ring.Inv.exists_contents {r : Ring} {N : Nat} (h : r.Inv N) : ∃ l : List Byte, r.contents N = l.map some := by
  obtain ⟨l, run, -⟩ := h.peekRun (Nat.le_refl r.count)
  rw [Ring.peekRun_contents (Nat.le_refl _), List.take_of_length_le (Nat.le_of_eq (Ring.length_contents r N))] at run
  exact ⟨l, run.symm⟩

/-- R81: what RXC does to RX; it gives no response and holds nothing. -/
theorem exec_rxc_rx {b : Byte} {s t : State} (h : exec (.rxc b) s = .next t) :
    t.rx = s.rx.pushOverwrite s.cfg.rxSize s.cfg.rxOverflow b ∧ t.held = s.held := by
  obtain ⟨-, rfl⟩ | ⟨-, rfl⟩ := execRxc_next h <;> exact ⟨rfl, rfl⟩

/-- R81: RXC on a ring with room puts its byte behind those held. -/
theorem exec_rxc_receiving {b : Byte} {s t : State} {l : List Byte} (h : s.Receiving l)
    (room : s.rx.count < s.cfg.rxSize) (run : exec (.rxc b) s = .next t) : t.Receiving (l ++ [b]) := by
  have cfg : t.cfg = s.cfg := (exec_keepsBuild run).1
  obtain ⟨rx, held⟩ := exec_rxc_rx run
  rw [Ring.pushOverwrite_room _ b room] at rx
  refine ⟨held.trans h.idle, ?_, ?_, ?_⟩ <;> rw [rx, cfg]
  · exact h.inv.pushTry (.inl h.coherent) b
  · exact h.coherent.pushTry b
  · rw [Ring.contents_pushed (Ring.pushTry_isPushed b (Nat.ne_of_lt room)) h.coherent room, h.contents, List.map_append,
      List.map_singleton]

/-- F's commands, or P's events, one after another while no command waits. -/
theorem issueAll_cons {i : Instr} {is : List Instr} {s t : State} (idle : s.held = none) (run : exec i s = .next t) :
    issueAll (i :: is) s = issueAll is t := by
  rw [issueAll, idle, run]

/-- R81: RXCs that find room for all their bytes put them behind those held, in arrival order. -/
theorem issueAll_rxc {bs l : List Byte} {s t : State} (h : s.Receiving l)
    (room : s.rx.count + bs.length ≤ s.cfg.rxSize) (run : issueAll (bs.map .rxc) s = .next t) :
    t.Receiving (l ++ bs) ∧ t.responses = s.responses := by
  induction bs generalizing s l with
  | nil =>
    cases run
    exact ⟨(List.append_nil l).symm ▸ h, rfl⟩
  | cons b bs ih =>
    rw [List.length_cons] at room
    obtain ⟨u, first⟩ : ∃ u, exec (.rxc b) s = .next u := ⟨_, rfl⟩
    have hu := exec_rxc_receiving h (by omega) first
    rw [List.map_cons, issueAll_cons h.idle first] at run
    have left : u.rx.count + bs.length ≤ u.cfg.rxSize := by
      rw [hu.count, (exec_keepsBuild first).1, List.length_append, ← h.count, List.length_singleton]
      omega
    obtain ⟨ht, responses⟩ := ih hu left run
    exact ⟨List.append_cons l b bs ▸ ht, responses.trans (exec_event_responses rfl first)⟩

/-- R65, R70, R71: a receive on a non-empty RX pops the byte in the cell at `out` and answers it. -/
theorem State.receive_pops {s : State} {b : Byte} (pos : 0 < s.rx.count) (oldest : s.rx.buf.read s.rx.outIdx = some b) :
    ∃ r, s.rx.Popped s.cfg.rxSize r ∧ r.buf = s.rx.buf ∧ s.receive = .next ((s.setRx r).respond .ok [b]) := by
  obtain ⟨empty, -⟩ | ⟨c, r, -, cell, popped, cells, run⟩ | ⟨-, unwritten, -⟩ := s.receive_cases
  · exact absurd empty (Nat.ne_of_gt pos)
  · obtain rfl := Option.some.inj (cell.symm.trans oldest)
    exact ⟨r, popped, cells, run⟩
  · exact absurd (unwritten.symm.trans oldest) nofun

/-- R70: RECVB on a non-empty RX receives at once. -/
theorem exec_recvb_ready {s : State} (pos : 0 < s.rx.count) : exec .recvb s = s.receive :=
  State.holdUntil_ready _ (decide_eq_true pos)

/-- R70: RECVB takes the first of the bytes held and answers it. -/
theorem exec_recvb_receiving {s : State} {b : Byte} {l : List Byte} (h : s.Receiving (b :: l)) :
    ∃ t, exec .recvb s = .next t ∧ t.Receiving l ∧
      t.responses = s.responses ++ [{ status := .ok, data := [b] }] := by
  have pos : 0 < s.rx.count := by rw [h.count]; exact Nat.succ_pos _
  obtain ⟨c, oldest⟩ := h.inv.oldest pos
  obtain ⟨r, popped, cells, run⟩ := State.receive_pops pos oldest
  have held := h.contents
  rw [Ring.contents_popped popped h.inv.outLt, oldest, List.map_cons] at held
  obtain ⟨first, left⟩ := List.cons.inj held
  obtain rfl := Option.some.inj first
  exact ⟨_, (exec_recvb_ready pos).trans run,
    ⟨rfl, h.inv.popped popped cells, h.coherent.popped popped, left⟩, rfl⟩

/-- R62: RECVN of all the bytes held answers them, oldest first. -/
theorem issueAll_recvN {l : List Byte} {s : State} (h : s.Receiving l) :
    ∃ t, issueAll (recvN l.length) s = .next t ∧ t.Receiving [] ∧
      t.responses = s.responses ++ l.map fun b => { status := .ok, data := [b] } := by
  induction l generalizing s with
  | nil => exact ⟨s, rfl, h, (List.append_nil _).symm⟩
  | cons b l ih =>
    obtain ⟨u, first, hu, answer⟩ := exec_recvb_receiving h
    obtain ⟨t, run, ht, answers⟩ := ih hu
    refine ⟨t, (issueAll_cons h.idle first).trans run, ht, ?_⟩
    rw [answers, answer, List.map_cons, List.append_assoc, List.singleton_append]

/-- Settles O54: `issueAll_rxc`, then `issueAll_recvN`. -/
theorem receivedBytesComeOutInOrder : Obligations.ReceivedBytesComeOutInOrder := by
  intro bs s t h idle coherent room run
  obtain ⟨old, contents⟩ := h.rxInv.exists_contents
  obtain ⟨received, silent⟩ := issueAll_rxc ⟨idle, h.rxInv, coherent, contents⟩ room run
  obtain ⟨u, drained, empty, answers⟩ := issueAll_recvN received
  rw [List.length_append] at drained
  exact ⟨old, u, contents, drained, empty.count, empty.idle, silent ▸ answers⟩

/-! ## The transmit commands -/

/-- Settles O9: a ring with room is pushed; a full one makes SENDB wait. -/
theorem sendbPushesOrHolds : Obligations.SendbPushesOrHolds := by
  refine fun matchEnabled rest b s => ⟨?_, fun w op sub => ?_, fun room => ?_, fun full => ?_⟩
  · simpa [encode_sendb] using decode_command_encode (i := .sendb b) rfl rfl rfl matchEnabled rest
  · have listed : w.toNat / 4096 ∈ [0x1, 0x2, 0xB, 0xC, 0xD, 0xE] := op ▸ List.mem_cons_self
    exact decode_command_illegal.mp
      ((illegalCommandWordsAreTheListedOnes matchEnabled w []).mpr (.inr (.inl ⟨listed, sub⟩)))
  · exact ⟨_, Ring.pushTry_isPushed b (Nat.ne_of_lt room), State.holdUntil_ready _ (decide_eq_true room)⟩
  · exact exec_of_waiting (decide_eq_false (Nat.not_lt.mpr full))

/-- Settles O10: the one push attempt succeeds unless the ring is full. -/
theorem sendnbPushesOrReportsFull : Obligations.SendnbPushesOrReportsFull := by
  refine fun matchEnabled rest b s => ⟨?_, fun room => ?_, fun full => ?_⟩
  · simpa [encode_sendnb] using decode_command_encode (i := .sendnb b) rfl rfl rfl matchEnabled rest
  · exact ⟨_, Ring.pushTry_isPushed b room, if_pos ((Ring.pushTry_pushed b).mpr room)⟩
  · exact if_neg (Bool.not_eq_true _ ▸ (Ring.pushTry_fails b).mpr full)

/-- Settles O11: a drained ring is reset; else FLUSHTX waits. -/
theorem flushtxWaitsForDrainThenResets : Obligations.FlushtxWaitsForDrainThenResets := fun matchEnabled rest _ =>
  ⟨decode_command_encode (i := .flushtx) rfl rfl rfl matchEnabled rest,
    fun empty => State.holdUntil_ready _ (decide_eq_true empty),
    fun busy => exec_of_waiting (decide_eq_false busy)⟩

/-! ## The receive commands -/

/-- R65: a receive on an empty RX answers the sentinel. -/
theorem State.receive_empty {s : State} (empty : s.rx.count = 0) : s.receive = .next (s.respond .ok [0]) := by
  simp only [State.receive, Ring.pop_empty _ empty, State.setRx_same]

/-- Settles O12: RECVB receives on a non-empty ring, waits on an empty one, and once held is due on the first byte. -/
theorem recvbPopsOrHolds : Obligations.RecvbPopsOrHolds := by
  refine fun matchEnabled rest b s => ⟨decode_command_encode (i := .recvb) rfl rfl rfl matchEnabled rest,
    fun pos oldest => ?_, fun empty => exec_of_waiting (by simp [empty]),
    fun held pos => step_due (State.due_eq_some.mpr ⟨held, decide_eq_true pos⟩)⟩
  obtain ⟨r, popped, -, run⟩ := State.receive_pops pos oldest
  exact ⟨r, popped, (exec_recvb_ready pos).trans run⟩

/-- Settles O13: RECVNB is a receive, which on an empty ring answers the sentinel. -/
theorem recvnbPopsOrAnswersSentinel : Obligations.RecvnbPopsOrAnswersSentinel := by
  refine fun matchEnabled rest b s => ⟨decode_command_encode (i := .recvnb) rfl rfl rfl matchEnabled rest,
    fun pos oldest => ?_, State.receive_empty⟩
  obtain ⟨r, popped, -, run⟩ := State.receive_pops pos oldest
  exact ⟨r, popped, run⟩

/-- Settles O14: PEEKB peeks one byte on a non-empty ring and waits on an empty one. -/
theorem peekbReadsWithoutConsuming : Obligations.PeekbReadsWithoutConsuming := fun matchEnabled rest _ _ =>
  ⟨decode_command_encode (i := .peekb) rfl rfl rfl matchEnabled rest,
    fun pos oldest => (State.holdUntil_ready (i := .peekb) _ (decide_eq_true pos)).trans (State.peek_one oldest),
    fun empty => exec_of_waiting (by simp [empty])⟩

/-- Settles O15: PEEKNB peeks one byte on a non-empty ring and answers the sentinel on an empty one. -/
theorem peeknbReadsOrAnswersSentinel : Obligations.PeeknbReadsOrAnswersSentinel := fun matchEnabled rest _ _ =>
  ⟨decode_command_encode (i := .peeknb) rfl rfl rfl matchEnabled rest,
    fun pos oldest => (if_neg (Nat.ne_of_gt pos)).trans (State.peek_one oldest),
    fun empty => if_pos empty⟩

/-- R66, R74: a run of peeks reads the bytes that stand in the cells from `out` on. -/
theorem Ring.peekRun_of_cells {r : Ring} {N : Nat} {bs : List Byte}
    (cells : ∀ k, k < bs.length → r.buf.read ((r.outIdx + k) % N) = bs[k]?) :
    r.peekRun N 0 bs.length = .ok bs := by
  rw [Ring.peekRun_ok]
  refine List.ext_getElem (by simp) fun k lt _ => ?_
  rw [List.length_map] at lt
  simp [cells k lt, lt]

/-- Settles O16: PEEKN peeks `min n N` bytes as soon as the ring holds as many. -/
theorem peeknReadsTheOldestBytesOrHolds : Obligations.PeeknReadsTheOldestBytesOrHolds := by
  refine fun matchEnabled rest n bs s => ⟨fun le => ?_, fun len enough cells => ?_, fun few => ?_⟩
  · exact decode_command_encode (i := .peekn n) rfl (decide_eq_true le) rfl matchEnabled rest
  · have run := Ring.peekRun_of_cells cells
    rw [len] at run
    exact (State.holdUntil_ready (i := .peekn n) _ (decide_eq_true enough)).trans (State.peek_of_peekRun run)
  · exact exec_of_waiting (decide_eq_false (Nat.not_le.mpr few))

/-- Settles O17: FLUSHRX never waits, and resets the ring. -/
theorem flushrxResetsOnlyTheRxIndices : Obligations.FlushrxResetsOnlyTheRxIndices := fun matchEnabled rest _ =>
  ⟨decode_command_encode (i := .flushrx) rfl rfl rfl matchEnabled rest, rfl⟩

end Sys2Proof.Machine

/-!
PROOFS. The events of P (41_port_events.md R77-R84): their words on the event port, the gate they pass, and what RXC and TXR
do to the block.
-/
namespace Sys2Proof

/-! ## The words of the events -/

theorem encode_rxc (b : Byte) : encode (.rxc b) = [b, 0xF1] := wordBytes_ofNat_bytes 0xF1 b

theorem decode_event_rxc (matchEnabled : Bool) (b : Byte) : decode matchEnabled .event [b, 0xF1] = .unit (.rxc b) [] :=
  encode_rxc b ▸ decodeOfEncodeIsIdentity matchEnabled (.rxc b) [] rfl nofun

theorem decode_event_txr (matchEnabled : Bool) : decode matchEnabled .event (wordBytes 0xF200) = .unit .txr [] :=
  decodeOfEncodeIsIdentity matchEnabled .txr [] rfl nofun

end Sys2Proof

namespace Sys2Proof.Machine

/-! ## The gate -/

theorem State.due_eq_none {s : State} : s.due = none ↔ ∀ i, s.held = some i → s.ready i = false := by
  simp [Option.eq_none_iff_forall_ne_some, State.due_eq_some]

/-- R77: a unit of the event port runs when its enable is 1 and is refused when it is 0. -/
theorem step_event_unit {s : State} {w : Word} {ts : List Turn} {i : Instr} {rest : List Byte} (quiet : s.due = none)
    (turns : s.turns = .event w :: ts) (unit : decode s.cfg.matchEnabled .event (wordBytes w) = .unit i rest) :
    (eventEnabled s i = true → step s = exec i { s with turns := ts }) ∧
    (eventEnabled s i = false → step s = .refused (.eventNotEnabled w)) := by
  obtain ⟨_, _, same, enabled, run⟩ | ⟨_, _, same, disabled, refusal⟩ | ⟨noUnit, -⟩ := step_event_cases quiet turns
  · obtain ⟨rfl, rfl⟩ := Decoded.unit.inj (same.symm.trans unit)
    exact ⟨fun _ => run, fun disabled => absurd (enabled.symm.trans disabled) nofun⟩
  · obtain ⟨rfl, rfl⟩ := Decoded.unit.inj (same.symm.trans unit)
    exact ⟨fun enabled => absurd (enabled.symm.trans disabled) nofun, fun _ => refusal⟩
  · exact absurd unit (noUnit i rest)

/-- Settles O6: the words of RXC and TXR decode to them, and `step_event_unit` reads the enable of each. -/
theorem eventsAreGatedByTheirEnables : Obligations.EventsAreGatedByTheirEnables := by
  intro s ts waiting
  have quiet : s.due = none := State.due_eq_none.mpr waiting
  refine ⟨fun b turns => ?_, fun turns => step_event_unit quiet turns (decode_event_txr _)⟩
  exact step_event_unit quiet turns ((wordBytes_append 0xF1#8 b).symm ▸ decode_event_rxc _ b)

/-! ## RXC -/

/-- R83: an entry of length 0 fires and keeps its progress. -/
theorem entryStep_of_length_zero {e : Entry} (b : Byte) (zero : e.pat.length = 0) : entryStep e b = (e.prog, true) :=
  if_pos zero

theorem entryStep_of_length_pos {e : Entry} (b : Byte) (pos : 0 < e.pat.length) : entryStep e b = advanceEntry e b :=
  if_neg (Nat.ne_of_gt pos)

theorem entryStep_fires {e : Entry} {b : Byte} :
    (entryStep e b).2 = true ↔ e.pat.length = 0 ∨ (advanceEntry e b).2 = true := by
  obtain zero | pos := Nat.eq_zero_or_pos e.pat.length
  · simp [entryStep_of_length_zero b zero, zero]
  · simp [entryStep_of_length_pos b pos, Nat.ne_of_gt pos]

theorem firesAt_iff {table : List Entry} {b : Byte} {k : Nat} :
    firesAt table b k = true ↔ ∃ e, table[k]? = some e ∧ (entryStep e b).2 = true := by
  unfold firesAt
  cases table[k]? <;> simp

theorem exec_rxc_matchOn {s : State} (on : s.cfg.matchEnabled = true) (b : Byte) :
    exec (.rxc b) s = .next ((s.advanceAll b).setRx (s.rx.pushOverwrite s.cfg.rxSize s.cfg.rxOverflow b)) := by
  rw [exec, execRxc, if_pos on]

theorem exec_rxc_matchOff {s : State} (off : s.cfg.matchEnabled = false) (b : Byte) :
    exec (.rxc b) s = .next (s.setRx (s.rx.pushOverwrite s.cfg.rxSize s.cfg.rxOverflow b)) := by
  rw [exec, execRxc, if_neg (Bool.not_eq_true _ ▸ off)]

/-- Settles O19: with the match engine the table and TRIG are those of `advance_all`, read entry by entry and bit by bit. -/
theorem rxcAdvancesEveryEntryAndPushes : Obligations.RxcAdvancesEveryEntryAndPushes := by
  refine fun matchEnabled b s => ⟨decode_event_rxc matchEnabled b, ?_⟩
  cases built : s.cfg.matchEnabled with
  | false => exact ⟨s.table, s.trig, exec_rxc_matchOff built b, fun _ => ⟨rfl, rfl⟩, nofun⟩
  | true =>
    refine ⟨advanceTable s.table b, raiseTrig s.trig (firesAt s.table b), exec_rxc_matchOn built b, nofun,
      fun _ => ⟨length_advanceTable s.table b, fun k e entry zero => ?_, fun k e entry pos => ?_, fun k lt => ?_⟩⟩
    · rw [getElem?_advanceTable, entry, Option.map_some, entryStep_of_length_zero b zero]
    · rw [getElem?_advanceTable, entry, Option.map_some, entryStep_of_length_pos b pos]
    · simp only [getLsbD_raiseTrig, lt, decide_true, Bool.true_and, Bool.or_eq_true, firesAt_iff, entryStep_fires]

/-! ## TXR -/

/-- R80: TXR on a non-empty TX pops the byte in the cell at `out` and writes it to the port. -/
theorem exec_txr_pops {s : State} {b : Byte} (pos : 0 < s.tx.count) (oldest : s.tx.buf.read s.tx.outIdx = some b) :
    ∃ r, s.tx.Popped s.cfg.txSize r ∧
      exec .txr s = .next (((s.setTx r).callPort [.writeData b]).setTxie (txieAfterTxr s.txie r.count)) := by
  have busy : s.tx.count ≠ 0 := Nat.ne_of_gt pos
  obtain ⟨r, pop, popped, -⟩ := Ring.pop_popped s.cfg.txSize busy oldest
  exact ⟨r, popped, by rw [exec, execTxr, if_neg busy, pop]⟩

/-- R20: a pop that leaves TX empty clears TXIE. -/
theorem txieAfterTxr_popped {r r' : Ring} {N : Nat} (popped : r.Popped N r') (txie : Bool) :
    txieAfterTxr txie r'.count = if r.count = 1 then false else txie := by
  have last : r'.count = 0 ↔ r.count = 1 := by have := popped.count; omega
  simp only [txieAfterTxr, last]

/-- Settles O18: `exec_txr_pops`, with TXIE as the popped ring leaves it. -/
theorem txrSendsTheOldestByte : Obligations.TxrSendsTheOldestByte := by
  refine fun matchEnabled b s => ⟨decode_event_txr matchEnabled, fun empty => if_pos empty, fun pos oldest => ?_⟩
  obtain ⟨r, popped, run⟩ := exec_txr_pops pos oldest
  exact ⟨r, popped, txieAfterTxr_popped popped s.txie ▸ run⟩

end Sys2Proof.Machine

/-!
PROOFS. The match engine (42_match.md R82-R92): the automaton of one entry and what it has seen, the search for an entry, and
what each match command answers.
-/
namespace Sys2Proof

/-! ## The words of the match commands -/

/-- R48, R58: with the match engine the command port reads back every well-formed command from its encoding. -/
theorem decode_command_encode_matchOn {i : Instr} (command : i.port = .command) (wf : i.wellFormed = true)
    (rest : List Byte) : decode true .command (encode i ++ rest) = .unit i rest :=
  command ▸ decodeOfEncodeIsIdentity true i rest wf fun _ => rfl

/-- R49, R61: the bytes of a word given as the sum of its high byte and a length. -/
theorem wordBytes_ofNat_add (hi : Byte) {n : Nat} (le : n ≤ 255) :
    wordBytes (BitVec.ofNat 16 (hi.toNat * 256 + n)) = [BitVec.ofNat 8 n, hi] := by
  have low : (BitVec.ofNat 8 n).toNat = n := Nat.mod_eq_of_lt (Nat.lt_succ_of_le le)
  rw [← wordBytes_ofNat_bytes, low]

theorem encode_mreg (h c : Word) {p : List Byte} (le : p.length ≤ 255) :
    encode (.mreg h c p) = [BitVec.ofNat 8 p.length, 0xB0] ++ (wordBytes h ++ wordBytes c ++ p) :=
  congrArg (· ++ _) (wordBytes_ofNat_add 0xB0 le)

theorem encode_mdereg {p : List Byte} (le : p.length ≤ 255) :
    encode (.mdereg p) = [BitVec.ofNat 8 p.length, 0xC0] ++ p := congrArg (· ++ _) (wordBytes_ofNat_add 0xC0 le)

theorem encode_mtrig (i : Byte) : encode (.mtrig i.toNat) = [i, 0xD0] := wordBytes_ofNat_bytes 0xD0 i

theorem encode_mclr (i : Byte) : encode (.mclr i.toNat) = [i, 0xE0] := wordBytes_ofNat_bytes 0xE0 i

end Sys2Proof

namespace Sys2Proof.Machine

/-! ## The automaton (R82) -/

theorem advanceEntry_fires {e : Entry} {b : Byte} (hit : e.pat[e.prog]? = some b) (last : e.prog + 1 = e.pat.length) :
    advanceEntry e b = (0, true) := by
  rw [advanceEntry, if_pos hit, if_pos last]

theorem advanceEntry_moves {e : Entry} {b : Byte} (hit : e.pat[e.prog]? = some b) (more : e.prog + 1 ≠ e.pat.length) :
    advanceEntry e b = (e.prog + 1, false) := by
  rw [advanceEntry, if_pos hit, if_neg more]

theorem advanceEntry_restarts {e : Entry} {b : Byte} (miss : e.pat[e.prog]? ≠ some b)
    (first : 0 < e.prog ∧ e.pat[0]? = some b) : advanceEntry e b = (1, false) := by
  rw [advanceEntry, if_neg miss, if_pos first]

theorem advanceEntry_resets {e : Entry} {b : Byte} (miss : e.pat[e.prog]? ≠ some b)
    (other : ¬ (0 < e.prog ∧ e.pat[0]? = some b)) : advanceEntry e b = (0, false) := by
  rw [advanceEntry, if_neg miss, if_neg other]

/-- Settles O21: the four branches of the automaton's step. -/
theorem automatonStepIsTheDocumentedOne : Obligations.AutomatonStepIsTheDocumentedOne := by
  intro e b _ _
  refine ⟨advanceEntry_fires, fun hit more => advanceEntry_moves hit (Nat.ne_of_lt more),
    fun miss pos first => advanceEntry_restarts miss ⟨pos, first⟩, fun miss other => advanceEntry_resets miss ?_⟩
  rintro ⟨pos, first⟩
  obtain zero | notFirst := other
  · omega
  · exact notFirst first

/-! ## What an entry has seen (R92) -/

/-- The entry is below full progress, and the bytes `seen` end with the pattern bytes its progress counts. -/
structure Entry.Follows (e : Entry) (seen : List Byte) : Prop where
  progLt : e.prog < e.pat.length
  suffix : e.pat.take e.prog <:+ seen

/-- The pattern bytes up to a matched one are seen last if those before it were. -/
theorem take_suffix_of_hit {pat seen : List Byte} {b : Byte} {k : Nat} (hit : pat[k]? = some b)
    (before : pat.take k <:+ seen) : pat.take (k + 1) <:+ seen ++ [b] := by
  rw [List.take_add_one, hit]
  exact (List.suffix_append_inj_of_length_eq rfl).mpr ⟨before, rfl⟩

/-- R82, R92: one byte keeps an entry's account of what it has seen, and it fires only where its whole pattern was. -/
theorem Entry.Follows.step {e : Entry} {seen : List Byte} (h : e.Follows seen) (b : Byte) :
    Entry.Follows { e with prog := (entryStep e b).1 } (seen ++ [b]) ∧
    ((entryStep e b).2 = true → e.pat <:+ seen ++ [b]) := by
  have lt := h.progLt
  have pos : 0 < e.pat.length := by omega
  rw [entryStep_of_length_pos b pos]
  by_cases hit : e.pat[e.prog]? = some b
  · have grown := take_suffix_of_hit hit h.suffix
    by_cases last : e.prog + 1 = e.pat.length
    · rw [last, List.take_length] at grown
      rw [advanceEntry_fires hit last]
      exact ⟨⟨pos, List.nil_suffix⟩, fun _ => grown⟩
    · rw [advanceEntry_moves hit last]
      exact ⟨⟨by dsimp only; omega, grown⟩, nofun⟩
  · by_cases first : 0 < e.prog ∧ e.pat[0]? = some b
    · rw [advanceEntry_restarts hit first]
      exact ⟨⟨by dsimp only; omega, take_suffix_of_hit first.2 List.nil_suffix⟩, nofun⟩
    · rw [advanceEntry_resets hit first]
      exact ⟨⟨pos, List.nil_suffix⟩, nofun⟩

theorem feedEntry_pat (bs : List Byte) (e : Entry) : (feedEntry bs e).1.pat = e.pat := by
  induction bs, e using feedEntry.induct with
  | case1 e => rfl
  | case2 b e => rfl
  | case3 b bs e more ih => rw [feedEntry, ih]; exact more

/-- R92: the same of bytes one after another, the last of which decides whether the entry fired. -/
theorem Entry.Follows.feed {e : Entry} {seen : List Byte} (h : e.Follows seen) (bs : List Byte) :
    (feedEntry bs e).1.Follows (seen ++ bs) ∧ ((feedEntry bs e).2 = true → e.pat <:+ seen ++ bs) := by
  induction bs, e using feedEntry.induct generalizing seen with
  | case1 e => exact ⟨(List.append_nil seen).symm ▸ h, nofun⟩
  | case2 b e => exact h.step b
  | case3 b bs e more ih =>
    have rest := ih (h.step b).1
    rw [List.append_assoc] at rest
    rwa [feedEntry]
    exact more

/-- Settles O22: an entry at progress 0 has seen nothing, and every byte keeps `Entry.Follows`. -/
theorem triggersMarkRealOccurrences : Obligations.TriggersMarkRealOccurrences := by
  intro e bs pos zero
  have start : e.Follows [] := ⟨by omega, by rw [zero]; exact List.nil_suffix⟩
  obtain ⟨⟨lt, before, ends⟩, fired⟩ := start.feed bs
  rw [feedEntry_pat] at lt ends
  refine ⟨lt, ⟨before, ends.symm⟩, fun last => ?_⟩
  obtain ⟨before, occurs⟩ := fired last
  exact ⟨before, occurs.symm⟩

/-! ## The search for an entry (R86) -/

/-- R86: a pattern is the argument if it has its length and its bytes. -/
theorem pattern_eq_iff {p q : List Byte} : p = q ↔ p.length = q.length ∧ ∀ j, j < q.length → p[j]? = q[j]? := by
  refine ⟨fun same => same ▸ ⟨rfl, fun _ _ => rfl⟩, fun ⟨len, bytes⟩ => List.ext_getElem? fun j => ?_⟩
  obtain lt | ge := Nat.lt_or_ge j q.length
  · exact bytes j lt
  · rw [List.getElem?_eq_none ge, List.getElem?_eq_none (len ▸ ge)]

theorem findEntry_eq_some {t : List Entry} {q : List Byte} {k : Nat} : findEntry t q = some k ↔
    (∃ e, t[k]? = some e ∧ e.pat = q) ∧ ∀ (j : Nat) (e : Entry), j < k → t[j]? = some e → e.pat ≠ q := by
  simp only [findEntry, List.findIdx?_eq_some_iff_getElem, List.getElem?_eq_some_iff, decide_eq_true_eq]
  constructor
  · rintro ⟨lt, found, least⟩
    refine ⟨⟨t[k], ⟨lt, rfl⟩, found⟩, ?_⟩
    rintro j e jk ⟨-, rfl⟩
    exact least j jk
  · rintro ⟨⟨e, ⟨lt, rfl⟩, found⟩, least⟩
    exact ⟨lt, found, fun j jk => least j _ jk ⟨Nat.lt_trans jk lt, rfl⟩⟩

theorem findEntry_eq_none {t : List Entry} {q : List Byte} : findEntry t q = none ↔ ∀ e ∈ t, e.pat ≠ q := by
  simp only [findEntry, List.findIdx?_eq_none_iff, decide_eq_false_iff_not, ne_eq]

/-- Settles O25: the least position whose pattern is the argument, equality read byte by byte. -/
theorem findEntryIsTheFirstExactMatch : Obligations.FindEntryIsTheFirstExactMatch := by
  intro t q k
  simp only [← pattern_eq_iff]
  exact ⟨findEntry_eq_some, findEntry_eq_none⟩

/-! ## The match commands -/

/-- R8, R59: without the match engine a match command is illegal. -/
theorem exec_matchOff {s : State} {i : Instr} (uses : i.usesMatch = true) (off : s.cfg.matchEnabled = false) :
    exec i s = .next (s.respond .illegal []) := by
  cases i with
  | mreg _ _ _ | mdereg _ | mtrig _ | mclr _ => exact if_pos off
  | _ => cases uses

section
variable {s : State} (on : s.cfg.matchEnabled = true)
include on

/-- R98: MREG reports an absent handler first. -/
theorem exec_mreg_noHandler (c : Word) (p : List Byte) : exec (.mreg 0 c p) s = .next (s.respond .noHandler []) := by
  rw [exec, execMreg, if_neg (ne_false_of_eq_true on), if_pos rfl]

theorem exec_mreg_full {h : Word} (c : Word) (p : List Byte) (handler : h ≠ 0) (full : s.nEnt = s.cfg.maxPatterns) :
    exec (.mreg h c p) s = .next (s.respond .tableFull []) := by
  rw [exec, execMreg, if_neg (ne_false_of_eq_true on), if_neg handler, if_pos full]

/-- R85: MREG with a handler and room. -/
theorem exec_mreg_room {h : Word} (c : Word) (p : List Byte) (handler : h ≠ 0) (room : s.nEnt ≠ s.cfg.maxPatterns) :
    exec (.mreg h c p) s = .next ((s.setMatch
      (s.table ++ [{ pat := p.take s.cfg.maxSeqLen, prog := 0, handler := h, ctx := c }])
      (clearTrig s.trig s.nEnt)).respond .ok []) := by
  rw [exec, execMreg, if_neg (ne_false_of_eq_true on), if_neg handler, if_neg room, storedPattern]

/-- R87: MDEREG of a registered pattern. -/
theorem exec_mdereg_found {p : List Byte} {k : Nat} (found : findEntry s.table (p.take s.cfg.maxSeqLen) = some k) :
    exec (.mdereg p) s = .next ((s.setMatch (s.table.eraseIdx k)
      (compactTrig s.cfg.trigCompaction k s.nEnt s.trig)).respond .ok []) := by
  rw [exec, execMdereg, if_neg (ne_false_of_eq_true on), storedPattern, found]

theorem exec_mdereg_absent {p : List Byte} (absent : findEntry s.table (p.take s.cfg.maxSeqLen) = none) :
    exec (.mdereg p) s = .next (s.respond .ok []) := by
  rw [exec, execMdereg, if_neg (ne_false_of_eq_true on), storedPattern, absent]

/-- R89: MTRIG of an entry. -/
theorem exec_mtrig_entry {i : Nat} {e : Entry} (entry : s.table[i]? = some e) :
    exec (.mtrig i) s =
      .next (s.respond .ok ([1, bitByte (s.trig.getLsbD i)] ++ wordBytes e.handler ++ wordBytes e.ctx)) := by
  rw [exec, execMtrig, if_neg (ne_false_of_eq_true on), entry]

/-- R90: MCLR below MAX_PATTERNS. -/
theorem exec_mclr_below {i : Nat} (below : i < s.cfg.maxPatterns) :
    exec (.mclr i) s = .next ((s.setMatch s.table (clearTrig s.trig i)).respond .ok []) := by
  rw [exec, execMclr, if_neg (ne_false_of_eq_true on), if_pos below]

theorem exec_mclr_above {i : Nat} (above : s.cfg.maxPatterns ≤ i) : exec (.mclr i) s = .next (s.respond .ok []) := by
  rw [exec, execMclr, if_neg (ne_false_of_eq_true on), if_neg (Nat.not_lt.mpr above)]

end

/-- Settles O23: the encoding is read back, and MREG answers as its handler and the room in the table say. -/
theorem mregAppendsAnEntryOrReports : Obligations.MregAppendsAnEntryOrReports := by
  refine fun rest h0 h1 c0 c1 p h c s => ⟨fun le => ?_, fun on handler room => ?_,
    fun on handler full => exec_mreg_full on c p handler full, fun on => exec_mreg_noHandler on c p, exec_matchOff rfl⟩
  · have unit := decode_command_encode_matchOn (i := .mreg (h1 ++ h0) (c1 ++ c0) p) rfl (decide_eq_true le) rest
    simpa [encode_mreg _ _ le] using unit
  · exact ⟨_, getLsbD_clearTrig s.trig s.nEnt, exec_mreg_room on c p handler room⟩

/-- R88: every bit after a shift. A bit at or above 32 takes the value of the one above it too: both are 0. -/
theorem getLsbD_compactTrig_shifted (k n j : Nat) (t : BitVec 32) :
    (compactTrig .shiftWithEntries k n t).getLsbD j =
      if j < k then t.getLsbD j else if j + 1 < n then t.getLsbD (j + 1)
      else if j + 1 = n then false else t.getLsbD j := by
  have next : (decide (j < 32) && t.getLsbD (j + 1)) = t.getLsbD (j + 1) := by
    obtain lt | ge := Nat.lt_or_ge j 32
    · simp [lt]
    · simp [BitVec.getLsbD_of_ge t (j + 1) (Nat.le_succ_of_le ge)]
  rw [getLsbD_compactTrig_shift, next]

/-- Settles O26: MDEREG erases the position that `find_entry` answers, and compacts TRIG at it. -/
theorem mderegRemovesTheFirstMatch : Obligations.MderegRemovesTheFirstMatch := by
  refine fun rest p s k => ⟨fun le => ?_, fun on found => ?_, fun on absent => exec_mdereg_absent on absent,
    exec_matchOff rfl⟩
  · have unit := decode_command_encode_matchOn (i := .mdereg p) rfl (decide_eq_true le) rest
    simpa [encode_mdereg le] using unit
  · exact ⟨_, _, exec_mdereg_found on found, eraseIdx_length_succ (findEntry_lt found),
      fun _ => List.getElem?_eraseIdx, fun stay => stay ▸ compactTrig_stay k s.nEnt s.trig,
      fun shift j => shift ▸ getLsbD_compactTrig_shifted k s.nEnt j s.trig⟩

/-- Settles O27: MTRIG reads the entry and its bit, or answers zeros. -/
theorem mtrigReportsTheDispatchTarget : Obligations.MtrigReportsTheDispatchTarget := by
  refine fun rest imm i s => ⟨?_, fun on _ entry => exec_mtrig_entry on entry, exec_mtrig_above, exec_matchOff rfl⟩
  have wf : (Instr.mtrig imm.toNat).wellFormed = true := decide_eq_true (Nat.le_of_lt_succ imm.isLt)
  simpa [encode_mtrig] using decode_command_encode_matchOn rfl wf rest

/-- Settles O28: MCLR clears its bit below MAX_PATTERNS and only answers above. -/
theorem mclrClearsOneTriggerBit : Obligations.MclrClearsOneTriggerBit := by
  refine fun rest imm i s => ⟨?_, fun on => ?_, exec_matchOff rfl⟩
  · have wf : (Instr.mclr imm.toNat).wellFormed = true := decide_eq_true (Nat.le_of_lt_succ imm.isLt)
    simpa [encode_mclr] using decode_command_encode_matchOn rfl wf rest
  · obtain below | above := Nat.lt_or_ge i s.cfg.maxPatterns
    · exact ⟨_, exec_mclr_below on below, fun _ => getLsbD_clearTrig s.trig i, fun above => by omega⟩
    · exact ⟨_, exec_mclr_above on above, fun below => by omega, fun _ => rfl⟩

end Sys2Proof.Machine

/-!
PROOFS. SWEEP with handlers that issue no command and no event between its moves (42_match.md R93): what each move of F comes
to, and the loop as an induction on the positions tested.
-/
namespace Sys2Proof.Machine

/-! ## One move -/

/-- The block on F's turn, with nothing to come after the unit that F presents. -/
def State.onLastUnit (s : State) : State := { s with turns := [], cmdIn := [] }

/-- R48: F's move with no command held runs the command it presents; what F and P have yet to present otherwise stays. -/
theorem State.takeTurn_encode {s t : State} {i : Instr} (idle : s.held = none) (on : s.cfg.matchEnabled = true)
    (command : i.port = .command) (wf : i.wellFormed = true)
    (run : exec i s.onLastUnit = .next t) :
    s.takeTurn .foreground (encode i) = .next ({ t with turns := s.turns, cmdIn := s.cmdIn }, t.cmdIn) := by
  have unit := decode_command_encode_matchOn command wf []
  rw [List.append_nil] at unit
  exact State.takeTurn_unit idle (on.symm ▸ unit) run

/-- F's move on a block with no command held is a move in the loop. -/
theorem Sweep.turn_idle {x : Sweep} (handlers : Handlers) (idle : x.block.held = none) :
    x.turn handlers .foreground = Sweep.advance handlers x := by
  simp only [Sweep.turn, State.settle_quiet (State.due_of_idle idle), Sweep.andThen]

/-- Arriving at a point that calls no handler. -/
theorem Sweep.goTo_of_noCall {x : Sweep} {p : SweepPoint} (noCall : p.calling = []) :
    x.goTo p = { x with point := p } := by
  rw [Sweep.goTo, noCall, List.append_nil]

/-- R89, R93: what F reads in the answer of MTRIG about an entry. -/
theorem SweepPoint.afterTest_entry (i start : Nat) (h c : Word) (bit : Bool) :
    SweepPoint.afterTest i start ([1, bitByte bit] ++ wordBytes h ++ wordBytes c) =
      if bit then .call i h c start else .test (i + 1) := by
  cases bit <;> simp [SweepPoint.afterTest, bitByte, wordBytes]

section
variable {b : State} {i : Nat} (calls : List (Word × Word)) (idle : b.held = none)
include idle

/-- R93: a quiet handler returns on F's next move. -/
theorem Sweep.turn_call_quiet (h c : Word) (start : Nat) :
    Sweep.turn quietHandlers .foreground ⟨b, .call i h c start, [], calls⟩ = .next ⟨b, .clear i, [], calls⟩ := by
  rw [Sweep.turn_idle _ idle, Sweep.advance]
  simp only [idle, quietHandlers]
  rw [Sweep.goTo_of_noCall rfl]

variable (handlers : Handlers) (on : b.cfg.matchEnabled = true)
include on

/-- R93: after a test of position `i`, F stands where the answer of MTRIG sends it. -/
theorem Sweep.turn_test {data : List Byte} (le : i ≤ 255)
    (run : exec (.mtrig i) b.onLastUnit = .next (b.onLastUnit.respond .ok data)) :
    Sweep.turn handlers .foreground ⟨b, .test i, [], calls⟩ =
      .next (Sweep.goTo ⟨b.respond .ok data, .test i, [], calls⟩
        (SweepPoint.afterTest i (b.respond .ok data).responses.length data)) := by
  have moved : b.takeTurn .foreground (encode (.mtrig i)) = .next (b.respond .ok data, []) :=
    State.takeTurn_encode (i := .mtrig i) idle on rfl (decide_eq_true le) run
  rw [Sweep.turn_idle _ idle, Sweep.advance]
  simp only [idle, Sweep.takeTurn, moved, Sweep.andThen, State.respond_lastData]

/-- R89, R93: a test of an entry sends F to its handler or to the next position. -/
theorem Sweep.turn_test_entry {e : Entry} (le : i ≤ 255) (entry : b.table[i]? = some e) :
    ∃ data start, Sweep.turn handlers .foreground ⟨b, .test i, [], calls⟩ =
      .next (Sweep.goTo ⟨b.respond .ok data, .test i, [], calls⟩
        (if b.trig.getLsbD i then .call i e.handler e.ctx start else .test (i + 1))) := by
  have moved := Sweep.turn_test calls idle handlers on le (exec_mtrig_entry (s := b.onLastUnit) on entry)
  rw [SweepPoint.afterTest_entry] at moved
  exact ⟨_, _, moved⟩

/-- R93: a triggered entry is called. -/
theorem Sweep.turn_test_triggered {e : Entry} (le : i ≤ 255) (entry : b.table[i]? = some e)
    (triggered : b.trig.getLsbD i = true) :
    ∃ data start, Sweep.turn handlers .foreground ⟨b, .test i, [], calls⟩ =
      .next ⟨b.respond .ok data, .call i e.handler e.ctx start, [], calls ++ [(e.handler, e.ctx)]⟩ := by
  obtain ⟨data, start, moved⟩ := Sweep.turn_test_entry calls idle handlers on le entry
  rw [if_pos triggered] at moved
  exact ⟨data, start, moved⟩

/-- R93: an entry whose bit is 0 is passed over. -/
theorem Sweep.turn_test_quiet {e : Entry} (le : i ≤ 255) (entry : b.table[i]? = some e)
    (quiet : b.trig.getLsbD i = false) :
    ∃ data, Sweep.turn handlers .foreground ⟨b, .test i, [], calls⟩ =
      .next ⟨b.respond .ok data, .test (i + 1), [], calls⟩ := by
  obtain ⟨data, _, moved⟩ := Sweep.turn_test_entry calls idle handlers on le entry
  rw [if_neg (ne_true_of_eq_false quiet), Sweep.goTo_of_noCall rfl] at moved
  exact ⟨data, moved⟩

/-- R93: the loop ends at the first position above the table. -/
theorem Sweep.turn_test_above (le : i ≤ 255) (above : b.nEnt ≤ i) :
    ∃ data, Sweep.turn handlers .foreground ⟨b, .test i, [], calls⟩ = .next ⟨b.respond .ok data, .done, [], calls⟩ := by
  have moved := Sweep.turn_test calls idle handlers on le (exec_mtrig_above (s := b.onLastUnit) on above)
  rw [Sweep.goTo_of_noCall rfl] at moved
  exact ⟨_, moved⟩

/-- R93: after the handler F clears the bit and goes on to the next position. -/
theorem Sweep.turn_clear (le : i ≤ 255) (below : i < b.cfg.maxPatterns) :
    Sweep.turn handlers .foreground ⟨b, .clear i, [], calls⟩ =
      .next ⟨(b.setMatch b.table (clearTrig b.trig i)).respond .ok [], .test (i + 1), [], calls⟩ := by
  have moved : b.takeTurn .foreground (encode (.mclr i)) =
      .next ((b.setMatch b.table (clearTrig b.trig i)).respond .ok [], []) :=
    State.takeTurn_encode (i := .mclr i) idle on rfl (decide_eq_true le)
      (exec_mclr_below (s := b.onLastUnit) on below)
  rw [Sweep.turn_idle _ idle, Sweep.advance]
  simp only [idle, Sweep.takeTurn, moved, Sweep.andThen]
  rw [Sweep.goTo_of_noCall rfl]

end

/-! ## Moves in a row -/

/-- With quiet handlers and no event, `n` moves of F take the sweep `x` to `y`. -/
def Sweep.Moves (n : Nat) (x y : Sweep) : Prop :=
  Sweep.run quietHandlers (List.replicate n .foreground) x = .next y

theorem Sweep.Moves.refl (x : Sweep) : Sweep.Moves 0 x x := rfl

theorem Sweep.Moves.cons {x y z : Sweep} {n : Nat} (first : x.turn quietHandlers .foreground = .next y)
    (rest : Sweep.Moves n y z) : Sweep.Moves (n + 1) x z := by
  rw [Sweep.Moves, List.replicate_succ, Sweep.run, first]
  exact rest

theorem Sweep.Moves.one {x y : Sweep} (move : x.turn quietHandlers .foreground = .next y) : Sweep.Moves 1 x y :=
  .cons move (.refl y)

theorem Sweep.Moves.trans {x y z : Sweep} {m n : Nat} (first : Sweep.Moves m x y) (rest : Sweep.Moves n y z) :
    Sweep.Moves (m + n) x z := by
  induction m generalizing x with
  | zero =>
    obtain rfl : x = y := Host.Outcome.next.inj first
    rwa [Nat.zero_add]
  | succ m ih =>
    rw [Sweep.Moves, List.replicate_succ, Sweep.run] at first
    rw [Nat.succ_add]
    cases move : x.turn quietHandlers .foreground with
    | next w => rw [move] at first; exact .cons move (ih first)
    | fault f => rw [move] at first; cases first
    | refused r => rw [move] at first; cases first

/-! ## The loop -/

/-- R7, R22, R52: every position of the table, and the first above it, fits the operand of MTRIG and MCLR. -/
theorem State.Inv.nEnt_le {s : State} (h : s.Inv) : s.nEnt ≤ 255 := by
  obtain ⟨-, -, -, -, -, -, -, patterns⟩ := of_decide_eq_true h.cfgLegal
  exact Nat.le_trans h.tableLe (Nat.le_trans patterns (by decide))

/-- The handlers and contexts of the entries whose trigger bit is 1, in ascending position. -/
def dispatched (table : List Entry) (trig : BitVec 32) : List (Word × Word) :=
  (table.zipIdx.filter fun p => trig.getLsbD p.2).map fun p => (p.1.handler, p.1.ctx)

/-- One more entry is dispatched if its bit is 1. -/
theorem dispatched_concat (table : List Entry) (e : Entry) (trig : BitVec 32) :
    dispatched (table ++ [e]) trig =
      dispatched table trig ++ if trig.getLsbD table.length then [(e.handler, e.ctx)] else [] := by
  rw [dispatched, List.zipIdx_append, List.filter_append, List.map_append, Nat.zero_add]
  cases bit : trig.getLsbD table.length <;> simp [dispatched, bit]

/-- R93: the block and the calls when a sweep begun on `s` is about to test position `i`. -/
structure SweptBelow (s : State) (i : Nat) (b : State) (calls : List (Word × Word)) : Prop where
  idle : b.held = none
  cfg : b.cfg = s.cfg
  table : b.table = s.table
  trig : ∀ k, b.trig.getLsbD k = (s.trig.getLsbD k && decide (i ≤ k))
  calls : calls = dispatched (s.table.take i) s.trig

/-- A sweep about to begin has dispatched nothing. -/
theorem SweptBelow.start {s : State} (idle : s.held = none) : SweptBelow s 0 s [] where
  idle := idle
  cfg := rfl
  table := rfl
  trig k := by simp
  calls := rfl

section
variable {s b : State} {i : Nat} {calls : List (Word × Word)} {e : Entry}

/-- The calls made once the entry at `i` is dealt with. -/
theorem dispatched_take_succ (entry : s.table[i]? = some e) :
    dispatched (s.table.take (i + 1)) s.trig =
      dispatched (s.table.take i) s.trig ++ if s.trig.getLsbD i then [(e.handler, e.ctx)] else [] := by
  have lt : i < s.table.length := (List.getElem?_eq_some_iff.mp entry).1
  rw [List.take_add_one, entry, Option.toList_some, dispatched_concat, List.length_take_of_le (Nat.le_of_lt lt)]

/-- Passing over an entry whose bit is 0. -/
theorem SweptBelow.pass (h : SweptBelow s i b calls) (entry : s.table[i]? = some e) (quiet : s.trig.getLsbD i = false)
    (data : List Byte) : SweptBelow s (i + 1) (b.respond .ok data) calls where
  idle := rfl
  cfg := h.cfg
  table := h.table
  trig k := by
    rw [State.respond_trig, h.trig k]
    obtain rfl | ne := Decidable.em (k = i)
    · simp [quiet]
    · have same : i ≤ k ↔ i + 1 ≤ k := by omega
      simp only [same]
  calls := by rw [dispatched_take_succ entry, quiet, ← h.calls]; exact (List.append_nil calls).symm

/-- Dispatching a triggered entry: the call is made and the bit cleared. -/
theorem SweptBelow.dispatch (h : SweptBelow s i b calls) (entry : s.table[i]? = some e)
    (triggered : s.trig.getLsbD i = true) (data : List Byte) :
    SweptBelow s (i + 1) (((b.respond .ok data).setMatch b.table (clearTrig b.trig i)).respond .ok [])
      (calls ++ [(e.handler, e.ctx)]) where
  idle := rfl
  cfg := h.cfg
  table := h.table
  trig k := by
    have next : i + 1 ≤ k ↔ i ≤ k ∧ k ≠ i := by omega
    rw [State.respond_trig, State.setMatch_trig, getLsbD_clearTrig, h.trig k, Bool.and_assoc, ← Bool.decide_and]
    simp only [next]
  calls := by rw [dispatched_take_succ entry, triggered, ← h.calls]; rfl

/-- R93: one turn of the loop takes one move for an entry whose bit is 0 and three for a triggered one. -/
theorem SweptBelow.next (h : SweptBelow s i b calls) (inv : s.Inv) (on : s.cfg.matchEnabled = true) (lt : i < s.nEnt) :
    ∃ n b' calls', n ≤ 3 ∧ Sweep.Moves n ⟨b, .test i, [], calls⟩ ⟨b', .test (i + 1), [], calls'⟩ ∧
      SweptBelow s (i + 1) b' calls' := by
  obtain ⟨e, entry⟩ : ∃ e, s.table[i]? = some e := ⟨_, List.getElem?_eq_getElem lt⟩
  have le : i ≤ 255 := Nat.le_of_lt (Nat.lt_of_lt_of_le lt inv.nEnt_le)
  have on' : b.cfg.matchEnabled = true := h.cfg ▸ on
  have entry' : b.table[i]? = some e := h.table ▸ entry
  have bit : b.trig.getLsbD i = s.trig.getLsbD i := by simp [h.trig i]
  cases set : s.trig.getLsbD i with
  | false =>
    obtain ⟨data, test⟩ := Sweep.turn_test_quiet calls h.idle quietHandlers on' le entry' (bit.trans set)
    exact ⟨1, _, _, by omega, .one test, h.pass entry set data⟩
  | true =>
    obtain ⟨data, start, test⟩ := Sweep.turn_test_triggered calls h.idle quietHandlers on' le entry' (bit.trans set)
    have below : i < (b.respond .ok data).cfg.maxPatterns := by
      rw [State.respond_cfg, h.cfg]
      exact Nat.lt_of_lt_of_le lt inv.tableLe
    exact ⟨3, _, _, by omega,
      .cons test (.cons (Sweep.turn_call_quiet _ rfl _ _ _) (.one (Sweep.turn_clear _ rfl quietHandlers on' le below))),
      h.dispatch entry set data⟩

end

/-- R93: the loop up to any position that the table reaches. -/
theorem Sweep.moves_to_test {s : State} (inv : s.Inv) (on : s.cfg.matchEnabled = true) (idle : s.held = none) {i : Nat}
    (le : i ≤ s.nEnt) : ∃ n b calls, n ≤ 3 * i ∧ Sweep.Moves n (Sweep.start s) ⟨b, .test i, [], calls⟩ ∧
      SweptBelow s i b calls := by
  induction i with
  | zero => exact ⟨0, s, [], Nat.le_refl 0, .refl _, .start idle⟩
  | succ i ih =>
    obtain ⟨m, b, calls, few, moves, swept⟩ := ih (Nat.le_of_succ_le le)
    obtain ⟨n, b', calls', three, more, swept'⟩ := swept.next inv on le
    exact ⟨m + n, b', calls', by omega, moves.trans more, swept'⟩

/-- Settles O58: the loop up to `n_ent`, where one more test ends it. -/
theorem quietSweepCallsTriggeredEntriesInOrder : Obligations.QuietSweepCallsTriggeredEntriesInOrder := by
  intro s inv on idle
  obtain ⟨n, b, calls, few, moves, swept⟩ := Sweep.moves_to_test inv on idle (Nat.le_refl s.nEnt)
  have above : b.nEnt ≤ s.nEnt := Nat.le_of_eq (congrArg List.length swept.table)
  obtain ⟨data, last⟩ :=
    Sweep.turn_test_above calls swept.idle quietHandlers (swept.cfg ▸ on) inv.nEnt_le above
  refine ⟨n + 1, _, by omega, moves.trans (.one last), rfl, ?_, swept.table, swept.trig⟩
  rw [swept.calls, State.nEnt_eq, List.take_length, dispatched]

end Sys2Proof.Machine

/-!
PROOFS. Configuration and status (43_config_status.md R94, R95): the bytes of SETUP and STAT, what the 0xF0xx words
beside STAT come to, and the bytes STAT reports.
-/
namespace Sys2Proof

/-! ## The words of SETUP and STAT -/

/-- R37, R53: the bytes of a SETUP whose rate is given byte by byte. -/
theorem encode_setup (r0 r1 r2 r3 charSize stopBits parity : Byte) :
    encode (.setup ((r3 ++ r2 : Word) ++ (r1 ++ r0 : Word)) charSize stopBits parity) =
      [0x00, 0xA0, r0, r1, r2, r3, charSize, stopBits, parity] := by
  have rate : dwordBytes ((r3 ++ r2 : Word) ++ (r1 ++ r0 : Word)) = [r0, r1, r2, r3] := by
    simp [dwordBytes_append]
  exact congrArg (fun bytes => wordBytes 0xA000 ++ (bytes ++ [charSize, stopBits, parity])) rate

/-- R59: a word 0xF0xx with xx nonzero is illegal on the command port. -/
theorem decode_command_illegal_beside_stat {w : Word} (high : w.toNat / 256 = 0xF0) (low : w.toNat % 256 ≠ 0)
    (matchEnabled : Bool) (rest : List Byte) : decode matchEnabled .command (wordBytes w ++ rest) = .illegal rest := by
  have op : w.toNat / 4096 = 0xF := by omega
  have sub : w.toNat / 256 % 16 ∈ [0, 2] := high ▸ List.mem_cons_self
  exact (illegalCommandWordsAreTheListedOnes matchEnabled w rest).mpr
    (.inr (.inr (.inr (.inr (.inl ⟨op, sub, low⟩)))))

/-- R49: the same word as its two bytes. -/
theorem decode_command_illegal_stat_imm {imm : Byte} (nonzero : imm ≠ 0) (matchEnabled : Bool) (rest : List Byte) :
    decode matchEnabled .command (imm :: 0xF0 :: rest) = .illegal rest := by
  have word : ((0xF0 : Byte) ++ imm : Word).toNat = 0xF0 * 256 + imm.toNat := append_toNat 0xF0 imm
  have lt := imm.isLt
  have pos : imm.toNat ≠ 0 := fun zero => nonzero (BitVec.eq_of_toNat_eq zero)
  have illegal := decode_command_illegal_beside_stat (by omega) (by omega) matchEnabled rest (w := (0xF0 : Byte) ++ imm)
  rwa [wordBytes_append] at illegal

end Sys2Proof

namespace Sys2Proof.Machine

/-- Settles O30: the encoding is read back, and SETUP never waits. -/
theorem setupForwardsAndEnablesReception : Obligations.SetupForwardsAndEnablesReception := by
  refine fun matchEnabled rest r0 r1 r2 r3 cs sb par r s => ⟨?_, rfl⟩
  have unit := decode_command_encode (i := .setup ((r3 ++ r2 : Word) ++ (r1 ++ r0 : Word)) cs sb par)
    rfl rfl rfl matchEnabled rest
  rwa [encode_setup] at unit

/-! ## The bytes STAT reports -/

/-- R95: the two bytes of `le16`, as quotients. -/
theorem le16_eq (v : Nat) : le16 v = [BitVec.ofNat 8 v, BitVec.ofNat 8 (v / 256)] := by
  simp only [le16, wordBytes, List.cons.injEq, and_true, ← BitVec.toNat_inj, BitVec.extractLsb'_toNat,
    BitVec.toNat_ofNat, Nat.shiftRight_eq_div_pow]
  omega

/-- R95: the four bytes of `le32`, as quotients. -/
theorem le32_eq (v : BitVec 32) : le32 v =
    [BitVec.ofNat 8 v.toNat, BitVec.ofNat 8 (v.toNat / 256), BitVec.ofNat 8 (v.toNat / 65536),
      BitVec.ofNat 8 (v.toNat / 16777216)] := by
  simp [le32, dwordBytes, BitVec.extractLsb', Nat.shiftRight_eq_div_pow]

/-- R95: the bytes STAT reports of one ring, as quotients. -/
theorem Ring.statBytes_eq (r : Ring) : r.statBytes =
    [BitVec.ofNat 8 r.inIdx, BitVec.ofNat 8 (r.inIdx / 256), BitVec.ofNat 8 r.outIdx, BitVec.ofNat 8 (r.outIdx / 256),
      BitVec.ofNat 8 r.count, BitVec.ofNat 8 (r.count / 256)] := by
  simp [Ring.statBytes, le16_eq]

/-- Settles O31: STAT answers `statBytes`, whose ring and match bytes are quotients of the fields they report. -/
theorem statReportsTheBlock : Obligations.StatReportsTheBlock := by
  refine fun matchEnabled rest s => ⟨decode_command_encode (i := .stat) rfl rfl rfl matchEnabled rest,
    fun imm nonzero => decode_command_illegal_stat_imm nonzero matchEnabled rest, ?_⟩
  have stat : exec .stat s = .next (s.respond .ok s.statBytes) := rfl
  rw [stat, State.statBytes, State.matchStatBytes, Ring.statBytes_eq, Ring.statBytes_eq, le32_eq]
  cases s.cfg.matchEnabled <;> rfl

end Sys2Proof.Machine

/-!
PROOFS. Errors and events (60_exceptions.md R96-R107): an illegal word and a unit that is no event, what a step can answer in
a state that meets the invariant, the order of MREG's errors, the Port Adapter's calls, and that RXC and TXR commute.
-/
namespace Sys2Proof

/-! ## The words of the event port -/

/-- R58: the event port refuses a word exactly if it selects no event. -/
theorem decodeWord_event_refuse {matchEnabled : Bool} {w : Word} :
    decodeWord matchEnabled .event w = .refuse ↔ ∀ k : Opcode, k.isEvent = true → decodeOpcode matchEnabled w ≠ some k := by
  simp only [decodeWord]
  cases decodeOpcode matchEnabled w with
  | none => simp
  | some k =>
    cases event : k.isEvent with
    | true => simp [event]
    | false =>
      simp only [event, Bool.false_eq_true, if_false, true_iff]
      rintro j isEvent ⟨⟩
      exact absurd (event.symm.trans isEvent) nofun

theorem decode_event_rxc_word {w : Word} (rxc : w.toNat / 256 = 0xF1) (matchEnabled : Bool) :
    decode matchEnabled .event (wordBytes w) = .unit (.rxc (immField w)) [] :=
  decode_unit (k := .rxc) (payload := []) (rest := []) (decodeWord_event rxc rfl) rfl

/-- R55, R79: what is neither RXC nor TXR is refused. -/
theorem decode_event_refused {w : Word} (other : ¬ (w.toNat / 256 = 0xF1 ∨ w.toNat = 0xF200)) (matchEnabled : Bool) :
    decode matchEnabled .event (wordBytes w) = .refused := by
  have refuse : decodeWord matchEnabled .event w = .refuse := by
    refine decodeWord_event_refuse.mpr fun k event selected => other ?_
    have word := (decodeOpcode_eq_some matchEnabled w k).mp selected
    cases k with
    | rxc => exact .inl word
    | txr => exact .inr word
    | _ => cases event
  rw [← List.append_nil (wordBytes w), decode_wordBytes, refuse]

/-- R79: the event port finds no unit exactly in a word that is neither RXC nor TXR. -/
theorem decode_event_no_unit {matchEnabled : Bool} {w : Word} :
    (∀ i rest, decode matchEnabled .event (wordBytes w) ≠ .unit i rest) ↔
      ¬ (w.toNat / 256 = 0xF1 ∨ w.toNat = 0xF200) := by
  constructor
  · rintro noUnit (rxc | txr)
    · exact noUnit _ _ (decode_event_rxc_word rxc matchEnabled)
    · obtain rfl : w = 0xF200 := BitVec.eq_of_toNat_eq txr
      exact noUnit _ _ (decode_event_txr matchEnabled)
  · intro other i rest unit
    exact absurd ((decode_event_refused other matchEnabled).symm.trans unit) nofun

end Sys2Proof

namespace Sys2Proof.Machine

/-! ## Illegal words and units that are no events -/

/-- R97: with no command held the answer ILLEGAL adds a response and changes nothing else. -/
theorem State.respondIllegal_of_idle {s : State} (idle : s.held = none) :
    s.respondIllegal = { s with responses := s.responses ++ [{ status := .illegal, data := [] }] } := by
  rw [State.respondIllegal, State.respond, ← idle]

/-- R97: F's turn with an illegal word at the head of what it presents. -/
theorem step_foreground_illegal {s : State} {ts : List Turn} {rest : List Byte} (turns : s.turns = .foreground :: ts)
    (idle : s.held = none) (illegal : decode s.cfg.matchEnabled .command s.cmdIn = .illegal rest) :
    step s = .next { s with turns := ts, cmdIn := rest }.respondIllegal := by
  obtain ⟨_, held, -⟩ | ⟨_, _, -, dec, -⟩ | ⟨_, -, dec, e⟩ | ⟨-, dec, -⟩ | ⟨-, dec, -⟩ :=
    step_foreground_cases (State.due_of_idle idle) turns
  · exact absurd (held.symm.trans idle) nofun
  · exact absurd (dec.symm.trans illegal) nofun
  · obtain rfl := Decoded.illegal.inj (dec.symm.trans illegal)
    exact e
  all_goals exact absurd (dec.symm.trans illegal) nofun

/-- R79: P's turn is refused as no event exactly if the event port finds no unit in its word. -/
theorem step_event_notAnEvent {s : State} {w : Word} {ts : List Turn} (quiet : s.due = none)
    (turns : s.turns = .event w :: ts) :
    step s = .refused (.notAnEvent w) ↔ ∀ i rest, decode s.cfg.matchEnabled .event (wordBytes w) ≠ .unit i rest := by
  obtain ⟨i, rest, unit, -, e⟩ | ⟨i, rest, unit, -, e⟩ | ⟨noUnit, e⟩ := step_event_cases quiet turns <;> rw [e]
  · exact iff_of_false (exec_not_refused _ _ _) fun noUnit => noUnit i rest unit
  · exact iff_of_false nofun fun noUnit => noUnit i rest unit
  · exact iff_of_true rfl noUnit

/-- Settles O7: the illegal word is answered with no command held, and the event port finds units in RXC and TXR alone. -/
theorem illegalWordIsAnsweredAndChangesNothing : Obligations.IllegalWordIsAnsweredAndChangesNothing := by
  refine fun s ts w rest => ⟨fun turns idle presented illegal => ⟨?_, rfl⟩, fun turns waiting => ?_⟩
  · have dec : decode s.cfg.matchEnabled .command s.cmdIn = .illegal rest :=
      presented ▸ decode_command_illegal.mpr illegal
    have answer := State.respondIllegal_of_idle (s := { s with turns := ts, cmdIn := rest }) idle
    exact (step_foreground_illegal turns idle dec).trans (congrArg _ answer)
  · rw [step_event_notAnEvent (State.due_eq_none.mpr waiting) turns, decode_event_no_unit]

/-- Settles O24: without the match engine no MREG word selects an operation; on a full table the handler decides. -/
theorem mregErrorPrecedence : Obligations.MregErrorPrecedence := by
  refine fun w c h p s => ⟨fun mreg => ?_, fun on full => ?_⟩
  · have op : w.toNat / 4096 ∈ [0xB, 0xC, 0xD, 0xE] := by
      rw [show w.toNat / 4096 = 0xB by omega]
      exact List.mem_cons_self
    exact decode_command_illegal.mp (decode_command_of_no_opcode (decodeOpcode_matchOff op) [])
  · by_cases handler : h = 0
    · subst handler
      exact ⟨_, _, exec_mreg_noHandler on c p, rfl, fun _ => rfl, fun present => absurd rfl present⟩
    · exact ⟨_, _, exec_mreg_full on c p handler full, rfl, fun absent => absurd absent handler, fun _ => rfl⟩

/-! ## The calls on the Port Adapter -/

/-- Settles O39: of all effects only a transmission and a configuration call the port. -/
theorem portCallsComeFromTxrAndSetup : Obligations.PortCallsComeFromTxrAndSetup := by
  intro i s t run
  cases exec_effect run with
  | transmits b => exact .inr (.inl ⟨b, rfl, rfl⟩)
  | configures rate charSize stopBits parity => exact .inr (.inr ⟨rate, charSize, stopBits, parity, rfl, rfl⟩)
  | _ => exact .inl rfl

/-! ## No fault, and no refusal without a broken duty -/

/-- R33: where the invariant holds, every cell an instruction reads has been written. -/
theorem State.Inv.exec_not_fault {s : State} (h : s.Inv) (i : Instr) (f : Fault) : exec i s ≠ .fault f := by
  intro fault
  obtain ⟨-, busy, unwritten, -⟩ | ⟨-, busy, unwritten, -⟩ | ⟨k, lt, unwritten, -⟩ := exec_fault fault
  · obtain ⟨b, written⟩ := h.txInv.oldest (Nat.pos_of_ne_zero busy)
    exact absurd (written.symm.trans unwritten) nofun
  · obtain ⟨b, written⟩ := h.rxInv.oldest (Nat.pos_of_ne_zero busy)
    exact absurd (written.symm.trans unwritten) nofun
  · have written := h.rxInv.written k lt
    rw [unwritten] at written
    cases written

/-- R96: where the invariant holds, every instruction answers a next state. -/
theorem State.Inv.exec_next {s : State} (h : s.Inv) (i : Instr) : ∃ t, exec i s = .next t := by
  cases run : exec i s with
  | next t => exact ⟨t, rfl⟩
  | fault f => exact absurd run (h.exec_not_fault i f)
  | refused r => exact absurd run (exec_not_refused i s r)

/-- R123: F's duty on its turn. -/
theorem State.dutiful.foreground {s : State} {ts : List Turn} (duty : s.dutiful) (quiet : s.due = none)
    (turns : s.turns = .foreground :: ts) (idle : s.held = none) :
    decode s.cfg.matchEnabled .command s.cmdIn ≠ .incomplete := by
  have whole := duty quiet
  rw [turns] at whole
  exact whole idle

/-- R123: P's duty on its turn, as the event port sees it: a unit whose enable is 1. -/
theorem State.dutiful.event {s : State} {w : Word} {ts : List Turn} (duty : s.dutiful) (quiet : s.due = none)
    (turns : s.turns = .event w :: ts) :
    ∃ i, decode s.cfg.matchEnabled .event (wordBytes w) = .unit i [] ∧ eventEnabled s i = true := by
  have enabled := duty quiet
  rw [turns] at enabled
  obtain ⟨rxc, rxie⟩ | ⟨txr, txie⟩ := enabled
  · exact ⟨_, decode_event_rxc_word rxc _, rxie⟩
  · obtain rfl : w = 0xF200 := BitVec.eq_of_toNat_eq txr
    exact ⟨_, decode_event_txr _, txie⟩

/-- Everything a step can answer where the invariant holds: a next state, or a refusal of a broken duty. -/
theorem State.Inv.step_answers {s : State} (h : s.Inv) :
    (∃ t, Machine.step s = .next t) ∨ ∃ r, Machine.step s = .refused r ∧ ¬ s.dutiful := by
  cases quiet : s.due with
  | some i => exact .inl (step_due quiet ▸ h.exec_next i)
  | none =>
    cases turns : s.turns with
    | nil => exact .inl ⟨s, step_idle quiet turns⟩
    | cons turn ts =>
      cases turn with
      | foreground =>
        obtain ⟨_, -, e⟩ | ⟨i, rest, -, -, e⟩ | ⟨_, -, -, e⟩ | ⟨-, -, e⟩ | ⟨idle, incomplete, e⟩ :=
          step_foreground_cases quiet turns
        · exact .inl ⟨_, e⟩
        · exact .inl (e ▸ (h.present ts rest).exec_next i)
        · exact .inl ⟨_, e⟩
        · exact .inl ⟨_, e⟩
        · exact .inr ⟨_, e, fun duty => duty.foreground quiet turns idle incomplete⟩
      | event w =>
        have broken {r : Refusal} (e : Machine.step s = .refused r) : ¬ s.dutiful := by
          intro duty
          obtain ⟨i, unit, enabled⟩ := duty.event quiet turns
          have run := (step_event_unit quiet turns unit).1 enabled
          exact exec_not_refused _ _ _ (run.symm.trans e)
        obtain ⟨i, _, -, -, e⟩ | ⟨_, _, -, -, e⟩ | ⟨-, e⟩ := step_event_cases quiet turns
        · exact .inl (e ▸ (h.present ts s.cmdIn).exec_next i)
        · exact .inr ⟨_, e, broken e⟩
        · exact .inr ⟨_, e, broken e⟩

/-- Settles O44: a reachable state meets the invariant, and there a step answers a next state or refuses a broken duty. -/
theorem noReachableStateFaults : Obligations.NoReachableStateFaults := by
  intro s reachable
  obtain ⟨t, next⟩ | ⟨r, refusal, broken⟩ := reachable.inv.step_answers
  · exact ⟨fun f fault => absurd (next.symm.trans fault) nofun, fun _ => ⟨t, next⟩⟩
  · exact ⟨fun f fault => absurd (refusal.symm.trans fault) nofun, fun duty => absurd duty broken⟩

/-! ## RXC and TXR commute -/

/-- The state RXC leaves (R81, R84). -/
def State.afterRxc (s : State) (b : Byte) : State :=
  { s with
    rx := s.rx.pushOverwrite s.cfg.rxSize s.cfg.rxOverflow b
    table := if s.cfg.matchEnabled then advanceTable s.table b else s.table
    trig := if s.cfg.matchEnabled then raiseTrig s.trig (firesAt s.table b) else s.trig }

theorem exec_rxc (b : Byte) (s : State) : exec (.rxc b) s = .next (s.afterRxc b) := by
  rw [State.afterRxc]
  cases built : s.cfg.matchEnabled with
  | true => exact exec_rxc_matchOn built b
  | false => exact exec_rxc_matchOff built b

@[simp] theorem State.afterRxc_cfg (s : State) (b : Byte) : (s.afterRxc b).cfg = s.cfg := rfl
@[simp] theorem State.afterRxc_tx (s : State) (b : Byte) : (s.afterRxc b).tx = s.tx := rfl
@[simp] theorem State.afterRxc_txie (s : State) (b : Byte) : (s.afterRxc b).txie = s.txie := rfl

/-- R100: RXC and the writes of TXR are of different fields. -/
theorem State.afterRxc_setTx (s : State) (b : Byte) (r : Ring) :
    (s.setTx r).afterRxc b = (s.afterRxc b).setTx r := rfl
theorem State.afterRxc_callPort (s : State) (b : Byte) (calls : List PortCall) :
    (s.callPort calls).afterRxc b = (s.afterRxc b).callPort calls := rfl
theorem State.afterRxc_setTxie (s : State) (b : Byte) (v : Bool) :
    (s.setTxie v).afterRxc b = (s.afterRxc b).setTxie v := rfl

/-- R80, R100: a TXR after an RXC answers what it answers without it, the RXC applied. -/
theorem exec_txr_afterRxc {s u : State} (run : exec .txr s = .next u) (b : Byte) :
    exec .txr (s.afterRxc b) = .next (u.afterRxc b) := by
  rw [exec, execTxr] at run ⊢
  rw [State.afterRxc_cfg, State.afterRxc_tx, State.afterRxc_txie]
  by_cases empty : s.tx.count = 0
  · rw [if_pos empty] at run ⊢
    cases run
    rw [State.afterRxc_setTxie]
  · rw [if_neg empty] at run ⊢
    cases pop : s.tx.pop s.cfg.txSize with
    | error f => rw [pop] at run; cases run
    | ok p =>
      rw [pop] at run
      cases run
      rw [State.afterRxc_setTxie, State.afterRxc_callPort, State.afterRxc_setTx]

/-- Settles O57: TXR answers a next state, which an RXC before it or after it changes in the same way. -/
theorem rxcAndTxrCommute : Obligations.RxcAndTxrCommute := by
  intro b s h
  obtain ⟨u, run⟩ := h.exec_next .txr
  exact ⟨_, u, _, exec_rxc b s, exec_txr_afterRxc run b, run, exec_rxc b u⟩

end Sys2Proof.Machine

/-!
PROOFS. Reset and hazards (70_reset_and_hazards.md R111-R119): reception before SETUP, a peek followed by receives, a match lost
between MTRIG and MCLR, and the end of a held SENDB or FLUSHTX under the fairness of R112.
-/
namespace Sys2Proof.Machine

/-! ## Before SETUP -/

/-- Settles O51: the invariant keeps RX empty while RXIE is 0, so RECVB waits, and the gate of the event port is closed. -/
theorem nothingIsReceivedBeforeSetup : Obligations.NothingIsReceivedBeforeSetup := by
  intro s reachable off
  have empty : s.rx.count = 0 := reachable.inv.rxQuiet off
  exact ⟨empty, exec_of_waiting (by simp [empty]),
    fun b ts waiting turns => ((eventsAreGatedByTheirEnables s ts waiting).1 b turns).2 off⟩

/-! ## Peek, then receive -/

/-- R65, R70: RECVB takes the first of the bytes held and answers it, whether or not RX is coherent. -/
theorem exec_recvb_first {s : State} {b : Byte} {rest : List (Option Byte)} (inv : s.rx.Inv s.cfg.rxSize)
    (contents : s.rx.contents s.cfg.rxSize = some b :: rest) :
    ∃ t, exec .recvb s = .next t ∧ t.held = none ∧ t.rx.Inv t.cfg.rxSize ∧ t.rx.contents t.cfg.rxSize = rest ∧
      t.rx.count + 1 = s.rx.count ∧ t.responses = s.responses ++ [{ status := .ok, data := [b] }] := by
  have pos : 0 < s.rx.count := by
    rw [← Ring.length_contents s.rx s.cfg.rxSize, contents]
    exact Nat.succ_pos _
  obtain ⟨c, oldest⟩ := inv.oldest pos
  obtain ⟨r, popped, cells, run⟩ := State.receive_pops pos oldest
  rw [Ring.contents_popped popped inv.outLt, oldest] at contents
  obtain ⟨first, left⟩ := List.cons.inj contents
  obtain rfl := Option.some.inj first
  exact ⟨_, (exec_recvb_ready pos).trans run, rfl, inv.popped popped cells, left, popped.count, rfl⟩

/-- R62: RECVN of as many bytes as the oldest run `l` of those held answers the bytes of `l` one by one and consumes them. -/
theorem issueAll_recvN_oldest {l : List Byte} {s : State} (idle : s.held = none) (inv : s.rx.Inv s.cfg.rxSize)
    (first : l.map some <+: s.rx.contents s.cfg.rxSize) :
    ∃ t, issueAll (recvN l.length) s = .next t ∧ t.rx.count + l.length = s.rx.count ∧
      t.responses = s.responses ++ l.map fun b => { status := .ok, data := [b] } := by
  induction l generalizing s with
  | nil => exact ⟨s, rfl, rfl, (List.append_nil _).symm⟩
  | cons b l ih =>
    obtain ⟨rest, contents⟩ := first
    obtain ⟨u, recvb, idle', inv', left, count, answer⟩ := exec_recvb_first inv contents.symm
    obtain ⟨t, run, consumed, answers⟩ := ih idle' inv' ⟨rest, left.symm⟩
    refine ⟨t, (issueAll_cons idle recvb).trans run, ?_, ?_⟩
    · rw [← count, ← consumed, List.length_cons, Nat.add_assoc]
    · rw [answers, answer, List.map_cons, List.append_assoc, List.singleton_append]

/-- Settles O55: the peeked bytes are the oldest of those held, and the peek leaves them in RX. -/
theorem peekThenReceiveGivesTheSameBytes : Obligations.PeekThenReceiveGivesTheSameBytes := by
  intro n s h idle enough
  obtain ⟨bs, peeked, len⟩ := h.rxInv.peekRun enough
  have first : bs.map some <+: s.rx.contents s.cfg.rxSize :=
    (Ring.peekRun_contents enough).mp peeked ▸ ⟨_, List.take_append_drop _ _⟩
  obtain ⟨u, run, consumed, answers⟩ := issueAll_recvN_oldest (s := s.respond .ok bs) rfl h.rxInv first
  exact ⟨bs, _, u, len,
    (State.holdUntil_ready (i := .peekn n) _ (decide_eq_true enough)).trans (State.peek_of_peekRun peeked),
    rfl, run, consumed, answers⟩

/-! ## A match lost between MTRIG and MCLR -/

/-- R89, R90: MCLR keeps the entry, and MTRIG after it answers that the entry is not triggered. -/
theorem exec_mclr_mtrig {s : State} {i : Nat} {e : Entry} (on : s.cfg.matchEnabled = true)
    (below : i < s.cfg.maxPatterns) (entry : s.table[i]? = some e) :
    ∃ t u, exec (.mclr i) s = .next t ∧ t.trig.getLsbD i = false ∧ t.table[i]? = some e ∧
      exec (.mtrig i) t = .next u ∧ u.lastData[1]? = some 0 := by
  have cleared : (clearTrig s.trig i).getLsbD i = false := by simp [getLsbD_clearTrig]
  have again := exec_mtrig_entry (s := (s.setMatch s.table (clearTrig s.trig i)).respond .ok []) on entry
  refine ⟨_, _, exec_mclr_below on below, cleared, entry, again, ?_⟩
  simp [cleared, bitByte]

/-- Settles O59: RXC moves the progress of the entry alone, and MCLR clears its bit, whatever RXC has raised. -/
theorem matchBetweenTestAndClearIsLost : Obligations.MatchBetweenTestAndClearIsLost := by
  intro b i e s t u on below entry test receive
  have cfg : u.cfg = s.cfg := (exec_keepsBuild receive).1.trans (exec_keepsBuild test).1
  have table : u.table = advanceTable s.table b := by
    cases (exec_mtrig_entry on entry).symm.trans test
    cases (exec_rxc_matchOn (s := s.respond _ _) on b).symm.trans receive
    rfl
  have advanced : u.table[i]? = some { e with prog := (entryStep e b).1 } := by
    rw [table, getElem?_advanceTable, entry, Option.map_some]
  obtain ⟨v, w, clear, bit, kept, again, answer⟩ := exec_mclr_mtrig (cfg ▸ on) (cfg ▸ below) advanced
  exact ⟨v, w, _, clear, bit, kept, rfl, rfl, again, answer⟩

/-! ## The end of a held TX command under weak fairness -/

/-- R54, R80, R81: a step in which the held command waits leaves it held and adds no byte to TX. -/
theorem step_waiting {s t : State} {i : Instr} (held : s.held = some i) (waiting : s.ready i = false)
    (next : step s = .next t) : t.held = some i ∧ t.tx.count ≤ s.tx.count := by
  have quiet : s.due = none := State.due_of_waiting held waiting
  cases turns : s.turns with
  | nil =>
    rw [step_idle quiet turns] at next
    cases next
    exact ⟨held, Nat.le_refl _⟩
  | cons turn ts =>
    cases turn with
    | foreground =>
      rw [step_foreground_waiting held waiting turns] at next
      cases next
      exact ⟨held, Nat.le_refl _⟩
    | event w =>
      obtain ⟨e, _, unit, -, run⟩ | ⟨_, _, -, -, refusal⟩ | ⟨-, refusal⟩ := step_event_cases quiet turns
      · obtain ⟨same, fewer, -⟩ := (exec_effect (run.symm.trans next)).event_frame (decode_unit_wellFormed unit).2
        exact ⟨same.trans held, fewer⟩
      · exact absurd (refusal.symm.trans next) nofun
      · exact absurd (refusal.symm.trans next) nofun

/-- R80: a TXR that is delivered takes a byte out of a non-empty TX. -/
theorem State.Inv.step_txr {s t : State} {ts : List Turn} (h : s.Inv) (quiet : s.due = none)
    (turns : s.turns = txrTurn :: ts) (pos : 0 < s.tx.count) (next : Machine.step s = .next t) :
    t.tx.count + 1 = s.tx.count := by
  have run := (step_event_unit quiet turns (decode_event_txr _)).1 (h.txieIff.mpr pos)
  exact (exec_txr_popped (s := { s with turns := ts }) pos (run.symm.trans next)).count

/-- R68, R76: SENDB and FLUSHTX wait only while TX holds a byte. -/
theorem State.Inv.tx_pos_of_waiting {s : State} {i : Instr} (h : s.Inv) (sends : i = .flushtx ∨ ∃ b, i = .sendb b)
    (waiting : s.ready i = false) : 0 < s.tx.count := by
  obtain rfl | ⟨b, rfl⟩ := sends
  · exact Nat.pos_of_ne_zero (by simpa using waiting)
  · exact Nat.lt_of_lt_of_le (Nat.zero_lt_of_lt h.txInv.inLt) (by simpa using waiting)

section
variable {σ : Nat → Turn} {run : Nat → State} (start : (run 0).Inv) (execution : Execution σ run)
include execution

/-- While the held command waits it stays held, and TX gains no byte. -/
theorem Execution.waiting {n : Nat} {i : Instr} (held : (run n).held = some i) (waiting : (run n).ready i = false) :
    (run (n + 1)).held = some i ∧ (run (n + 1)).tx.count ≤ (run n).tx.count :=
  step_waiting (s := { run n with turns := [σ n] }) held waiting (execution n)

include start

/-- The invariant holds along an execution. -/
theorem Execution.inv (n : Nat) : (run n).Inv := by
  induction n with
  | zero => exact start
  | succ n ih => exact (ih.present [σ n] (run n).cmdIn).step (execution n)

/-- R112: a command waiting for TX comes to a state in which its condition is true. For if it waited for ever, TX would hold a
byte for ever, so TXIE would stay 1 and TXR be delivered infinitely often; each TXR lowers the count, which never rises, so it
would fall below 0. -/
theorem Execution.exists_due (fair : FairTxr σ run) {i : Instr} (sends : i = .flushtx ∨ ∃ b, i = .sendb b)
    (held : (run 0).held = some i) : ∃ n, (run n).due = some i := by
  refine Classical.byContradiction fun never => ?_
  have waits (n : Nat) (heldNow : (run n).held = some i) : (run n).ready i = false :=
    Bool.not_eq_true _ ▸ fun ready => never ⟨n, State.due_eq_some.mpr ⟨heldNow, ready⟩⟩
  have stays (n : Nat) : (run n).held = some i := by
    induction n with
    | zero => exact held
    | succ n ih => exact (execution.waiting ih (waits n ih)).1
  have pos (n : Nat) : 0 < (run n).tx.count :=
    (execution.inv start n).tx_pos_of_waiting sends (waits n (stays n))
  have neverRises {m n : Nat} (le : m ≤ n) : (run n).tx.count ≤ (run m).tx.count := by
    induction le with
    | refl => exact Nat.le_refl _
    | @step n _ ih => exact Nat.le_trans (execution.waiting (stays n) (waits n (stays n))).2 ih
  have lowered (k : Nat) : ∃ n, (run n).tx.count + k ≤ (run 0).tx.count := by
    induction k with
    | zero => exact ⟨0, Nat.le_refl _⟩
    | succ k ih =>
      obtain ⟨m, low⟩ := ih
      obtain ⟨n, late, turn, quiet⟩ := fair ⟨0, fun n _ => (execution.inv start n).txieIff.mpr (pos n)⟩ m
      have sent : (run (n + 1)).tx.count + 1 = (run n).tx.count :=
        ((execution.inv start n).present [σ n] (run n).cmdIn).step_txr quiet (congrArg (· :: []) turn) (pos n)
          (execution n)
      have := neverRises late
      exact ⟨n + 1, by omega⟩
  obtain ⟨n, negative⟩ := lowered ((run 0).tx.count + 1)
  omega

/-- R54, R112: a held SENDB or FLUSHTX takes its effect in some step. -/
theorem Execution.held_tx_command_runs (fair : FairTxr σ run) {i : Instr} (sends : i = .flushtx ∨ ∃ b, i = .sendb b)
    (held : (run 0).held = some i) :
    ∃ n, (run n).ready i = true ∧ exec i { run n with turns := [σ n] } = .next (run (n + 1)) := by
  obtain ⟨n, due⟩ := execution.exists_due start fair sends held
  exact ⟨n, (State.due_eq_some.mp due).2, (step_due (s := { run n with turns := [σ n] }) due).symm.trans (execution n)⟩

end

/-- Settles O60: in the step in which the command takes its effect it is over, and FLUSHTX leaves TX reset. -/
theorem heldTxCommandsEndUnderFairness : Obligations.HeldTxCommandsEndUnderFairness := by
  refine fun σ run start execution fair => ⟨fun held => ?_, fun b held => ?_⟩
  · obtain ⟨n, ready, effect⟩ := execution.held_tx_command_runs start fair (.inl rfl) held
    obtain ⟨-, flushed⟩ | ⟨busy, -⟩ := execFlushtx_next effect
    · exact ⟨n + 1, flushed ▸ rfl, flushed ▸ rfl⟩
    · exact absurd (of_decide_eq_true ready) busy
  · obtain ⟨n, ready, effect⟩ := execution.held_tx_command_runs start fair (.inr ⟨b, rfl⟩) held
    exact ⟨n + 1, (exec_effect effect).ends rfl ready⟩

end Sys2Proof.Machine
